-- ==== Sys2Proof/Word.lean ====
section
/-! DEFINITION. The word types of HCE and their plainest arithmetic (spec/00_scope.md R6 to R10). -/

namespace Sys2Proof

/-- A 32-bit register or host data word (R6 of 00_scope.md: CNT_W, LEN_W, HDATA_W). -/
abbrev Word := BitVec 32

/-- One byte of RAW or PKD. -/
abbrev Byte := BitVec 8

/-- A symbol: an unsigned byte value 0 to 255 (R8 of 00_scope.md). -/
abbrev Sym := BitVec 8

/-- A node index: one of the 511 records of NODE and LINK (R41, R44 of 10_state.md). -/
abbrev NodeIdx := Fin 511

/-- A bit sequence: a code, a path, a payload; the first element is the first bit (R9 of 00_scope.md). -/
abbrev Bits := List Bool

/-- One entry per symbol (FREQ, CODELEN, CODEBITS). -/
abbrev Table (α : Type) := Vector α 256

/-- `ceil8(n)`: bytes needed for `n` bits (R10 of 00_scope.md). -/
def ceil8 (n : Nat) : Nat := (n + 7) / 8

end Sys2Proof
end

