-- ==== Sys2Proof/Config.lean ====
section
/-! DEFINITION. What one instance of the block fixes when it is built, and the free values: constants with no body,
which nothing can evaluate (spec/00_scope.md R6; spec/93_implementation_defined.md part 2). -/

namespace Sys2Proof

/-- The two parameters of an instance (R6 of 00_scope.md, U7 of 93_implementation_defined.md). State carries them, so a
claim about every state is a claim about every instance. -/
structure Params where
  rawSize : Word
  pkdSize : Word
  deriving DecidableEq, Repr

namespace Config

/-- The constant of register ID, ASCII "HUF1" (R22 of 10_state.md). -/
def idValue : Word := 0x48554631#32

/-- The instance that `State.reset` is: the sizes of the spec's test vectors (R6 of 00_scope.md, 95_test_vectors.md).
DESIGN CHOICE, log entry 6: R6 makes both arguments; no statement rests on these two numbers. -/
def resetParams : Params := { rawSize := 65536#32, pkdSize := 65536#32 }

/-- FREE VALUE: the byte that draw number `k` left at address `a` of a buffer (R243 of 70_reset_and_hazards.md, R218 of
60_exceptions.md: unspecified, stable once drawn). Log entry 1. -/
opaque freeByte : (k a : Nat) → Byte

/-- FREE VALUE: what a 32-bit register holds after a number that does not fit it is stored there. Log entry 7. -/
opaque unstated32 : (n : Nat) → Word

end Config

end Sys2Proof
end

