-- ==== Sys2Proof/Machine/State.lean ====
section
/-! DEFINITION. The state of the machine as plain data: everything spec/10_state.md R20 gives the block, and three fields of
the model's own (draws, schedule, response); the reasons a step can stop; the state after reset. -/

namespace Sys2Proof.Machine

/-- The engine state (R30 of 10_state.md). -/
inductive EngineState where
  | idle
  | busy
  | fault
  deriving DecidableEq, Repr

/-- The eight address spaces of the host port (R60 of 20_memory.md). -/
inductive Space where
  | reg
  | freq
  | node
  | link
  | codelen
  | codebits
  | raw
  | pkd
  deriving DecidableEq, Repr

/-- What can happen next (R12 of 00_scope.md): a host transaction, the engine's turn, or hardware reset. -/
inductive Event where
  /-- HRead(space, index) (R61 of 20_memory.md). -/
  | read (space : Space) (index : Word)
  /-- HWrite(space, index, data) (R62 of 20_memory.md). -/
  | write (space : Space) (index : Word) (data : Word)
  /-- The engine's turn: completion if BUSY (R32 of 10_state.md), nothing otherwise. -/
  | engine
  /-- Hardware reset (R240 of 70_reset_and_hazards.md). -/
  | reset
  deriving DecidableEq, Repr

/-- The response of one host transaction (R61, R62 of 20_memory.md). -/
inductive Response where
  | read (data : Word) (err : Bool)
  | write (err : Bool)
  deriving DecidableEq, Repr

/-- The fault codes (R201 of 60_exceptions.md). -/
inductive FaultCode where
  | illegal
  | range
  | state
  | noCode
  | overflow
  | corruptPath
  | corruptShort
  | codebook
  | nodeOvf
  deriving DecidableEq, Repr

/-- ERR, ERRINFO0 and ERRINFO1 (R25, R26 of 10_state.md). -/
structure FaultRecord where
  code : BitVec 8
  info0 : Word
  info1 : Word
  deriving DecidableEq, Repr

/-- What `raise Fault(code, i0, i1)` carries (R11 of 00_scope.md). -/
structure Raised where
  code : FaultCode
  info0 : Word
  info1 : Word
  deriving DecidableEq, Repr

/-- One record of the node storage (R41 of 10_state.md). -/
structure NodeRec where
  leaf : Bool
  sym : Sym
  freq : BitVec 40
  deriving DecidableEq, Repr

/-- The two child links of a record; an absent link holds no child (R44 of 10_state.md). -/
structure LinkPair where
  left : Option NodeIdx
  right : Option NodeIdx
  deriving DecidableEq, Repr

/-- The node storage, the child-link storage and the registers that describe the tree in them (R36, R41, R44 of
10_state.md). -/
structure Tree where
  node : Vector NodeRec 511
  link : Vector LinkPair 511
  nleaf : BitVec 9
  nnodes : BitVec 9
  root : NodeIdx
  deriving DecidableEq, Repr

/-- The code table: CODELEN and CODEBITS (R46, R47 of 10_state.md). -/
structure CodeTable where
  len : Table Byte
  words : Table (Vector Word 8)
  deriving DecidableEq, Repr

/-- A byte buffer (RAW or PKD, R50 and R51 of 10_state.md): the bytes written since their last draw, addresses strictly
rising; a byte not listed holds a free value, that of the first entry (n, k) of `drawn` with its address below n (draw k),
else of draw `base`. -/
structure Memory where
  cells : List Host.Cell
  drawn : List (Nat × Nat)
  base : Nat
  deriving DecidableEq, Repr

/-- The machine. -/
structure State where
  /-- STATE (R30). -/
  engine : EngineState
  /-- CMD (R23). -/
  cmd : Word
  /-- STATUS.DONE (R24, R34). -/
  done : Bool
  /-- STATUS.TREE_OK (R24). -/
  treeOk : Bool
  /-- ERR, ERRINFO0, ERRINFO1 (R25, R26). -/
  err : FaultRecord
  /-- RLEN (R27). -/
  rlen : Word
  /-- PLEN (R28). -/
  plen : Word
  /-- PBITS (R29). -/
  pbits : Word
  /-- UBITS (R29). -/
  ubits : Word
  /-- RAWSIZE and PKDSIZE, the constants of the instance (R37). -/
  params : Params
  /-- FREQ (R40). -/
  freq : Table Word
  /-- NODE, LINK, NLEAF, NNODES, ROOT (R36, R41, R44). -/
  tree : Tree
  /-- CODELEN, CODEBITS (R46, R47). -/
  code : CodeTable
  /-- RAW (R50). -/
  raw : Memory
  /-- PKD (R51). -/
  pkd : Memory
  /-- The MODEL's own: how many draws of free buffer contents have been made (log entry 2). -/
  draws : Nat
  /-- The MODEL's own: the events to come, the next one first (log entry 3). -/
  schedule : List Event
  /-- The MODEL's own: the response of the transaction the latest step carried out (log entry 4). -/
  response : Option Response
  deriving DecidableEq, Repr

/-- Why the machine stops. The faults of the block itself (R201 of 60_exceptions.md) are not here: they are taken, as next
states with STATE = FAULT. -/
inductive Fault where
  /-- Raised by DERIVE alone, when its walk passes 255 levels: on a tree that R45 of 10_state.md rules out (a cycle, or a
  leaf deeper than 255), where the spec's walk does not end or the length does not fit CODELEN. No run reaches such a tree.
  SAFE: the machine stops where the spec gives no effect. Log entry 10. -/
  | walkTooDeep
  deriving DecidableEq, Repr

/-- Why an instruction has no meaning. -/
inductive Refusal where
  /-- Raised by exec for an instruction the model has not reached; no arm of exec raises it now. SAFE. -/
  | notModelled (mnemonic : String)
  deriving DecidableEq, Repr

/-- The all-zero record (R57 of 10_state.md). -/
def NodeRec.zero : NodeRec := { leaf := false, sym := 0#8, freq := 0#40 }

/-- Both links absent (R57 of 10_state.md). -/
def LinkPair.none : LinkPair := { left := Option.none, right := Option.none }

/-- No tree: all records zero, NLEAF = NNODES = ROOT = 0 (R57 of 10_state.md). -/
def Tree.empty : Tree :=
  { node := Vector.replicate 511 NodeRec.zero
    link := Vector.replicate 511 LinkPair.none
    nleaf := 0#9
    nnodes := 0#9
    root := 0 }

/-- The empty code table (R57 of 10_state.md). -/
def CodeTable.empty : CodeTable :=
  { len := Vector.replicate 256 0#8
    words := Vector.replicate 256 (Vector.replicate 8 0#32) }

/-- The empty frequency table (R57 of 10_state.md). -/
def zeroFreq : Table Word := Vector.replicate 256 0#32

/-- No fault recorded (R57 of 10_state.md). -/
def FaultRecord.none : FaultRecord := { code := 0#8, info0 := 0#32, info1 := 0#32 }

/-- A buffer whose every byte is the free value of draw `k` (R243 of 70_reset_and_hazards.md). -/
def Memory.ofDraw (k : Nat) : Memory := { cells := [], drawn := [], base := k }

/-- The state after hardware reset of an instance with parameters `p`, its buffers holding the contents of draws `k` (RAW) and
`k + 1` (PKD) (R57 of 10_state.md; R240, R243, R246 of 70_reset_and_hazards.md). -/
def State.resetWith (p : Params) (k : Nat) : State :=
  { engine := .idle
    cmd := 0#32
    done := false
    treeOk := false
    err := FaultRecord.none
    rlen := 0#32
    plen := 0#32
    pbits := 0#32
    ubits := 0#32
    params := p
    freq := zeroFreq
    tree := Tree.empty
    code := CodeTable.empty
    raw := Memory.ofDraw k
    pkd := Memory.ofDraw (k + 1)
    draws := k + 2
    schedule := []
    response := Option.none }

/-- The machine right after reset (R57 of 10_state.md), for the instance `Config.resetParams`. -/
def State.reset : State := State.resetWith Config.resetParams 0

end Sys2Proof.Machine
end

