-- ==== Sys2Proof/Machine/Flags.lean ====
section
/-! DEFINITION. The flags: the four STATUS bits, their word and the outputs that mirror them, and how issue, completion and
fault entry set them (spec/10_state.md R24, R31, R32, R34, R38; spec/60_exceptions.md R210, R215). -/

namespace Sys2Proof.Machine

/-- STATUS.BUSY: STATE = BUSY (R24). -/
def State.busyFlag (s : State) : Bool := decide (s.engine = .busy)

/-- STATUS.FAULT: STATE = FAULT (R24). -/
def State.faultFlag (s : State) : Bool := decide (s.engine = .fault)

/-- STATUS: BUSY, DONE, FAULT, TREE_OK in bits 0 to 3, the rest zero (R24). -/
def State.statusWord (s : State) : Word :=
  0#28 ++ BitVec.ofBool s.treeOk ++ BitVec.ofBool s.faultFlag ++ BitVec.ofBool s.done ++ BitVec.ofBool s.busyFlag

/-- The output busy (R210 of 60_exceptions.md). -/
def State.busyOut (s : State) : Bool := s.statusWord.getLsbD 0

/-- The output done (R210 of 60_exceptions.md). -/
def State.doneOut (s : State) : Bool := s.statusWord.getLsbD 1

/-- The output fault (R210 of 60_exceptions.md). -/
def State.faultOut (s : State) : Bool := s.statusWord.getLsbD 2

/-- ERR is not zero: a fault is on record (R25). -/
def State.faultOnRecord (s : State) : Bool := s.err.code != 0#8

/-- The flags at issue: STATE <- BUSY, so BUSY reads 1 and FAULT reads 0; DONE <- 0 (R31 cases a and c, R24). -/
def State.flagsIssue (s : State) : State := { s with engine := .busy, done := false }

/-- The flags at completion without fault: STATE <- IDLE, DONE <- 1 (R32, R24). -/
def State.flagsDone (s : State) : State := { s with engine := .idle, done := true }

/-- The flags at completion with a fault: STATE <- FAULT, DONE <- 0 (R32; R215 of 60_exceptions.md). -/
def State.flagsFault (s : State) : State := { s with engine := .fault, done := false }

/-- TREE_OK <- `b` (R24). -/
def State.flagTreeOk (b : Bool) (s : State) : State := { s with treeOk := b }

end Sys2Proof.Machine
end

