-- ==== Sys2Proof/Machine/Ops.lean ====
section
/-! DEFINITION. The named operations over memory and registers: bytes of a buffer, entries of a table, records of the arena,
command issue, completion, TAKING A FAULT (spec/60_exceptions.md R215), the return from it (R220), soft and hardware reset. -/

namespace Sys2Proof.Machine

/-! ### Byte buffers (R50, R51 of 10_state.md; R243 of 70_reset_and_hazards.md) -/

/-- The byte written at address `a`, if one was. -/
def cellAt : List Host.Cell → Nat → Option Byte
  | [], _ => none
  | (k, b) :: rest, a => if k = a then some b else cellAt rest a

/-- The cells with `b` written at `a`, addresses kept strictly rising. -/
def putCell (a : Nat) (b : Byte) : List Host.Cell → List Host.Cell
  | [] => [(a, b)]
  | (k, v) :: rest =>
    if a < k then (a, b) :: (k, v) :: rest
    else if a = k then (a, b) :: rest
    else (k, v) :: putCell a b rest

/-- Which draw an unwritten address holds. -/
def drawAt : List (Nat × Nat) → Nat → Nat → Nat
  | [], base, _ => base
  | (n, k) :: rest, base, a => if a < n then k else drawAt rest base a

/-- What an address nobody has written holds: the free byte of its draw (log entry 1). -/
def Memory.unlisted (m : Memory) (a : Nat) : Byte := Config.freeByte (drawAt m.drawn m.base a) a

/-- RAW[a] or PKD[a] (R11 of 00_scope.md). -/
def Memory.read (m : Memory) (a : Nat) : Byte := (cellAt m.cells a).getD (m.unlisted a)

/-- RAW[a] <- b or PKD[a] <- b. -/
def Memory.write (m : Memory) (a : Nat) (b : Byte) : Memory := { m with cells := putCell a b m.cells }

/-- Every byte becomes unspecified: the free contents of draw `k` (R218 of 60_exceptions.md, PACK; R243). -/
def Memory.redrawAll (k : Nat) : Memory := Memory.ofDraw k

/-- The bytes below `n` become unspecified, those of draw `k`; the bytes at `n` and above stay (R218, UNPACK). -/
def Memory.redrawBelow (m : Memory) (n k : Nat) : Memory :=
  { m with
    cells := m.cells.filter (fun c => decide (n ≤ c.1))
    drawn := (n, k) :: m.drawn.filter (fun d => decide (n < d.1)) }

/-- The first `n` bytes, in index order. -/
def Memory.firstBytes (m : Memory) (n : Nat) : List Byte := (List.range n).map m.read

/-- Strictly rising, each number above `lo` when `lo` is given. -/
def risingFrom : Option Nat → List Nat → Bool
  | _, [] => true
  | none, a :: rest => risingFrom (some a) rest
  | some lo, a :: rest => decide (lo < a) && risingFrom (some a) rest

/-- The canonical form: written addresses strictly rising, and so the bounds of the draws. An unwritten address has no stored
value, so no entry can equal what an unlisted address holds (log entry 12). -/
def Memory.wf (m : Memory) : Bool :=
  risingFrom none (m.cells.map Prod.fst) && risingFrom none (m.drawn.map Prod.fst)

/-- Every written address is below `size`: the buffer has no byte there otherwise (R50, R51 of 10_state.md). -/
def Memory.within (m : Memory) (size : Nat) : Bool := m.cells.all (fun c => decide (c.1 < size))

/-! ### Tables indexed by a symbol (R8, R98) -/

/-- The entry of symbol `s`, indexed by its unsigned value. -/
def entryAt (t : Table α) (s : Sym) : α := t[s.toNat]'s.isLt

/-- The table with the entry of symbol `s` set. -/
def putEntry (t : Table α) (s : Sym) (x : α) : Table α := t.set s.toNat x s.isLt

/-- All symbols, ascending. -/
def symbols : List Sym := (List.range 256).map (BitVec.ofNat 8)

/-- The entries of a table with their symbols, ascending ("for s in 0 .. 255" of R130 and R180). -/
def entriesOf (t : Table α) : List (Sym × α) := symbols.zip t.toList

/-! ### The arena: node storage and child-link storage under construction (R41, R44, R132, R181) -/

/-- What BUILD and TRIE hold while they run: the two storages, the next free index and the leaves made so far. -/
structure Arena where
  node : Vector NodeRec 511
  link : Vector LinkPair 511
  next : Nat
  leaves : Nat
  deriving DecidableEq, Repr

/-- All 511 records and 1022 links zero, nothing allocated (R131, R180). -/
def Arena.clear : Arena :=
  { node := Tree.empty.node, link := Tree.empty.link, next := 0, leaves := 0 }

/-- LINK[i][b]: left on bit 0, right on bit 1 (R44). -/
def LinkPair.child (l : LinkPair) (b : Bool) : Option NodeIdx := if b then l.right else l.left

/-- LINK[i][b] <- (present, c) (R44). -/
def LinkPair.withChild (l : LinkPair) (b : Bool) (c : NodeIdx) : LinkPair :=
  if b then { l with right := some c } else { l with left := some c }

/-- The index the next record gets. It is in range whenever fewer than 511 records exist (R142; TRIE checks, R185). -/
def Arena.nextIdx (a : Arena) : NodeIdx := Fin.ofNat 511 a.next

/-- Create the record at the next free index. -/
def Arena.push (a : Arena) (r : NodeRec) (l : LinkPair) : Arena :=
  { node := a.node.setIfInBounds a.next r
    link := a.link.setIfInBounds a.next l
    next := a.next + 1
    leaves := if r.leaf then a.leaves + 1 else a.leaves }

/-- LINK[i][b] <- (present, c). -/
def Arena.attach (a : Arena) (i : NodeIdx) (b : Bool) (c : NodeIdx) : Arena :=
  { a with link := a.link.set i.val ((a.link[i.val]'i.isLt).withChild b c) i.isLt }

/-- The finished storage as a tree with the given root: NLEAF, NNODES, ROOT (R130, R180). -/
def Arena.toTree (a : Arena) (root : NodeIdx) : Tree :=
  { node := a.node
    link := a.link
    nleaf := BitVec.ofNat 9 a.leaves
    nnodes := BitVec.ofNat 9 a.next
    root := root }

/-- NODE[i]. -/
def Tree.nodeAt (t : Tree) (i : NodeIdx) : NodeRec := t.node[i.val]'i.isLt

/-- LINK[i][b]. -/
def Tree.childAt (t : Tree) (i : NodeIdx) (b : Bool) : Option NodeIdx := (t.link[i.val]'i.isLt).child b

/-! ### Registers of 32 bits that take a count -/

/-- A count stored into a 32-bit register. R10 of 00_scope.md and R58 of 10_state.md give why it fits; where it does not (the one
case is in log entry 7) the register holds a free value. -/
def word32 (n : Nat) : Word := if n < 2 ^ 32 then BitVec.ofNat 32 n else Config.unstated32 n

/-! ### Issue and completion (R31, R32) -/

/-- Issue: CMD <- w; DONE <- 0; STATE <- BUSY; nothing else, and so a fault record stays until completion (R31 cases a and c,
R24). Whether the word is accepted is the host port's question (Machine/HostPort.lean). -/
def State.issue (w : Word) (s : State) : State := { s.flagsIssue with cmd := w }

/-- Completion without fault (R32). -/
def State.finish (s : State) : State := s.flagsDone

/-! ### Taking a fault, and the return from it -/

/-- The code of a fault, ERR bits 7:0 (R201 of 60_exceptions.md). -/
def FaultCode.number : FaultCode → BitVec 8
  | .illegal => 0x01#8
  | .range => 0x02#8
  | .state => 0x03#8
  | .noCode => 0x10#8
  | .overflow => 0x11#8
  | .corruptPath => 0x20#8
  | .corruptShort => 0x21#8
  | .codebook => 0x30#8
  | .nodeOvf => 0x31#8

/-- `raise Fault(code, i0, i1)`: ERR <- code; ERRINFO0 <- i0; ERRINFO1 <- i1; DONE <- 0; STATE <- FAULT; CMD keeps the word. No
vector, no saved context (R215 of 60_exceptions.md). The effect on the destination (R218) is on the state this is applied to. -/
def State.takeFault (r : Raised) (s : State) : State :=
  { s.flagsFault with err := { code := r.code.number, info0 := r.info0, info1 := r.info1 } }

/-- The return from a fault, and what CLRF does: ERR, ERRINFO0, ERRINFO1 <- 0, STATE <- IDLE, DONE <- 1, nothing restored (R112 of
40_control.md; R220 of 60_exceptions.md). -/
def State.clearFault (s : State) : State := { s.flagsDone with err := FaultRecord.none }

/-! ### What the commands write -/

/-- FREQ <- f (R120). -/
def State.withFreq (f : Table Word) (s : State) : State := { s with freq := f }

/-- NODE, LINK, NLEAF, NNODES, ROOT <- the tree; TREE_OK <- 1 (R130, R180). -/
def State.withTree (t : Tree) (s : State) : State := { s.flagTreeOk true with tree := t }

/-- NODE and LINK all zero, NLEAF = NNODES = ROOT = 0, TREE_OK <- 0 (R218, TRIE). -/
def State.dropTree (s : State) : State := { s.flagTreeOk false with tree := Tree.empty }

/-- CODELEN, CODEW <- the table (R150). -/
def State.withCode (c : CodeTable) (s : State) : State := { s with code := c }

/-- PKD, PLEN, PBITS <- the result of PACK (R160). -/
def State.withPacked (m : Memory) (plen pbits : Word) (s : State) : State :=
  { s with pkd := m, plen := plen, pbits := pbits }

/-- PLEN <- 0, PBITS <- 0, every byte of PKD unspecified (R218, PACK). -/
def State.dropPacked (s : State) : State :=
  { s with pkd := Memory.redrawAll s.draws, plen := 0#32, pbits := 0#32, draws := s.draws + 1 }

/-- RAW, UBITS <- the result of UNPACK (R170). -/
def State.withUnpacked (m : Memory) (ubits : Word) (s : State) : State := { s with raw := m, ubits := ubits }

/-- UBITS <- 0, RAW[0 .. RLEN−1] unspecified, RAW from RLEN on unchanged (R218, UNPACK). -/
def State.dropUnpacked (s : State) : State :=
  { s with raw := s.raw.redrawBelow s.rlen.toNat s.draws, ubits := 0#32, draws := s.draws + 1 }

/-! ### Reset -/

/-- The registers and tables at their reset values, STATE IDLE, DONE 1; CMD, RAW and PKD stay (R111 of 40_control.md, R244). The
parameters are constants; draws, schedule and response are the model's own. -/
def State.softReset (s : State) : State :=
  { (State.resetWith s.params s.draws).flagsDone with
    cmd := s.cmd
    raw := s.raw
    pkd := s.pkd
    draws := s.draws
    schedule := s.schedule
    response := s.response }

/-- Hardware reset: every piece of state takes its value of R57, RAW and PKD are drawn anew, the parameters stay (R240, R243, R246 of
70_reset_and_hazards.md). The events still to come stay to come. -/
def State.hardReset (s : State) : State :=
  { State.resetWith s.params s.draws with schedule := s.schedule, response := s.response }

end Sys2Proof.Machine
end

