-- ==== Sys2Proof/Machine/Operands.lean ====
section
/-! DEFINITION. The operands of the commands, all of them architectural state (spec/30_encoding.md R96 to R99): the raw bytes,
the code of a symbol and its word image, the payload bits of PKD, the links of the tree, and the range checks. -/

namespace Sys2Proof.Machine

/-- CODELEN[s] (R46 of 10_state.md). -/
def CodeTable.lenOf (c : CodeTable) (s : Sym) : Nat := (entryAt c.len s).toNat

/-- CODEW[s][w] (R47 of 10_state.md); there is no word 8 and above. -/
def CodeTable.wordOf (c : CodeTable) (s : Sym) (w : Nat) : Word := ((entryAt c.words s)[w]?).getD 0#32

/-- `codebit(s, j)`: bit 31 − (j mod 32) of word j div 32 (R11 of 00_scope.md, R47 of 10_state.md). -/
def CodeTable.codebit (c : CodeTable) (s : Sym) (j : Nat) : Bool := (c.wordOf s (j / 32)).getLsbD (31 - j % 32)

/-- `code(s)`: the first CODELEN[s] code bits; bits beyond are ignored (R48 of 10_state.md, R99 of 30_encoding.md). -/
def CodeTable.codeOf (c : CodeTable) (s : Sym) : Bits := (List.range (c.lenOf s)).map (c.codebit s)

/-- Word `w` of the canonical word image of a code: bit 31 − m is c[32w + m], zero beyond the code (R99 of 30_encoding.md). -/
def imageWord (c : Bits) (w : Nat) : Word :=
  (List.range 32).foldl (fun acc m => acc.shiftConcat (c.getD (32 * w + m) false)) 0#32

/-- The canonical word image of a code (R99 of 30_encoding.md). -/
def wordImage (c : Bits) : Vector Word 8 :=
  #v[imageWord c 0, imageWord c 1, imageWord c 2, imageWord c 3, imageWord c 4, imageWord c 5, imageWord c 6, imageWord c 7]

/-- The code ROM writer's store of one entry: CODELEN[s] <- |c| and the canonical word image (R152 of 43_derive.md). -/
def CodeTable.store (t : CodeTable) (s : Sym) (c : Bits) : CodeTable :=
  { len := putEntry t.len s (BitVec.ofNat 8 c.length), words := putEntry t.words s (wordImage c) }

/-- Payload bit `p`: bit 7 − (p mod 8) of PKD[p div 8] (R83 of 20_memory.md). -/
def Memory.payloadBit (m : Memory) (p : Nat) : Bool := (m.read (p / 8)).getLsbD (7 - p % 8)

/-- RAW[0 .. RLEN−1], the input of COUNT and PACK (R50 of 10_state.md, R122, R167). -/
def State.rawInput (s : State) : List Byte := s.raw.firstBytes s.rlen.toNat

/-- The fault of the RLEN range check: RLEN > RAW_SIZE (R203 of 60_exceptions.md). -/
def State.rlenFault (s : State) : Option Raised :=
  if s.params.rawSize < s.rlen then some { code := .range, info0 := s.rlen, info1 := 0#32 } else none

/-- The fault of the PLEN range check: PLEN > PKD_SIZE (R203 of 60_exceptions.md). -/
def State.plenFault (s : State) : Option Raised :=
  if s.params.pkdSize < s.plen then some { code := .range, info0 := s.plen, info1 := 1#32 } else none

/-- The fault of the prerequisite check of the command with opcode `opc`: TREE_OK = 0 (R204, R202 of 60_exceptions.md). -/
def State.treeFault (opc : Word) (s : State) : Option Raised :=
  if s.treeOk then none else some { code := .state, info0 := opc, info1 := 0#32 }

/-- Follow a bit sequence down the present links; none where a link is absent (R155(d), R176). -/
def Tree.follow (t : Tree) : NodeIdx → Bits → Option NodeIdx
  | i, [] => some i
  | i, b :: rest =>
    match t.childAt i b with
    | none => none
    | some c => t.follow c rest

end Sys2Proof.Machine
end

