-- ==== Sys2Proof/Machine/Build.lean ====
section
/-! DEFINITION. BUILD, the Huffman tree builder: leaves, the min-heap-merge arbiter, the merges (spec/42_build.md). -/

namespace Sys2Proof.Machine

/-- The leaf of symbol `s` with count `f`: (leaf = 1, sym = s, freq = zext_40(FREQ[s])) (R133). -/
def leafRec (s : Sym) (f : Word) : NodeRec := { leaf := true, sym := s, freq := f.setWidth 40 }

/-- One leaf for the entry (s, FREQ[s]) if FREQ[s] > 0, nothing otherwise (R133). -/
def addLeaf (a : Arena) (e : Sym × Word) : Arena :=
  if e.2 = 0#32 then a else a.push (leafRec e.1 e.2) LinkPair.none

/-- One leaf per symbol with a non-zero count, ascending (R130, R132). -/
def addLeaves (f : Table Word) : Arena := (entriesOf f).foldl addLeaf Arena.clear

/-- NODE[i].freq of the arena. -/
def Arena.freqAt (a : Arena) (i : NodeIdx) : BitVec 40 := (a.node[i.val]'i.isLt).freq

/-- Node `i` has a lower key than node `j`: (freq, index), lexicographically (R134). -/
def Arena.before (a : Arena) (i j : NodeIdx) : Bool :=
  decide (a.freqAt i < a.freqAt j) || (decide (a.freqAt i = a.freqAt j) && decide (i < j))

/-- The member with the least key (R134, R135). -/
def Arena.leastKey (a : Arena) : List NodeIdx → Option NodeIdx
  | [] => none
  | i :: rest =>
    match a.leastKey rest with
    | none => some i
    | some j => if a.before i j then some i else some j

/-- The heap's extract-min: the member with the least key, and the others (R140). -/
def Arena.extractMin (a : Arena) (pend : List NodeIdx) : Option (NodeIdx × List NodeIdx) :=
  match a.leastKey pend with
  | none => none
  | some i => some (i, pend.erase i)

/-- The record of a merge: internal, its frequency the sum of the two (R136). -/
def Arena.mergeRec (a : Arena) (i j : NodeIdx) : NodeRec :=
  { leaf := false, sym := 0#8, freq := a.freqAt i + a.freqAt j }

/-- One merge: the first extracted is the left child, the second the right (R136). -/
def Arena.merge (a : Arena) (i j : NodeIdx) : Arena :=
  a.push (a.mergeRec i j) { left := some i, right := some j }

/-- The rounds of the arbiter: while two nodes are pending, extract twice, merge, insert the new node (R135 to R137). The first
argument bounds the rounds; the size of the pending set is enough, each round taking one member off (R137). -/
def mergeRounds : Nat → Arena → List NodeIdx → Arena × List NodeIdx
  | 0, a, pend => (a, pend)
  | k + 1, a, pend =>
    match a.extractMin pend with
    | none => (a, pend)
    | some (i, pend1) =>
      match a.extractMin pend1 with
      | none => (a, pend)
      | some (j, pend2) => mergeRounds k (a.merge i j) (a.nextIdx :: pend2)

/-- The pending set after the leaves: indices 0 .. n − 1 (R132, R140). -/
def leafIndices (n : Nat) : List NodeIdx := (List.range n).map (Fin.ofNat 511)

/-- The synthetic root above the only leaf: record 1, left child record 0, no right child (R139). -/
def syntheticRoot (a : Arena) : Tree :=
  (a.push { leaf := false, sym := 0#8, freq := a.freqAt 0 } { left := some 0, right := none }).toTree 1

/-- The root of the rounds' result: the one pending member (R137). -/
def rootOf (pend : List NodeIdx) : NodeIdx := pend.headD 0

/-- The tree of a frequency table (R130): empty (R138), one leaf under a synthetic root (R139), or the merges (R137). -/
def buildTree (f : Table Word) : Tree :=
  let a := addLeaves f
  if a.next = 0 then a.toTree 0
  else if a.next = 1 then syntheticRoot a
  else
    let r := mergeRounds a.next a (leafIndices a.next)
    r.1.toTree (rootOf r.2)

/-- BUILD; it cannot fault (R130). -/
def execBuild (s : State) : Host.Outcome State Fault Refusal := .next (s.withTree (buildTree s.freq)).finish

end Sys2Proof.Machine
end

