-- ==== Sys2Proof/Machine/Control.lean ====
section
/-! DEFINITION. The control commands NOP, SRST, CLRF (spec/40_control.md). -/

namespace Sys2Proof.Machine

/-- NOP: nothing but completion (R110). -/
def execNop (s : State) : Host.Outcome State Fault Refusal := .next s.finish

/-- SRST: soft reset (R111). -/
def execSrst (s : State) : Host.Outcome State Fault Refusal := .next s.softReset

/-- CLRF: clear the fault record, the return from a fault (R112; R220 of 60_exceptions.md). -/
def execClrf (s : State) : Host.Outcome State Fault Refusal := .next s.clearFault

end Sys2Proof.Machine
end

