-- ==== Sys2Proof/Machine/Count.lean ====
section
/-! DEFINITION. COUNT, the frequency counter (spec/41_count.md). -/

namespace Sys2Proof.Machine

/-- FREQ[s] <- FREQ[s] + 1 (R120; R58 item a of 10_state.md: it cannot wrap). -/
def bumpFreq (f : Table Word) (s : Sym) : Table Word := putEntry f s (entryAt f s + 1#32)

/-- The table cleared, then one increment per byte in index order (R120). -/
def countBytes (bs : List Byte) : Table Word := bs.foldl bumpFreq zeroFreq

/-- COUNT (R120). -/
def execCount (s : State) : Host.Outcome State Fault Refusal :=
  match s.rlenFault with
  | some r => .next (s.takeFault r)
  | none => .next (s.withFreq (countBytes s.rawInput)).finish

end Sys2Proof.Machine
end

