-- ==== Sys2Proof/Machine/Derive.lean ====
section
/-! DEFINITION. DERIVE, the code table deriver: tree path walker and code ROM writer (spec/43_derive.md). -/

namespace Sys2Proof.Machine

/-- Run `f` on a child if the link is present (R150: "if LINK[i][b].present"). -/
def onChild (link : Option NodeIdx) (f : NodeIdx → CodeTable → Option CodeTable) (t : CodeTable) : Option CodeTable :=
  match link with
  | none => some t
  | some c => f c t

/-- The walk, in pre-order, left before right (R150, R153). `depth` is how many levels a path may still grow: none when a present
link leads below level 255 (log entry 10). -/
def walk (t : Tree) : (depth : Nat) → NodeIdx → Bits → CodeTable → Option CodeTable
  | 0, i, path, c =>
    if (t.nodeAt i).leaf then some (c.store (t.nodeAt i).sym path)
    else if t.childAt i false = none ∧ t.childAt i true = none then some c
    else none
  | depth + 1, i, path, c =>
    if (t.nodeAt i).leaf then some (c.store (t.nodeAt i).sym path)
    else
      match onChild (t.childAt i false) (fun l c' => walk t depth l (path ++ [false]) c') c with
      | none => none
      | some c1 => onChild (t.childAt i true) (fun r c' => walk t depth r (path ++ [true]) c') c1

/-- The code table of a tree: cleared, then one entry per leaf (R151, R150); the empty tree gives the empty table (R156 item a). -/
def deriveTable (t : Tree) : Option CodeTable :=
  if t.nnodes = 0#9 then some CodeTable.empty else walk t 255 t.root [] CodeTable.empty

/-- DERIVE (R150). -/
def execDerive (s : State) : Host.Outcome State Fault Refusal :=
  match s.treeFault 0x12#32 with
  | some r => .next (s.takeFault r)
  | none =>
    match deriveTable s.tree with
    | some c => .next (s.withCode c).finish
    | none => .fault .walkTooDeep

end Sys2Proof.Machine
end

