-- ==== Sys2Proof/Machine/Pack.lean ====
section
/-! DEFINITION. PACK, the bit-packer: code multiplexer and bit-serial output shifter (spec/44_pack.md). -/

namespace Sys2Proof.Machine

/-- The output shifter while PACK runs: accumulator, bits in it, next output index, bits produced, and PKD as written so far
(R162; R54 of 10_state.md). -/
structure Shifter where
  acc : Byte
  cnt : Nat
  k : Nat
  total : Nat
  pkd : Memory
  deriving DecidableEq, Repr

/-- The shifter at issue: empty (R56 of 10_state.md). -/
def Shifter.start (m : Memory) : Shifter := { acc := 0#8, cnt := 0, k := 0, total := 0, pkd := m }

/-- E_OVERFLOW: a byte has to be written at PKD index PKD_SIZE (R206, R202 of 60_exceptions.md). -/
def overflowAt (i total : Nat) : Raised := { code := .overflow, info0 := word32 i, info1 := word32 total }

/-- E_NOCODE: the byte `s` at input index `i` has no entry (R165). -/
def noCodeAt (s : Sym) (i : Nat) : Raised := { code := .noCode, info0 := s.setWidth 32, info1 := word32 i }

/-- `shift_out(b, i)`: shift the bit in; at the eighth, write the byte (R160, R162). -/
def shiftOut (size i : Nat) (b : Bool) (h : Shifter) : Except Raised Shifter :=
  let acc := h.acc.shiftConcat b
  if h.cnt + 1 = 8 then
    if size ≤ h.k then .error (overflowAt i (h.total + 1))
    else .ok { acc := 0#8, cnt := 0, k := h.k + 1, total := h.total + 1, pkd := h.pkd.write h.k acc }
  else .ok { acc := acc, cnt := h.cnt + 1, k := h.k, total := h.total + 1, pkd := h.pkd }

/-- The bits of one code, first bit first (R161). -/
def shiftBits (size i : Nat) : Bits → Shifter → Except Raised Shifter
  | [], h => .ok h
  | b :: rest, h =>
    match shiftOut size i b h with
    | .error r => .error r
    | .ok h' => shiftBits size i rest h'

/-- The input bytes from index `i` on: look the code up, E_NOCODE if there is none, else shift its bits out (R160, R165). -/
def packBytes (c : CodeTable) (size : Nat) : (i : Nat) → List Byte → Shifter → Except Raised Shifter
  | _, [], h => .ok h
  | i, s :: rest, h =>
    if c.lenOf s = 0 then .error (noCodeAt s i)
    else
      match shiftBits size i (c.codeOf s) h with
      | .error r => .error r
      | .ok h' => packBytes c size (i + 1) rest h'

/-- The flush: 1 to 7 leftover bits become a last byte, zeros in its low bits (R163). -/
def flush (size rlen : Nat) (h : Shifter) : Except Raised Shifter :=
  if h.cnt = 0 then .ok h
  else if size ≤ h.k then .error (overflowAt rlen h.total)
  else .ok { h with k := h.k + 1, pkd := h.pkd.write h.k (h.acc <<< (8 - h.cnt)) }

/-- The whole payload: all bytes, then the flush (R160). -/
def packAll (c : CodeTable) (size : Nat) (input : List Byte) (m : Memory) : Except Raised Shifter :=
  match packBytes c size 0 input (Shifter.start m) with
  | .error r => .error r
  | .ok h => flush size input.length h

/-- PACK (R160); a data fault leaves PLEN = PBITS = 0 and PKD unspecified (R218 of 60_exceptions.md). -/
def execPack (s : State) : Host.Outcome State Fault Refusal :=
  match s.rlenFault with
  | some r => .next (s.takeFault r)
  | none =>
    match packAll s.code s.params.pkdSize.toNat s.rawInput s.pkd with
    | .error r => .next (s.dropPacked.takeFault r)
    | .ok h => .next (s.withPacked h.pkd (word32 h.k) (word32 h.total)).finish

end Sys2Proof.Machine
end

