-- ==== Sys2Proof/Machine/Trie.lean ====
section
/-! DEFINITION. TRIE, the decode-trie builder (spec/46_trie_codec.md). -/

namespace Sys2Proof.Machine

/-- E_CODEBOOK: inserting `s`, a conflict at bit `j` (R184). -/
def codebookAt (s : Sym) (j : Nat) : Raised := { code := .codebook, info0 := s.setWidth 32, info1 := word32 j }

/-- E_NODE_OVF: inserting `s`, a 512th record needed at bit `j` (R185). -/
def nodeOvfAt (s : Sym) (j : Nat) : Raised := { code := .nodeOvf, info0 := s.setWidth 32, info1 := word32 j }

/-- The leaf TRIE makes: frequency 0 (R182, R183). -/
def trieLeaf (s : Sym) : NodeRec := { leaf := true, sym := s, freq := 0#40 }

/-- LINK[i][b] of the arena. -/
def Arena.childAt (a : Arena) (i : NodeIdx) (b : Bool) : Option NodeIdx := (a.link[i.val]'i.isLt).child b

/-- NODE[i].leaf of the arena. -/
def Arena.leafAt (a : Arena) (i : NodeIdx) : Bool := (a.node[i.val]'i.isLt).leaf

/-- A new record `r` under LINK[cur][b], at the next free index. -/
def Arena.grow (a : Arena) (cur : NodeIdx) (b : Bool) (r : NodeRec) : Arena :=
  (a.push r LinkPair.none).attach cur b a.nextIdx

/-- The bits of one code from index `j` on, the cursor at `cur` (R180, R182): each bit but the last follows its link or makes an
internal record; the last makes the leaf. Conflicts and overflow in the order of R180 (R184, R185). -/
def insertBits (s : Sym) : (j : Nat) → Bits → NodeIdx → Arena → Except Raised Arena
  | _, [], _, a => .ok a
  | j, b :: rest, cur, a =>
    if a.leafAt cur then .error (codebookAt s j)
    else if rest.isEmpty then
      match a.childAt cur b with
      | some _ => .error (codebookAt s j)
      | none => if a.next = 511 then .error (nodeOvfAt s j) else .ok (a.grow cur b (trieLeaf s))
    else
      match a.childAt cur b with
      | some c => insertBits s (j + 1) rest c a
      | none =>
        if a.next = 511 then .error (nodeOvfAt s j)
        else insertBits s (j + 1) rest a.nextIdx (a.grow cur b NodeRec.zero)

/-- The root, record 0, exists as soon as one entry does (R180, R181). -/
def Arena.withTrieRoot (a : Arena) : Arena := if a.next = 0 then a.push NodeRec.zero LinkPair.none else a

/-- One symbol with its length: nothing if it has no entry, else its code inserted from the root (R180). -/
def insertSym (c : CodeTable) (a : Arena) (e : Sym × Byte) : Except Raised Arena :=
  if e.2 = 0#8 then .ok a else insertBits e.1 0 (c.codeOf e.1) 0 a.withTrieRoot

/-- The entries in the order given, stopping at the first fault. -/
def insertSyms (c : CodeTable) : List (Sym × Byte) → Arena → Except Raised Arena
  | [], a => .ok a
  | e :: rest, a =>
    match insertSym c a e with
    | .error r => .error r
    | .ok a' => insertSyms c rest a'

/-- The trie of a code table, symbols ascending, the root at record 0 (R180, R181). -/
def trieOf (c : CodeTable) : Except Raised Tree :=
  match insertSyms c (entriesOf c.len) Arena.clear with
  | .error r => .error r
  | .ok a => .ok (a.toTree 0)

/-- TRIE (R180); a data fault leaves no tree and TREE_OK = 0 (R218 of 60_exceptions.md). -/
def execTrie (s : State) : Host.Outcome State Fault Refusal :=
  match trieOf s.code with
  | .error r => .next (s.dropTree.takeFault r)
  | .ok t => .next (s.withTree t).finish

end Sys2Proof.Machine
end

