-- ==== Sys2Proof/Machine/Unpack.lean ====
section
/-! DEFINITION. UNPACK, the bit-unpacker: tree-guided decoder and bit-serial input shifter (spec/45_unpack.md). -/

namespace Sys2Proof.Machine

/-- The decoder while UNPACK runs: payload bits consumed, symbols emitted, the cursor, and RAW as written so far (R172; R55 of
10_state.md). -/
structure Decoder where
  bitpos : Nat
  n : Nat
  cur : NodeIdx
  raw : Memory
  deriving DecidableEq, Repr

/-- E_CORRUPT_SHORT: a bit is demanded at `bitpos` and the payload has no more (R175). -/
def corruptShortAt (bitpos n : Nat) : Raised := { code := .corruptShort, info0 := word32 bitpos, info1 := word32 n }

/-- E_CORRUPT_PATH: the bit at `bitpos` selects an absent link (R176). -/
def corruptPathAt (bitpos n : Nat) : Raised := { code := .corruptPath, info0 := word32 bitpos, info1 := word32 n }

/-- One bit: descend; at a leaf emit its symbol and go back to the root (R170). -/
def decodeBit (t : Tree) (b : Bool) (d : Decoder) : Except Raised Decoder :=
  match t.childAt d.cur b with
  | none => .error (corruptPathAt d.bitpos d.n)
  | some c =>
    if (t.nodeAt c).leaf then
      .ok { bitpos := d.bitpos + 1, n := d.n + 1, cur := t.root, raw := d.raw.write d.n (t.nodeAt c).sym }
    else .ok { d with bitpos := d.bitpos + 1, cur := c }

/-- The decoding loop: until `count` symbols are out, fetch the next payload bit; `left` payload bits are still there, so at 0 a
demanded bit is the fault E_CORRUPT_SHORT (R170, R171, R175). -/
def decodeBits (t : Tree) (payload : Memory) (count : Nat) : (left : Nat) → Decoder → Except Raised Decoder
  | 0, d => if d.n < count then .error (corruptShortAt d.bitpos d.n) else .ok d
  | left + 1, d =>
    if d.n < count then
      match decodeBit t (payload.payloadBit d.bitpos) d with
      | .error r => .error r
      | .ok d' => decodeBits t payload count left d'
    else .ok d

/-- The whole decoding: the empty tree cannot give a symbol (R176 case b); else start at the root and bit 0 (R56, R170). -/
def unpackAll (t : Tree) (payload : Memory) (plen count : Nat) (raw : Memory) : Except Raised Decoder :=
  if 0 < count ∧ t.nnodes = 0#9 then .error (corruptPathAt 0 0)
  else decodeBits t payload count (8 * plen) { bitpos := 0, n := 0, cur := t.root, raw := raw }

/-- The pre-checks of UNPACK in their order: RLEN, PLEN, TREE_OK (R212 of 60_exceptions.md, R170). -/
def State.unpackPrecheck (s : State) : Option Raised :=
  match s.rlenFault with
  | some r => some r
  | none =>
    match s.plenFault with
    | some r => some r
    | none => s.treeFault 0x14#32

/-- UNPACK (R170); a data fault leaves UBITS = 0 and RAW[0 .. RLEN−1] unspecified (R218 of 60_exceptions.md). -/
def execUnpack (s : State) : Host.Outcome State Fault Refusal :=
  match s.unpackPrecheck with
  | some r => .next (s.takeFault r)
  | none =>
    match unpackAll s.tree s.pkd s.plen.toNat s.rlen.toNat s.raw with
    | .error r => .next (s.dropUnpacked.takeFault r)
    | .ok d => .next (s.withUnpacked d.raw (word32 d.bitpos)).finish

end Sys2Proof.Machine
end

