-- ==== Sys2Proof/Syntax.lean ====
section
/-! DEFINITION. The commands of HCE: one constructor per row of spec/opcode_table.json (R91 of 30_encoding.md). No command
carries an operand field: every operand is architectural state (R96 of 30_encoding.md). -/

namespace Sys2Proof

/-- The nine commands (R91 of 30_encoding.md). -/
inductive Instr where
  /-- NOP, opcode 0x00 (R110 of 40_control.md). -/
  | nop
  /-- SRST, opcode 0x01 (R111 of 40_control.md). -/
  | srst
  /-- CLRF, opcode 0x02 (R112 of 40_control.md). -/
  | clrf
  /-- COUNT, opcode 0x10 (R120 of 41_count.md). -/
  | count
  /-- BUILD, opcode 0x11 (R130 of 42_build.md). -/
  | build
  /-- DERIVE, opcode 0x12 (R150 of 43_derive.md). -/
  | derive
  /-- PACK, opcode 0x13 (R160 of 44_pack.md). -/
  | pack
  /-- UNPACK, opcode 0x14 (R170 of 45_unpack.md). -/
  | unpack
  /-- TRIE, opcode 0x15 (R180 of 46_trie_codec.md). -/
  | trie
  deriving DecidableEq, Repr

end Sys2Proof
end

