-- ==== Sys2Proof/WellFormed.lean ====
section
/-! DEFINITION. Well-formedness of what is handed to the machine from outside: a command, the parameters of an instance, a
code to be loaded into the code table. -/

namespace Sys2Proof

/-- A command has no operand field that could be out of range (R90, R96 of 30_encoding.md): every command is well formed. -/
def Instr.wellFormed : Instr → Bool
  | .nop => true
  | .srst => true
  | .clrf => true
  | .count => true
  | .build => true
  | .derive => true
  | .pack => true
  | .unpack => true
  | .trie => true

/-- The admissible parameters: 1 ≤ RAW_SIZE ≤ 2^32 − 1 and 1 ≤ PKD_SIZE ≤ 2^29 − 1 (R6 of 00_scope.md). -/
def Params.wellFormed (p : Params) : Bool :=
  decide (1 ≤ p.rawSize.toNat) && decide (1 ≤ p.pkdSize.toNat) && decide (p.pkdSize.toNat < 2 ^ 29)

/-- A code that can be loaded as a table entry: 1 ≤ |c| ≤ 255 (R76 of 20_memory.md). -/
def codeWellFormed (c : Bits) : Bool :=
  decide (1 ≤ c.length) && decide (c.length ≤ 255)

end Sys2Proof
end

