-- ==== Sys2Proof/Decode.lean ====
section
/-! DEFINITION. The decoder and the encoder of the command word (spec/30_encoding.md R90 to R94). -/

namespace Sys2Proof

/-- Why a word is illegal (R93 of 30_encoding.md). -/
inductive DecodeError where
  /-- The RSV field, bits 31:8, is not zero. -/
  | reservedNotZero (rsv : BitVec 24)
  /-- RSV is zero and the opcode is none of the nine. -/
  | unknownOpcode (opc : BitVec 8)
  deriving DecidableEq, Repr

/-- OPC, bits 7:0 of the command word (R90 of 30_encoding.md). -/
def opcField (w : Word) : BitVec 8 := w.extractLsb' 0 8

/-- RSV, bits 31:8 of the command word (R90 of 30_encoding.md). -/
def rsvField (w : Word) : BitVec 24 := w.extractLsb' 8 24

/-- The opcode map read from opcode to command (R91 of 30_encoding.md). -/
def commandOfOpcode (opc : BitVec 8) : Option Instr :=
  if opc = 0x00#8 then some .nop
  else if opc = 0x01#8 then some .srst
  else if opc = 0x02#8 then some .clrf
  else if opc = 0x10#8 then some .count
  else if opc = 0x11#8 then some .build
  else if opc = 0x12#8 then some .derive
  else if opc = 0x13#8 then some .pack
  else if opc = 0x14#8 then some .unpack
  else if opc = 0x15#8 then some .trie
  else none

/-- Decoding is total and depends on the word alone: one of the nine commands, or an illegal word with the reason
(R92, R93 of 30_encoding.md). -/
def decode (w : Word) : Except DecodeError Instr :=
  if rsvField w = 0#24 then
    match commandOfOpcode (opcField w) with
    | some i => .ok i
    | none => .error (.unknownOpcode (opcField w))
  else .error (.reservedNotZero (rsvField w))

/-- The opcode map read from command to opcode (R91 of 30_encoding.md). -/
def opcodeOf : Instr → BitVec 8
  | .nop => 0x00#8
  | .srst => 0x01#8
  | .clrf => 0x02#8
  | .count => 0x10#8
  | .build => 0x11#8
  | .derive => 0x12#8
  | .pack => 0x13#8
  | .unpack => 0x14#8
  | .trie => 0x15#8

/-- The command word: RSV = 0 above the opcode (R90 of 30_encoding.md). -/
def encode (i : Instr) : Word := 0#24 ++ opcodeOf i

/-- The instruction read from a table word of `nbits` bits; a command is one 32-bit word (R90 of 30_encoding.md), so a word
that needs more bits is none. -/
def decodeTableWord (nbits w : Nat) : Option Instr :=
  if w % 2 ^ nbits < 2 ^ 32 then
    match decode (BitVec.ofNat 32 (w % 2 ^ nbits)) with
    | .ok i => some i
    | .error _ => none
  else none

end Sys2Proof
end

