-- ==== Sys2Proof/Machine/HostPort.lean ====
section
/-! DEFINITION. The host port: the eight address spaces, their views, which transactions are admitted in which engine state, and
what an admitted one does (spec/20_memory.md R60 to R77). -/

namespace Sys2Proof.Machine

/-- The number of a space (R60). -/
def Space.number : Space → BitVec 3
  | .reg => 0#3
  | .freq => 1#3
  | .node => 2#3
  | .link => 3#3
  | .codelen => 4#3
  | .codebits => 5#3
  | .raw => 6#3
  | .pkd => 7#3

/-- The space with a number: all eight numbers are in use (R60). -/
def Space.ofNumber (n : BitVec 3) : Space :=
  if n = 0#3 then .reg
  else if n = 1#3 then .freq
  else if n = 2#3 then .node
  else if n = 3#3 then .link
  else if n = 4#3 then .codelen
  else if n = 5#3 then .codebits
  else if n = 6#3 then .raw
  else .pkd

/-- How many elements a space has (R60). -/
def State.elements (s : State) : Space → Nat
  | .reg => 15
  | .freq => 256
  | .node => 2044
  | .link => 1022
  | .codelen => 256
  | .codebits => 2048
  | .raw => s.params.rawSize.toNat
  | .pkd => s.params.pkdSize.toNat

/-- The register with index `n` as the host reads it, reserved bits zero (R21 of 10_state.md, R66, R73). -/
def State.regRead (s : State) : Nat → Word
  | 0 => Config.idValue
  | 1 => s.cmd
  | 2 => s.statusWord
  | 3 => s.err.code.setWidth 32
  | 4 => s.err.info0
  | 5 => s.err.info1
  | 6 => s.rlen
  | 7 => s.plen
  | 8 => s.pbits
  | 9 => s.ubits
  | 10 => s.tree.nleaf.setWidth 32
  | 11 => s.tree.nnodes.setWidth 32
  | 12 => BitVec.ofNat 32 s.tree.root.val
  | 13 => s.params.rawSize
  | 14 => s.params.pkdSize
  | _ => 0#32

/-- Word `k` of the NODE view of a record (R74). -/
def NodeRec.view (r : NodeRec) : (k : Nat) → Word
  | 0 => 0#23 ++ BitVec.ofBool r.leaf ++ r.sym
  | 1 => r.freq.extractLsb' 0 32
  | 2 => 0#24 ++ r.freq.extractLsb' 32 8
  | _ => 0#32

/-- The LINK view of a link: bit 9 present, bits 8:0 the child; an absent link is all zero (R75; R44 of 10_state.md). -/
def linkView : Option NodeIdx → BitVec 10
  | none => 0#10
  | some c => 1#1 ++ BitVec.ofNat 9 c.val

/-- The element of a space at an index in range, zero-extended to the port's 32 bits (R65, R72 to R77). -/
def State.element (s : State) (sp : Space) (i : Nat) : Word :=
  match sp with
  | .reg => s.regRead i
  | .freq => entryAt s.freq (BitVec.ofNat 8 i)
  | .node => (s.tree.nodeAt (Fin.ofNat 511 (i / 4))).view (i % 4)
  | .link => (linkView (s.tree.childAt (Fin.ofNat 511 (i / 2)) (i % 2 == 1))).setWidth 32
  | .codelen => (entryAt s.code.len (BitVec.ofNat 8 i)).setWidth 32
  | .codebits => s.code.wordOf (BitVec.ofNat 8 (i / 8)) (i % 8)
  | .raw => (s.raw.read i).setWidth 32
  | .pkd => (s.pkd.read i).setWidth 32

/-- The index is one of the space's (R67). -/
def State.inRange (s : State) (sp : Space) (ix : Word) : Bool := decide (ix.toNat < s.elements sp)

/-- A read is admitted in range, and while BUSY in space REG alone (R67 to R70). -/
def State.readAdmitted (s : State) (sp : Space) (ix : Word) : Bool :=
  s.inRange sp ix && (decide (sp = .reg) || !s.busyFlag)

/-- HRead (R61): the element, or data 0 and err 1. -/
def State.hostRead (s : State) (sp : Space) (ix : Word) : Response :=
  if s.readAdmitted sp ix then .read (s.element sp ix.toNat) false else .read 0#32 true

/-- The elements the host may write: CMD, RLEN, PLEN, FREQ, CODELEN, CODEBITS, RAW, PKD (R64). -/
def hostWritable : Space → Nat → Bool
  | .reg, n => n == 1 || n == 6 || n == 7
  | .freq, _ => true
  | .node, _ => false
  | .link, _ => false
  | .codelen, _ => true
  | .codebits, _ => true
  | .raw, _ => true
  | .pkd, _ => true

/-- In FAULT the one admitted write is SRST or CLRF to CMD (R70; R31 case c of 10_state.md). -/
def faultWrite (sp : Space) (ix data : Word) : Bool :=
  decide (sp = .reg) && decide (ix = 1#32) && (decide (data = encode .srst) || decide (data = encode .clrf))

/-- A write is admitted in range, to a writable element, in IDLE, or as the way out of FAULT (R64, R67 to R70). -/
def State.writeAdmitted (s : State) (sp : Space) (ix data : Word) : Bool :=
  s.inRange sp ix && hostWritable sp ix.toNat &&
    match s.engine with
    | .idle => true
    | .busy => false
    | .fault => faultWrite sp ix data

/-- CODEW[s][w] <- d. -/
def CodeTable.putWord (c : CodeTable) (s : Sym) (w : Nat) (d : Word) : CodeTable :=
  { c with words := putEntry c.words s ((entryAt c.words s).setIfInBounds w d) }

/-- What an admitted write does: the element takes the low bits of the data; to CMD it issues (R62, R65; R31 of 10_state.md). -/
def State.storeElement (s : State) (sp : Space) (i : Nat) (d : Word) : State :=
  match sp with
  | .reg => if i = 1 then s.issue d else if i = 6 then { s with rlen := d } else if i = 7 then { s with plen := d } else s
  | .freq => { s with freq := putEntry s.freq (BitVec.ofNat 8 i) d }
  | .node => s
  | .link => s
  | .codelen => { s with code := { s.code with len := putEntry s.code.len (BitVec.ofNat 8 i) (d.setWidth 8) } }
  | .codebits => { s with code := s.code.putWord (BitVec.ofNat 8 (i / 8)) (i % 8) d }
  | .raw => { s with raw := s.raw.write i (d.setWidth 8) }
  | .pkd => { s with pkd := s.pkd.write i (d.setWidth 8) }

/-- HWrite's effect on the state: the store if admitted, nothing if refused (R62, R63). -/
def State.hostWrite (s : State) (sp : Space) (ix data : Word) : State :=
  if s.writeAdmitted sp ix data then s.storeElement sp ix.toNat data else s

end Sys2Proof.Machine
end

