-- ==== Sys2Proof/Machine/Sequencer.lean ====
section
/-! DEFINITION. The sequencer: which event comes next, what a host event does, and the engine's turn with the decoding of CMD
(spec/00_scope.md R12; spec/10_state.md R31, R32; spec/20_memory.md R78). -/

namespace Sys2Proof.Machine

/-- The next event and the state with it taken off the schedule; with none scheduled it is the engine's turn, so a BUSY engine
completes (R258 of 70_reset_and_hazards.md, fairness; log entry 3). -/
def State.takeEvent (s : State) : Event × State :=
  match s.schedule with
  | [] => (.engine, { s with response := none })
  | e :: rest => (e, { s with schedule := rest, response := none })

/-- The fault of an illegal command word (R93 of 30_encoding.md, R205 of 60_exceptions.md). -/
def illegalWord (w : Word) : Raised := { code := .illegal, info0 := w, info1 := 0#32 }

/-- The engine's turn: if BUSY, decode CMD and complete the command, or take E_ILLEGAL (R32, R92); otherwise nothing is enabled.
`run` is the meaning of a command. -/
def engineTurn (run : Instr → State → Host.Outcome State Fault Refusal) (s : State) : Host.Outcome State Fault Refusal :=
  match s.engine with
  | .busy =>
    match decode s.cmd with
    | .ok i => run i s
    | .error _ => .next (s.takeFault (illegalWord s.cmd))
  | .idle => .next s
  | .fault => .next s

/-- One step of the machine: the next event of the one total order (R12, R78). -/
def stepWith (run : Instr → State → Host.Outcome State Fault Refusal) (s : State) : Host.Outcome State Fault Refusal :=
  match s.takeEvent with
  | (.read sp ix, t) => .next { t with response := some (t.hostRead sp ix) }
  | (.write sp ix d, t) => .next { t.hostWrite sp ix d with response := some (.write (!t.writeAdmitted sp ix d)) }
  | (.engine, t) => engineTurn run t
  | (.reset, t) => .next t.hardReset

/-- The state in which the command word `w` is issued and the engine's turn is next: what the step fetches is CMD (R31, R32). -/
def State.placeCommand (w : Word) (s : State) : State := { s.issue w with schedule := .engine :: s.schedule }

end Sys2Proof.Machine
end

