-- ==== Sys2Proof/Machine/Step.lean ====
section
/-! DEFINITION. One step of the machine, and the state in which a given command word is the next the step runs. -/

namespace Sys2Proof.Machine

/-- One step: the next event of the schedule, commands meaning what `exec` says (R12 of 00_scope.md). -/
def step (s : State) : Host.Outcome State Fault Refusal := stepWith exec s

/-- The word of `nbits` bits placed in CMD with the engine BUSY on it and due next: the way a command comes to run here, since the
block fetches no program (R31, R35 of 10_state.md; log entry 5). -/
def State.withFetchWord (s : State) (nbits w : Nat) : State := s.placeCommand (BitVec.ofNat 32 (w % 2 ^ nbits))

end Sys2Proof.Machine
end

