-- ==== Sys2Proof/Machine/Script.lean ====
section
/-! DEFINITION. The host script notation: directives, the pseudo-commands and what they expand to, and the run of a script on the
machine (spec/30_encoding.md R100 to R104; spec/70_reset_and_hazards.md R261). It drives the machine from outside and is no part
of the block. -/

namespace Sys2Proof.Machine

/-- The directives a script is made of (R100). -/
inductive Directive where
  /-- `WR space[index], value` -/
  | wr (space : Space) (index value : Word)
  /-- `RD space[index]` -/
  | rd (space : Space) (index : Word)
  /-- `WAIT` -/
  | wait
  /-- `EXPECT space[index] & mask == value`; the plain EXPECT has the mask of all ones. -/
  | expect (space : Space) (index mask value : Word)
  /-- `EXPECTERR WR space[index], value` -/
  | expectErrWr (space : Space) (index value : Word)
  /-- `EXPECTERR RD space[index]` -/
  | expectErrRd (space : Space) (index : Word)
  deriving DecidableEq, Repr

/-- The index of a register in space REG (R21 of 10_state.md): the ones scripts write or wait on. -/
def cmdIx : Word := 1#32

/-- The index of STATUS (R21). -/
def statusIx : Word := 2#32

/-- The index of ERR (R21). -/
def errIx : Word := 3#32

/-- The index of RLEN (R21). -/
def rlenIx : Word := 6#32

/-- The index of PLEN (R21). -/
def plenIx : Word := 7#32

/-- `CMDW value` (R100). -/
def cmdw (w : Word) : Directive := .wr .reg cmdIx w

/-- `CMD mnemonic` (R100). -/
def cmd (i : Instr) : Directive := cmdw (encode i)

/-- `EXPECT space[index] == value` (R100). -/
def expectEq (sp : Space) (ix v : Word) : Directive := .expect sp ix (BitVec.allOnes 32) v

/-- `RUN mnemonic`: CMD, then WAIT (R101). -/
def run (i : Instr) : List Directive := [cmd i, .wait]

/-- `RUNOK mnemonic`: RUN, then DONE = 1, FAULT = 0, BUSY = 0 (R101). -/
def runOk (i : Instr) : List Directive := run i ++ [.expect .reg statusIx 0x7#32 0x2#32]

/-- `COMPRESS`: COUNT, BUILD, DERIVE, PACK (R102). -/
def compress : List Directive := runOk .count ++ runOk .build ++ runOk .derive ++ runOk .pack

/-- `DECOMPRESS`: TRIE, UNPACK (R103). -/
def decompress : List Directive := runOk .trie ++ runOk .unpack

/-- The bytes of a list written to a buffer from index `i` on (R104). -/
def loadBytes (sp : Space) : (i : Nat) → List Byte → List Directive
  | _, [] => []
  | i, b :: rest => .wr sp (BitVec.ofNat 32 i) (b.setWidth 32) :: loadBytes sp (i + 1) rest

/-- `LOADRAW b0 b1 …` (R104). -/
def loadRaw (bs : List Byte) : List Directive := loadBytes .raw 0 bs ++ [.wr .reg rlenIx (BitVec.ofNat 32 bs.length)]

/-- `LOADPKD b0 b1 …` (R104). -/
def loadPkd (bs : List Byte) : List Directive := loadBytes .pkd 0 bs ++ [.wr .reg plenIx (BitVec.ofNat 32 bs.length)]

/-- `LOADCODE s, "bits"`: the nine writes of R76 of 20_memory.md with the canonical word image (R104). -/
def loadCode (s : Sym) (c : Bits) : List Directive :=
  .wr .codelen (s.setWidth 32) (BitVec.ofNat 32 c.length) ::
    (List.range 8).map (fun w => .wr .codebits (BitVec.ofNat 32 (8 * s.toNat + w)) (imageWord c w))

/-- `CLRCODE` (R104). -/
def clrCode : List Directive := symbols.map (fun s => .wr .codelen (s.setWidth 32) 0#32)

/-- `LOADFREQ s, v` (R104). -/
def loadFreq (s : Sym) (v : Word) : List Directive := [.wr .freq (s.setWidth 32) v]

/-- The directive is an explicit fault expectation: it expects ERR to be a fault code, or the FAULT bit of STATUS to be 1 (R261 of
70_reset_and_hazards.md; which directives count as one is the model's choice, DESIGN CHOICE, log entry 16). -/
def Directive.expectsFault : Directive → Bool
  | .wr _ _ _ => false
  | .rd _ _ => false
  | .wait => false
  | .expect sp ix _ v => decide (sp = .reg) && ((decide (ix = errIx) && v != 0#32) || (decide (ix = statusIx) && v.getLsbD 2))
  | .expectErrWr _ _ _ => false
  | .expectErrRd _ _ => false

/-- A run in progress (R261). When the engine takes its turn among the host's transactions is not specified (R12, U4 of
93_implementation_defined.md), so it is DATA of the run: `turns` says, before each transaction to come, whether the engine takes its
turn; with `turns` used up it takes it before every one (fairness, R258). Every order of completions among
the transactions is that of some `turns` (DESIGN CHOICE, log entry 15). No hardware reset falls inside a run: R261 does not say what
becomes of a run if one does (R12, R240; DESIGN CHOICE, log entry 17). -/
structure ScriptRun where
  state : State
  turns : List Bool
  /-- What the host read so far, WAIT and EXPECT included, the latest first. -/
  reads : List Word
  /-- One entry per fault recorded so far, the latest first: whether a directive has expected it. Empty: ERR was never non-zero. -/
  faults : List Bool
  deriving DecidableEq, Repr

/-- A run about to begin in `s`; a fault on record then is one no directive has expected. -/
def ScriptRun.start (s : State) (turns : List Bool) : ScriptRun :=
  { state := s, turns := turns, reads := [], faults := if s.faultOnRecord then [false] else [] }

/-- The word an admitted read gave. -/
def wordsRead : Option Response → List Word
  | some (.read d false) => [d]
  | some (.read _ true) => []
  | some (.write _) => []
  | none => []

/-- The run in the state `t` a step led to: what was read is noted, and a fault if ERR became non-zero (R261). -/
def ScriptRun.arrive (r : ScriptRun) (t : State) : ScriptRun :=
  { r with
    state := t
    reads := wordsRead t.response ++ r.reads
    faults := if !r.state.faultOnRecord && t.faultOnRecord then false :: r.faults else r.faults }

/-- Let the machine take one event; nothing if it stops. -/
def ScriptRun.perform (e : Event) (r : ScriptRun) : Option ScriptRun :=
  match step { r.state with schedule := [e] } with
  | .next t => some (r.arrive t)
  | .fault _ => none
  | .refused _ => none

/-- The engine takes its turn, or not, as `turns` says (log entry 15); there is no reset among the turns (DESIGN CHOICE, log entry 17). -/
def ScriptRun.engineMay (r : ScriptRun) : Option ScriptRun :=
  match r.turns with
  | [] => r.perform .engine
  | true :: rest => ({ r with turns := rest } : ScriptRun).perform .engine
  | false :: rest => some { r with turns := rest }

/-- One transaction of the host. -/
def ScriptRun.transact (e : Event) (r : ScriptRun) : Option ScriptRun := r.engineMay.bind (ScriptRun.perform e)

/-- WAIT: read STATUS until bit 0 reads 0 (R100); the first argument is the `turns` of the run. -/
def waitIdle : List Bool → ScriptRun → Option ScriptRun
  | [], r => r.transact (.read .reg statusIx)
  | _ :: rest, r =>
    match r.transact (.read .reg statusIx) with
    | none => none
    | some r' => if (r'.reads.headD 0#32).getLsbD 0 then waitIdle rest r' else some r'

/-- A directive expected the fault on record. -/
def ScriptRun.noteExpected (d : Directive) (r : ScriptRun) : ScriptRun :=
  if d.expectsFault && r.state.faultOnRecord then { r with faults := true :: r.faults.tail } else r

/-- How a script ends (R100, R261). -/
inductive ScriptEnd where
  /-- All directives executed and STATE not BUSY. -/
  | ended (r : ScriptRun)
  /-- A transaction was refused unexpectedly. -/
  | refused (r : ScriptRun)
  /-- An EXPECT or EXPECTERR failed. -/
  | mismatch (r : ScriptRun)
  /-- The machine stopped. -/
  | stopped
  deriving DecidableEq, Repr

/-- The end of the run: after the last directive the completion step still owed is taken (R261). -/
def finishRun (r : ScriptRun) : ScriptEnd :=
  if r.state.busyFlag then
    match r.perform .engine with
    | none => .stopped
    | some r' => .ended r'
  else .ended r

/-- What becomes of one directive: the run after it, or the end it brings (R100). -/
def Directive.execute (d : Directive) (r : ScriptRun) : Except ScriptEnd ScriptRun :=
  match d with
  | .wr sp ix v =>
    match r.transact (.write sp ix v) with
    | none => .error .stopped
    | some r' => if r'.state.response = some (.write false) then .ok r' else .error (.refused r')
  | .rd sp ix =>
    match r.transact (.read sp ix) with
    | none => .error .stopped
    | some r' =>
      match r'.state.response with
      | some (.read _ false) => .ok r'
      | _ => .error (.refused r')
  | .wait =>
    match waitIdle r.turns r with
    | none => .error .stopped
    | some r' => .ok r'
  | .expect sp ix mask v =>
    match r.transact (.read sp ix) with
    | none => .error .stopped
    | some r' =>
      match r'.state.response with
      | some (.read d' false) =>
        if d' &&& mask = v then .ok (r'.noteExpected (.expect sp ix mask v)) else .error (.mismatch r')
      | _ => .error (.refused r')
  | .expectErrWr sp ix v =>
    match r.transact (.write sp ix v) with
    | none => .error .stopped
    | some r' => if r'.state.response = some (.write true) then .ok r' else .error (.mismatch r')
  | .expectErrRd sp ix =>
    match r.transact (.read sp ix) with
    | none => .error .stopped
    | some r' => if r'.state.response = some (.read 0#32 true) then .ok r' else .error (.mismatch r')

/-- Run a script (R100, R261). When completions fall among the transactions, inside WAIT or not, the spec leaves open: `r.turns` says it
(DESIGN CHOICE, log entry 15). -/
def runScript : List Directive → ScriptRun → ScriptEnd
  | [], r => finishRun r
  | d :: rest, r =>
    match d.execute r with
    | .ok r' => runScript rest r'
    | .error e => e

/-- The run ended well: no refusal and no failed EXPECT, and every fault along it was expected; with no fault expectation in the
script, ERR was never non-zero (R261). -/
def ScriptEnd.endedWell : ScriptEnd → Bool
  | .ended r => r.faults.all id
  | .refused _ => false
  | .mismatch _ => false
  | .stopped => false

/-- The symbol a decimal numeral of a text codebook stands for: 0 to 255 itself, −128 to −1 plus 256 (R192 of 46_trie_codec.md). -/
def symbolOfNumeral (n : Int) : Option Sym :=
  if 0 ≤ n ∧ n ≤ 255 then some (BitVec.ofInt 8 n)
  else if -128 ≤ n ∧ n ≤ -1 then some (BitVec.ofInt 8 (n + 256))
  else none

/-- The lines of the text codebook the host writes from the block: the numeral and the code of every symbol with an entry (R192). R192
states no order of the lines; here they ascend by symbol (DESIGN CHOICE, log entry 18). -/
def codebookLines (c : CodeTable) : List (Nat × Bits) :=
  (symbols.filter (fun s => c.lenOf s != 0)).map (fun s => (s.toNat, c.codeOf s))

end Sys2Proof.Machine
end

