-- ==== Sys2Proof/Safety.lean ====
section
/-! DEFINITION. The terms claims use: the invariants the spec gives (tree, protocol flags, fault record, buffers), the bit stream of a
payload, prefix-free tables, trees and tables that agree, runs of the machine. -/

namespace Sys2Proof.Machine

/-! ### Tree invariants (R45 of 10_state.md) -/

/-- Record `i` belongs to the tree: its index is below NNODES (R36). -/
def Tree.Used (t : Tree) (i : NodeIdx) : Prop := i.val < t.nnodes.toNat

/-- `i` is a leaf record of the tree. -/
def Tree.IsLeaf (t : Tree) (i : NodeIdx) : Prop := t.Used i ∧ (t.nodeAt i).leaf = true

/-- The leaves among the records below NNODES. -/
def Tree.leafCount (t : Tree) : Nat :=
  ((List.finRange 511).filter (fun i => decide (i.val < t.nnodes.toNat) && (t.nodeAt i).leaf)).length

/-- R45 of 10_state.md, items (a) to (f) and (h). -/
structure TreeInv (t : Tree) : Prop where
  /-- (a) NLEAF is the number of leaves. -/
  nleaf_count : t.nleaf.toNat = t.leafCount
  /-- (a) NLEAF ≤ 256. -/
  nleaf_le : t.nleaf.toNat ≤ 256
  /-- (b) With no records NLEAF = 0 and ROOT = 0. -/
  none_used : t.nnodes = 0#9 → t.nleaf = 0#9 ∧ t.root = 0
  /-- (b) With records the root is one of them, no leaf, and there is a leaf. -/
  root_used : t.nnodes ≠ 0#9 → t.Used t.root ∧ (t.nodeAt t.root).leaf = false ∧ 1 ≤ t.nleaf.toNat
  /-- (c) A present link of a record leads to a record other than the root. -/
  child_used : ∀ i b c, t.Used i → t.childAt i b = some c → t.Used c ∧ c ≠ t.root
  /-- (c) A record is the child of one present link at most. -/
  parent_unique : ∀ i b j b' c, t.Used i → t.Used j → t.childAt i b = some c → t.childAt j b' = some c → i = j ∧ b = b'
  /-- (c) The records form one tree rooted at ROOT: every one of them is reached. -/
  reached : ∀ i, t.Used i → ∃ p, t.follow t.root p = some i
  /-- (d) A leaf has no links. -/
  leaf_links : ∀ i b, t.IsLeaf i → t.childAt i b = none
  /-- (d) An internal record has at least one link. -/
  internal_links : ∀ i, t.Used i → (t.nodeAt i).leaf = false → ∃ b c, t.childAt i b = some c
  /-- (e) Distinct leaves have distinct symbols. -/
  sym_unique : ∀ i j, t.IsLeaf i → t.IsLeaf j → (t.nodeAt i).sym = (t.nodeAt j).sym → i = j
  /-- (f) No record is deeper than 255 links. -/
  depth : t.nnodes ≠ 0#9 → ∀ p i, t.follow t.root p = some i → p.length ≤ 255
  /-- (h) The records from NNODES on are all zero. -/
  unused_zero : ∀ i, ¬ t.Used i → t.nodeAt i = NodeRec.zero ∧ ∀ b, t.childAt i b = none

/-- R45 item (g), what BUILD adds: an internal record's frequency is the sum of its present children's. -/
def Tree.FreqSums (t : Tree) : Prop :=
  ∀ i, t.Used i → (t.nodeAt i).leaf = false →
    (t.nodeAt i).freq.toNat =
      ((t.childAt i false).map fun c => (t.nodeAt c).freq.toNat).getD 0 +
      ((t.childAt i true).map fun c => (t.nodeAt c).freq.toNat).getD 0

/-- The key of record `i` is below that of record `j`: (freq, index), lexicographically (R134 of 42_build.md). -/
def Tree.KeyBelow (t : Tree) (i j : NodeIdx) : Prop :=
  (t.nodeAt i).freq.toNat < (t.nodeAt j).freq.toNat ∨ ((t.nodeAt i).freq.toNat = (t.nodeAt j).freq.toNat ∧ i < j)

/-- Record `i` is pending when record `r` is made: it is there, and no record made before `r` is its parent (R135, R140 of
42_build.md). -/
def Tree.PendingAt (t : Tree) (r i : NodeIdx) : Prop := i < r ∧ ∀ x b, x < r → t.childAt x b ≠ some i

/-! ### Protocol, fault record, buffers, parameters -/

/-- The nine fault codes (R201 of 60_exceptions.md). -/
def IsFaultNumber (n : BitVec 8) : Prop := ∃ c : FaultCode, n = c.number

/-- CMD holds SRST or CLRF, the words accepted in FAULT (R31). -/
def State.clearing (s : State) : Prop := s.cmd = encode .srst ∨ s.cmd = encode .clrf

/-- The flags and the fault record (R24 to R26 of 10_state.md): DONE only in IDLE; ERR is one of the nine codes in FAULT; outside
FAULT it is zero, but while SRST or CLRF is in progress; ERRINFO0 and ERRINFO1 are zero whenever ERR is. -/
structure State.ProtocolInv (s : State) : Prop where
  done_idle : s.done = true → s.engine = .idle
  fault_code : s.engine = .fault → IsFaultNumber s.err.code
  code_zero_or_fault : s.err.code = 0#8 ∨ IsFaultNumber s.err.code
  no_fault_code : s.err.code ≠ 0#8 → s.engine = .fault ∨ (s.engine = .busy ∧ s.clearing)
  info_zero : s.err.code = 0#8 → s.err.info0 = 0#32 ∧ s.err.info1 = 0#32

/-- The buffers are in canonical form and hold written bytes only where they have bytes (R50, R51). -/
structure State.BufferInv (s : State) : Prop where
  raw_wf : s.raw.wf = true
  pkd_wf : s.pkd.wf = true
  raw_within : s.raw.within s.params.rawSize.toNat = true
  pkd_within : s.pkd.within s.params.pkdSize.toNat = true

/-- TREE_OK = 0 only with no tree (R57, R111 and R218: the writers of 0 clear the storage). -/
def State.TreeOkInv (s : State) : Prop := s.treeOk = false → s.tree = Tree.empty

/-- The invariant of the machine. -/
structure State.Inv (s : State) : Prop where
  params : s.params.wellFormed = true
  protocol : s.ProtocolInv
  buffers : s.BufferInv
  treeOk : s.TreeOkInv
  tree : TreeInv s.tree

/-! ### Codes, streams and trees -/

/-- The bit stream of a list of bytes: the concatenation of their codes (R161 of 44_pack.md). -/
def stream (c : CodeTable) (bs : List Byte) : Bits := bs.flatMap c.codeOf

/-- No entry's code is a prefix of another's (R9 of 00_scope.md, R155(b)). -/
def CodeTable.PrefixFree (c : CodeTable) : Prop :=
  ∀ a b, a ≠ b → c.lenOf a ≠ 0 → c.lenOf b ≠ 0 → ¬ c.codeOf a <+: c.codeOf b

/-- The records a trie needs for the entries of the symbols `ss`, if one of them has an entry: one per distinct prefix of a code, the
root's the empty one (R182, R185). -/
def CodeTable.trieSizeOf (c : CodeTable) (ss : List Sym) : Nat := ((ss.flatMap fun s => (c.codeOf s).inits).dedup).length

/-- The records the trie of a whole table needs, if the table has an entry (R182, R185). -/
def CodeTable.trieSize (c : CodeTable) : Nat := c.trieSizeOf symbols

/-- `x` is the lowest symbol whose code starts with `p`: the one whose insertion makes the record of `p` (R181, R182). -/
structure CodeTable.MadeFor (c : CodeTable) (p : Bits) (x : Sym) : Prop where
  entry : c.lenOf x ≠ 0
  starts : p <+: c.codeOf x
  lowest : ∀ z, c.lenOf z ≠ 0 → p <+: c.codeOf z → x ≤ z

/-- The symbols with an entry, ascending (R46). -/
def CodeTable.entries (c : CodeTable) : List Sym := symbols.filter fun s => c.lenOf s != 0

/-- A code table and a tree agree: every entry's code leads from the root to the leaf of its symbol, and every leaf's path is its
symbol's code (R155(a), (d); R182). -/
structure Agree (t : Tree) (c : CodeTable) : Prop where
  entry_leaf : ∀ s, c.lenOf s ≠ 0 →
    t.nnodes ≠ 0#9 ∧ ∃ i, t.follow t.root (c.codeOf s) = some i ∧ t.IsLeaf i ∧ (t.nodeAt i).sym = s
  leaf_entry : t.nnodes ≠ 0#9 → ∀ p i, t.follow t.root p = some i → t.IsLeaf i → c.codeOf (t.nodeAt i).sym = p

/-- The payload in a buffer starts with the bits `bs`: bit p is bit 7 − (p mod 8) of byte p div 8 (R83 of 20_memory.md). -/
def Memory.StartsWith (m : Memory) (bs : Bits) : Prop :=
  ∀ p (h : p < bs.length), (m.read (p / 8)).getLsbD (7 - p % 8) = bs[p]

/-- The sum of FREQ[0 .. 255]. -/
def freqSum (f : Table Word) : Nat := (symbols.map fun s => (entryAt f s).toNat).sum

/-- The symbols with a non-zero count, ascending. -/
def presentSymbols (f : Table Word) : List Sym := symbols.filter fun s => entryAt f s != 0#32

/-- Every bit of an entry's words beyond its length is zero: the canonical word image (R99, R152). -/
def CodeTable.Canonical (c : CodeTable) (s : Sym) : Prop := ∀ j, c.lenOf s ≤ j → j < 256 → c.codebit s j = false

/-! ### Runs -/

/-- The states a run from `s` passes through. -/
inductive Reaches : State → State → Prop
  | refl (s : State) : Reaches s s
  | tail {s t u : State} : Reaches s t → step t = .next u → Reaches s u

/-- No fault is on record (R221; a script's run keeps account of it, `ScriptRun.faults` of Machine/Script.lean). -/
def State.clean (s : State) : Prop := s.faultOnRecord = false

end Sys2Proof.Machine
end

