-- ==== Sys2Proof/Certificates/Slice0/Obligations.lean ====
section
/-! DEFINITION. The statements for the provers. Each says in full the next state: what is not named in a record update is unchanged. -/

open Sys2Proof Sys2Proof.Machine

/-! ### Encoding -/

/-- The words of R91 of 30_encoding.md, written out, decode to their commands; words with a set RSV bit or another opcode do not. -/
def Obligations.TableWordsDecode : Prop :=
  decode 0x00000000#32 = .ok .nop ∧ decode 0x00000001#32 = .ok .srst ∧ decode 0x00000002#32 = .ok .clrf ∧
  decode 0x00000010#32 = .ok .count ∧ decode 0x00000011#32 = .ok .build ∧ decode 0x00000012#32 = .ok .derive ∧
  decode 0x00000013#32 = .ok .pack ∧ decode 0x00000014#32 = .ok .unpack ∧ decode 0x00000015#32 = .ok .trie ∧
  decode 0x00000003#32 = .error (.unknownOpcode 0x03#8) ∧ decode 0x00000110#32 = .error (.reservedNotZero 1#24)

/-- R92 of 30_encoding.md: a word is the command `i` exactly when bits 31:8 are zero and bits 7:0 are the opcode of `i`, and then it is
the encoder's word of `i`; every other word is illegal. -/
def Obligations.DecodeReadsEveryWord : Prop :=
  ∀ w : Word,
    (∀ i, decode w = .ok i ↔ (∀ b, 8 ≤ b → w.getLsbD b = false) ∧ w.setWidth 8 = opcodeOf i) ∧
    (∀ i, decode w = .ok i ↔ w = encode i) ∧
    ((∀ i, w ≠ encode i) → ∃ e, decode w = .error e)

/-! ### The step -/

/-- The engine's turn in BUSY completes the command CMD decodes to, on the state as it is; an illegal word takes E_ILLEGAL with the
word in ERRINFO0 (R32 of 10_state.md, R205 of 60_exceptions.md). The step adds only the model's own event and response. -/
def Obligations.StepCompletesTheLatchedCommand : Prop :=
  ∀ s : State, s.engine = .busy → (s.schedule = [] ∨ s.schedule.head? = some .engine) →
    (∀ i, decode s.cmd = .ok i → step s = exec i { s with schedule := s.schedule.tail, response := none }) ∧
    (∀ e, decode s.cmd = .error e →
      step s = .next { s with schedule := s.schedule.tail, response := none, engine := .fault, done := false,
                              err := { code := 0x01#8, info0 := s.cmd, info1 := 0#32 } })

/-- The engine has a step only in BUSY (R12 of 00_scope.md, R32 of 10_state.md): in IDLE and FAULT its turn changes nothing. The
schedule is the model's own (log entry 3). -/
def Obligations.EngineRestsUnlessBusy : Prop :=
  ∀ s : State, s.engine ≠ .busy → (s.schedule = [] ∨ s.schedule.head? = some .engine) →
    step s = .next { s with schedule := s.schedule.tail, response := none }

/-- A command word placed by `withFetchWord` is the one the very next step completes (log entry 5). -/
def Obligations.PlacedWordRunsNext : Prop :=
  ∀ (s : State) (i : Instr),
    step (s.withFetchWord 32 (encode i).toNat) =
      exec i { s with cmd := encode i, engine := .busy, done := false, response := none }

/-- R30 of 10_state.md: the only transitions of STATE are IDLE or FAULT to BUSY by an accepted write to CMD, BUSY to IDLE or FAULT by
completion, anything to IDLE by hardware reset. -/
def Obligations.EngineStateTransitions : Prop :=
  ∀ s t : State, step s = .next t →
    t.engine = s.engine ∨
    ((∃ w, s.schedule.head? = some (.write .reg 1#32 w)) ∧ s.engine ≠ .busy ∧ t.engine = .busy) ∨
    ((s.schedule = [] ∨ s.schedule.head? = some .engine) ∧ s.engine = .busy ∧ t.engine ≠ .busy) ∨
    (s.schedule.head? = some .reset ∧ t.engine = .idle)

/-- R32 of 10_state.md: the engine's turn in BUSY ends the command, in IDLE with DONE = 1 or in FAULT with DONE = 0; no BUSY state is
stuck. The premise on the tree is R45's, kept by every step. -/
def Obligations.CompletionEndsBusy : Prop :=
  ∀ s : State, TreeInv s.tree → s.engine = .busy → (s.schedule = [] ∨ s.schedule.head? = some .engine) →
    ∃ t, step s = .next t ∧ ((t.engine = .idle ∧ t.done = true) ∨ (t.engine = .fault ∧ t.done = false)) ∧ t.cmd = s.cmd

/-- R227 and R229 of 60_exceptions.md: every command on every state has an outcome; the machine neither stops nor refuses. DERIVE
needs a tree R45 allows (log entry 10). -/
def Obligations.EveryCommandHasANextState : Prop :=
  ∀ (i : Instr) (s : State), (i = .derive → TreeInv s.tree) → ∃ t, exec i s = .next t

/-! ### Host port -/

/-- HRead (R61, R67 to R70 of 20_memory.md): the element if the index is in range and the space is REG or the engine is not BUSY; else
data 0 and err 1. A read never changes any state but the model's event and response. -/
def Obligations.HostReadAnswersAndChangesNothing : Prop :=
  ∀ (s : State) (sp : Space) (ix : Word) (rest : List Event), s.schedule = .read sp ix :: rest →
    ((ix.toNat < s.elements sp ∧ (sp = .reg ∨ s.engine ≠ .busy)) →
      step s = .next { s with schedule := rest, response := some (.read (s.element sp ix.toNat) false) }) ∧
    (¬ (ix.toNat < s.elements sp ∧ (sp = .reg ∨ s.engine ≠ .busy)) →
      step s = .next { s with schedule := rest, response := some (.read 0#32 true) })

/-- A write is refused, with err 1 and no effect, if its index is out of range, its element read-only, the engine BUSY, or the
engine in FAULT and the write not SRST or CLRF to CMD; otherwise it is admitted, with err 0 (R62 to R64, R67 to R71). -/
def Obligations.HostWriteAdmission : Prop :=
  ∀ (s : State) (sp : Space) (ix d : Word) (rest : List Event), s.schedule = .write sp ix d :: rest →
    let allowed : Prop :=
      ix.toNat < s.elements sp ∧ sp ≠ .node ∧ sp ≠ .link ∧ (sp = .reg → ix = 1#32 ∨ ix = 6#32 ∨ ix = 7#32) ∧
      s.engine ≠ .busy ∧ (s.engine = .fault → sp = .reg ∧ ix = 1#32 ∧ (d = 1#32 ∨ d = 2#32))
    (allowed → ∃ t, step s = .next t ∧ t.response = some (.write false)) ∧
    (¬ allowed → step s = .next { s with schedule := rest, response := some (.write true) })

/-- An admitted write to a data element stores the low bits of the data there (R65 of 20_memory.md); every other element of every
space reads as before, and STATE is still IDLE. -/
def Obligations.WriteReadsBackAndNothingElseChanges : Prop :=
  ∀ (s t : State) (sp : Space) (ix d : Word) (rest : List Event), s.schedule = .write sp ix d :: rest →
    s.engine = .idle → ix.toNat < s.elements sp → sp ≠ .node → sp ≠ .link → (sp = .reg → ix = 6#32 ∨ ix = 7#32) →
    step s = .next t →
      t.element sp ix.toNat = (if sp = .codelen ∨ sp = .raw ∨ sp = .pkd then d &&& 0xFF#32 else d) ∧
      (∀ sp' (ix' : Word), ix'.toNat < s.elements sp' → (sp' ≠ sp ∨ ix' ≠ ix) → t.element sp' ix'.toNat = s.element sp' ix'.toNat) ∧
      t.engine = .idle ∧ t.params = s.params

/-- R31 of 10_state.md: a write to CMD is accepted in IDLE whatever the word, refused in BUSY, and accepted in FAULT for SRST and CLRF
alone; when accepted CMD takes the word, STATE is BUSY, DONE 0, and nothing else changes. -/
def Obligations.IssueByWritingCmd : Prop :=
  ∀ (s : State) (w : Word) (rest : List Event), s.schedule = .write .reg 1#32 w :: rest →
    (s.engine = .idle ∨ (s.engine = .fault ∧ (w = 0x00000001#32 ∨ w = 0x00000002#32)) →
      step s = .next { s with schedule := rest, response := some (.write false), cmd := w, engine := .busy, done := false }) ∧
    (s.engine = .busy ∨ (s.engine = .fault ∧ w ≠ 0x00000001#32 ∧ w ≠ 0x00000002#32) →
      step s = .next { s with schedule := rest, response := some (.write true) })

/-- R33 of 10_state.md: between issue and completion no host transaction changes architectural state. -/
def Obligations.NothingChangesWhileBusy : Prop :=
  ∀ (s : State) (e : Event) (rest : List Event), s.engine = .busy → s.schedule = e :: rest → e ≠ .engine → e ≠ .reset →
    ∃ r, step s = .next { s with schedule := rest, response := some r }

/-- R24 of 10_state.md: STATUS reads BUSY, DONE, FAULT, TREE_OK in bits 0 to 3 and zero above. -/
def Obligations.StatusBits : Prop :=
  ∀ s : State,
    ((s.regRead 2).getLsbD 0 = true ↔ s.engine = .busy) ∧ ((s.regRead 2).getLsbD 1 = s.done) ∧
    ((s.regRead 2).getLsbD 2 = true ↔ s.engine = .fault) ∧ ((s.regRead 2).getLsbD 3 = s.treeOk) ∧
    ∀ b, 4 ≤ b → (s.regRead 2).getLsbD b = false

/-- The register map of R21 of 10_state.md as the host reads it (R22 to R29, R36, R37; R73 of 20_memory.md): fifteen registers, each
its own field, reserved bits zero. STATUS is `StatusBits`. -/
def Obligations.RegistersReadTheirFields : Prop :=
  ∀ s : State,
    s.elements .reg = 15 ∧
    s.element .reg 0 = 0x48554631#32 ∧
    s.element .reg 1 = s.cmd ∧
    (s.element .reg 2).toNat =
      (if s.engine = .busy then 1 else 0) + (if s.done then 2 else 0) + (if s.engine = .fault then 4 else 0) + (if s.treeOk then 8 else 0) ∧
    (s.element .reg 3).toNat = s.err.code.toNat ∧
    s.element .reg 4 = s.err.info0 ∧
    s.element .reg 5 = s.err.info1 ∧
    s.element .reg 6 = s.rlen ∧
    s.element .reg 7 = s.plen ∧
    s.element .reg 8 = s.pbits ∧
    s.element .reg 9 = s.ubits ∧
    (s.element .reg 10).toNat = s.tree.nleaf.toNat ∧
    (s.element .reg 11).toNat = s.tree.nnodes.toNat ∧
    (s.element .reg 12).toNat = s.tree.root.val ∧
    s.element .reg 13 = s.params.rawSize ∧
    s.element .reg 14 = s.params.pkdSize

/-- The views of FREQ, CODELEN, CODEBITS, RAW and PKD (R72, R76, R77 of 20_memory.md) and their sizes (R60): one element per entry, code
word `w` of symbol `x` at 8x + w, one byte per element. -/
def Obligations.TableAndBufferViews : Prop :=
  ∀ s : State,
    (s.elements .freq = 256 ∧ s.elements .codelen = 256 ∧ s.elements .codebits = 2048 ∧
      s.elements .raw = s.params.rawSize.toNat ∧ s.elements .pkd = s.params.pkdSize.toNat) ∧
    (∀ x : Sym, s.element .freq x.toNat = entryAt s.freq x ∧ (s.element .codelen x.toNat).toNat = s.code.lenOf x ∧
      ∀ w, w < 8 → s.element .codebits (8 * x.toNat + w) = s.code.wordOf x w) ∧
    ∀ a, (s.element .raw a).toNat = (s.raw.read a).toNat ∧ (s.element .pkd a).toNat = (s.pkd.read a).toNat

/-- The NODE and LINK views (R74, R75 of 20_memory.md): four words per record with the reserved bits zero, and two links per record,
bit 9 present, bits 8:0 the child. -/
def Obligations.NodeAndLinkViews : Prop :=
  ∀ (s : State) (i : NodeIdx) (b : Bool),
    let r := s.tree.nodeAt i
    s.elements .node = 2044 ∧ s.elements .link = 1022 ∧
    (s.element .node (4 * i.val)).toNat = (if r.leaf then 256 else 0) + r.sym.toNat ∧
    (s.element .node (4 * i.val + 1)).toNat + 2 ^ 32 * (s.element .node (4 * i.val + 2)).toNat = r.freq.toNat ∧
    s.element .node (4 * i.val + 3) = 0#32 ∧
    (s.element .link (2 * i.val + b.toNat)).toNat =
      (match s.tree.childAt i b with
       | none => 0
       | some c => 512 + c.val)

/-! ### Reset and invariants -/

/-- R240 of 70_reset_and_hazards.md with the values of R57 of 10_state.md: hardware reset in any state, also while BUSY. RAW and PKD
are unspecified: `m` and `n`, of which only their form is stated. -/
def Obligations.HardwareResetEffect : Prop :=
  ∀ (s : State) (rest : List Event), s.schedule = .reset :: rest →
    ∃ m n d, step s = .next
      { engine := .idle, cmd := 0#32, done := false, treeOk := false, err := { code := 0#8, info0 := 0#32, info1 := 0#32 },
        rlen := 0#32, plen := 0#32, pbits := 0#32, ubits := 0#32, params := s.params, freq := Vector.replicate 256 0#32,
        tree := { node := Vector.replicate 511 { leaf := false, sym := 0#8, freq := 0#40 },
                  link := Vector.replicate 511 { left := none, right := none }, nleaf := 0#9, nnodes := 0#9, root := 0 },
        code := { len := Vector.replicate 256 0#8, words := Vector.replicate 256 (Vector.replicate 8 0#32) },
        raw := m, pkd := n, draws := d, schedule := rest, response := none } ∧
      m.cells = [] ∧ n.cells = []

/-- The invariant of the machine holds right after reset, for every instance with admissible parameters. -/
def Obligations.ResetMeetsTheInvariant : Prop :=
  (∀ p k, p.wellFormed = true → (State.resetWith p k).Inv) ∧ State.reset.Inv

/-- The flags and the fault record stay coherent in every step (R24 to R26 of 10_state.md). -/
def Obligations.StepKeepsProtocol : Prop :=
  ∀ s t : State, s.ProtocolInv → step s = .next t → t.ProtocolInv

/-- The buffers keep their canonical form, and no byte outside them is ever written, in every step. -/
def Obligations.StepKeepsBuffers : Prop :=
  ∀ s t : State, s.BufferInv → step s = .next t → t.BufferInv ∧ t.params = s.params

/-- R45 of 10_state.md, items (a) to (f) and (h), is kept by every step; with it TREE_OK = 0 only with no tree. -/
def Obligations.StepKeepsTreeInvariant : Prop :=
  ∀ s t : State, TreeInv s.tree → s.TreeOkInv → step s = .next t → TreeInv t.tree ∧ t.TreeOkInv

/-- R221 of 60_exceptions.md: a recorded fault stays, code and details, until an accepted SRST or CLRF completes or hardware reset. -/
def Obligations.FaultIsSticky : Prop :=
  ∀ s t : State, s.engine = .fault → step s = .next t → s.schedule.head? ≠ some .reset →
    t.err = s.err ∧
    (t.engine = .fault ∨
      (t.engine = .busy ∧ (s.schedule.head? = some (.write .reg 1#32 1#32) ∨ s.schedule.head? = some (.write .reg 1#32 2#32))))

/-! ### Control commands -/

/-- R110 of 40_control.md: NOP completes and changes nothing but the flags of completion. -/
def Obligations.NopOnlyCompletes : Prop :=
  ∀ s : State, exec .nop s = .next { s with engine := .idle, done := true }

/-- R111 of 40_control.md: SRST gives every register and table its reset value, DONE 1, and leaves CMD, RAW and PKD. -/
def Obligations.SrstResetsAllButTheBuffers : Prop :=
  ∀ s : State, exec .srst s = .next
    { s with engine := .idle, done := true, treeOk := false, err := { code := 0#8, info0 := 0#32, info1 := 0#32 },
             rlen := 0#32, plen := 0#32, pbits := 0#32, ubits := 0#32, freq := Vector.replicate 256 0#32,
             tree := { node := Vector.replicate 511 { leaf := false, sym := 0#8, freq := 0#40 },
                       link := Vector.replicate 511 { left := none, right := none }, nleaf := 0#9, nnodes := 0#9, root := 0 },
             code := { len := Vector.replicate 256 0#8, words := Vector.replicate 256 (Vector.replicate 8 0#32) } }

/-- R112 of 40_control.md: CLRF clears ERR, ERRINFO0, ERRINFO1 and returns to IDLE; nothing else changes. -/
def Obligations.ClrfClearsTheFault : Prop :=
  ∀ s : State, exec .clrf s = .next
    { s with engine := .idle, done := true, err := { code := 0#8, info0 := 0#32, info1 := 0#32 } }

/-! ### Pre-check faults -/

/-- R203 of 60_exceptions.md: COUNT, PACK and UNPACK fault E_RANGE when RLEN > RAW_SIZE, UNPACK then when PLEN > PKD_SIZE; nothing but
the flags and the fault record changes (R217). -/
def Obligations.LengthsOutOfRangeFault : Prop :=
  ∀ s : State,
    (s.params.rawSize.toNat < s.rlen.toNat → ∀ i, i = .count ∨ i = .pack ∨ i = .unpack →
      exec i s = .next { s with engine := .fault, done := false, err := { code := 0x02#8, info0 := s.rlen, info1 := 0#32 } }) ∧
    (s.rlen.toNat ≤ s.params.rawSize.toNat → s.params.pkdSize.toNat < s.plen.toNat →
      exec .unpack s = .next { s with engine := .fault, done := false, err := { code := 0x02#8, info0 := s.plen, info1 := 1#32 } })

/-- R204 of 60_exceptions.md: DERIVE and, its lengths in range, UNPACK fault E_STATE with their opcode when TREE_OK = 0; nothing but the
flags and the fault record changes (R217). -/
def Obligations.MissingTreeFaults : Prop :=
  ∀ s : State, s.treeOk = false →
    exec .derive s = .next { s with engine := .fault, done := false, err := { code := 0x03#8, info0 := 0x12#32, info1 := 0#32 } } ∧
    (s.rlen.toNat ≤ s.params.rawSize.toNat → s.plen.toNat ≤ s.params.pkdSize.toNat →
      exec .unpack s = .next { s with engine := .fault, done := false, err := { code := 0x03#8, info0 := 0x14#32, info1 := 0#32 } })

/-! ### Frames of all commands -/

/-- R96 of 30_encoding.md and R219 of 60_exceptions.md, over all commands and all outcomes, faults among them: each piece of state is
written by its commands alone. -/
def Obligations.CommandsWriteOnlyTheirResults : Prop :=
  ∀ (i : Instr) (s t : State), exec i s = .next t →
    t.cmd = s.cmd ∧ t.params = s.params ∧ t.schedule = s.schedule ∧ t.response = s.response ∧
    (i ≠ .srst → t.rlen = s.rlen) ∧
    (i ≠ .srst → i ≠ .count → t.freq = s.freq) ∧
    (i ≠ .srst → i ≠ .build → i ≠ .trie → t.tree = s.tree ∧ t.treeOk = s.treeOk) ∧
    (i ≠ .srst → i ≠ .derive → t.code = s.code) ∧
    (i ≠ .srst → i ≠ .pack → t.plen = s.plen ∧ t.pbits = s.pbits) ∧
    (i ≠ .srst → i ≠ .unpack → t.ubits = s.ubits) ∧
    (i ≠ .pack → ∀ a, t.pkd.read a = s.pkd.read a) ∧
    (i ≠ .unpack → ∀ a, t.raw.read a = s.raw.read a) ∧
    (i = .unpack → ∀ a, s.rlen.toNat ≤ a → t.raw.read a = s.raw.read a) ∧
    (i ≠ .srst → i ≠ .clrf → t.engine = .idle → t.err = s.err)

/-! ### COUNT -/

/-- R120 and R121 of 41_count.md: FREQ[x] is the number of bytes of RAW[0 .. RLEN−1] that are x, the counts sum to RLEN, and nothing
else changes. -/
def Obligations.CountCountsTheBytes : Prop :=
  ∀ s : State, s.rlen.toNat ≤ s.params.rawSize.toNat →
    ∃ f, exec .count s = .next { s with engine := .idle, done := true, freq := f } ∧
      (∀ x, (entryAt f x).toNat = ((List.range s.rlen.toNat).filter fun i => s.raw.read i == x).length) ∧
      freqSum f = s.rlen.toNat

/-! ### BUILD -/

/-- BUILD always completes and writes the tree alone (R130); with n symbols present it makes n leaves, records 0 to n − 1, ascending by
symbol (R132, R133), and 0, 2 or 2n − 1 records in all, the root the last (R137, R138, R139, R142). -/
def Obligations.BuildAllocatesTheRecords : Prop :=
  ∀ s : State, ∃ t, exec .build s = .next { s with engine := .idle, done := true, treeOk := true, tree := t } ∧
    t.nleaf.toNat = (presentSymbols s.freq).length ∧
    t.nnodes.toNat = (if (presentSymbols s.freq).length = 0 then 0 else if (presentSymbols s.freq).length = 1 then 2
      else 2 * (presentSymbols s.freq).length - 1) ∧
    t.root.val = t.nnodes.toNat - 1 ∧
    ∀ (k : NodeIdx) (h : k.val < (presentSymbols s.freq).length),
      t.nodeAt k = { leaf := true, sym := (presentSymbols s.freq)[k.val], freq := (entryAt s.freq (presentSymbols s.freq)[k.val]).setWidth 40 }

/-- R138 of 42_build.md: with every count zero BUILD completes with the empty tree and TREE_OK = 1. -/
def Obligations.BuildOfNothingIsTheEmptyTree : Prop :=
  ∀ s : State, (∀ x, entryAt s.freq x = 0#32) →
    exec .build s = .next { s with engine := .idle, done := true, treeOk := true, tree := Tree.empty }

/-- R139 of 42_build.md: with one symbol present, the leaf is record 0 under a synthetic root, record 1, with no right child; the one
path to the leaf is the single bit `0`. -/
def Obligations.BuildOfOneSymbolAddsARoot : Prop :=
  ∀ (s : State) (x : Sym), (∀ y, entryAt s.freq y ≠ 0#32 ↔ y = x) →
    ∃ t, exec .build s = .next { s with engine := .idle, done := true, treeOk := true, tree := t } ∧
      t.nleaf = 1#9 ∧ t.nnodes = 2#9 ∧ t.root = 1 ∧
      t.nodeAt 0 = { leaf := true, sym := x, freq := (entryAt s.freq x).setWidth 40 } ∧
      t.nodeAt 1 = { leaf := false, sym := 0#8, freq := (entryAt s.freq x).setWidth 40 } ∧
      t.childAt 1 false = some 0 ∧ t.childAt 1 true = none ∧ t.childAt 0 false = none ∧ t.childAt 0 true = none ∧
      (∀ p, t.follow t.root p = some 0 ↔ p = [false])

/-- R134 to R136 of 42_build.md: a round takes the two pending nodes with the least keys (frequency, then index), in that order, makes
them left and right child of a new record with the sum of their frequencies at the next index, and puts that record in the set. -/
def Obligations.RoundMergesTheTwoLeastKeys : Prop :=
  ∀ (k : Nat) (a : Arena) (pend : List NodeIdx), pend.Nodup → 2 ≤ pend.length → a.next < 511 →
    ∃ i j rest, pend.Perm (i :: j :: rest) ∧
      (∀ x ∈ j :: rest, (a.freqAt i).toNat < (a.freqAt x).toNat ∨ ((a.freqAt i).toNat = (a.freqAt x).toNat ∧ i < x)) ∧
      (∀ x ∈ rest, (a.freqAt j).toNat < (a.freqAt x).toNat ∨ ((a.freqAt j).toNat = (a.freqAt x).toNat ∧ j < x)) ∧
      ∃ a', mergeRounds (k + 1) a pend = mergeRounds k a' (a.nextIdx :: rest) ∧
        a'.next = a.next + 1 ∧ a.nextIdx.val = a.next ∧
        a'.node[a.nextIdx] = { leaf := false, sym := 0#8, freq := a.freqAt i + a.freqAt j } ∧
        a'.childAt a.nextIdx false = some i ∧ a'.childAt a.nextIdx true = some j ∧
        ∀ x, x ≠ a.nextIdx → a'.node[x] = a.node[x] ∧ a'.link[x] = a.link[x]

/-- R132, R134 to R137 and R140 of 42_build.md, of the tree BUILD leaves: with n ≥ 2 symbols, records n to 2n − 2 are the merges in
order; each has as left child the pending record of least key, as right child the pending record of next key, and their sum as
frequency. -/
def Obligations.BuildMergesGreedily : Prop :=
  ∀ s : State, 2 ≤ (presentSymbols s.freq).length →
    ∃ t, exec .build s = .next { s with engine := .idle, done := true, treeOk := true, tree := t } ∧
      t.nnodes.toNat = 2 * (presentSymbols s.freq).length - 1 ∧
      ∀ r : NodeIdx, (presentSymbols s.freq).length ≤ r.val → r.val < t.nnodes.toNat →
        ∃ i j, t.childAt r false = some i ∧ t.childAt r true = some j ∧
          t.PendingAt r i ∧ t.PendingAt r j ∧ t.KeyBelow i j ∧
          (∀ x, t.PendingAt r x → x ≠ i → x ≠ j → t.KeyBelow j x) ∧
          (t.nodeAt r).leaf = false ∧ (t.nodeAt r).sym = 0#8 ∧
          (t.nodeAt r).freq.toNat = (t.nodeAt i).freq.toNat + (t.nodeAt j).freq.toNat

/-- R144 of 42_build.md and R45(g) of 10_state.md: an internal record's frequency is the sum of its children's, the root's that of
all counts, exactly, and with two symbols or more every internal record has both children. -/
def Obligations.BuildConservesFrequency : Prop :=
  ∀ s : State, ∃ t, exec .build s = .next { s with engine := .idle, done := true, treeOk := true, tree := t } ∧
    t.FreqSums ∧ (t.nnodes ≠ 0#9 → (t.nodeAt t.root).freq.toNat = freqSum s.freq) ∧
    (2 ≤ (presentSymbols s.freq).length → ∀ i, t.Used i → (t.nodeAt i).leaf = false → ∀ b, ∃ c, t.childAt i b = some c)

/-! ### DERIVE -/

/-- R150 to R152 of 43_derive.md: with TREE_OK = 1 and a tree R45 allows, DERIVE completes and writes the code table alone: the code of a
leaf's symbol is the path to the leaf, a symbol of no leaf has no entry, and word bits beyond a code are zero. -/
def Obligations.DeriveWritesThePaths : Prop :=
  ∀ s : State, s.treeOk = true → TreeInv s.tree →
    ∃ c, exec .derive s = .next { s with engine := .idle, done := true, code := c } ∧
      (s.tree.nnodes ≠ 0#9 → ∀ p i, s.tree.follow s.tree.root p = some i → s.tree.IsLeaf i → c.codeOf (s.tree.nodeAt i).sym = p) ∧
      (∀ x, (∀ i, s.tree.IsLeaf i → (s.tree.nodeAt i).sym ≠ x) → c.lenOf x = 0) ∧
      (∀ x, c.Canonical x)

/-- R155 of 43_derive.md: the table DERIVE writes is prefix-free, and agrees with the tree. -/
def Obligations.DerivedTableIsPrefixFree : Prop :=
  ∀ s t : State, s.treeOk = true → TreeInv s.tree → exec .derive s = .next t → t.code.PrefixFree ∧ Agree t.tree t.code

/-- The model's own stop (log entry 10): DERIVE stops on a tree with a walk of 256 levels, which R45 rules out. -/
def Obligations.DeriveStopsBelowLevel255 : Prop :=
  ∀ (s : State) (p : Bits), s.treeOk = true → s.tree.nnodes ≠ 0#9 → p.length = 256 →
    (∀ k, k < 256 → ∃ i, s.tree.follow s.tree.root (p.take k) = some i ∧ (s.tree.nodeAt i).leaf = false) →
    (∃ i, s.tree.follow s.tree.root p = some i) →
    exec .derive s = .fault .walkTooDeep

/-- The code table's word layout (R99 of 30_encoding.md, R152 of 43_derive.md): a stored code is read back bit for bit, with zeros
beyond it, and no other entry changes. -/
def Obligations.StoredCodeReadsBack : Prop :=
  ∀ (t : CodeTable) (x : Sym) (c : Bits), c.length ≤ 255 →
    (t.store x c).codeOf x = c ∧ (t.store x c).Canonical x ∧
    ∀ y, y ≠ x → (t.store x c).lenOf y = t.lenOf y ∧ ∀ w, (t.store x c).wordOf y w = t.wordOf y w

/-! ### PACK -/

/-- R160 to R164 of 44_pack.md: if every input byte has an entry and the payload fits PKD, PACK completes; the payload is the
concatenation of the codes, most significant bit first, padded with zeros to a byte; PLEN and PBITS are its lengths; the bytes of
PKD from PLEN on, and everything else, are unchanged. -/
def Obligations.PackWritesTheStream : Prop :=
  ∀ s : State, s.params.wellFormed = true → s.rlen.toNat ≤ s.params.rawSize.toNat →
    (∀ k, k < s.rlen.toNat → s.code.lenOf (s.raw.read k) ≠ 0) →
    ceil8 (stream s.code s.rawInput).length ≤ s.params.pkdSize.toNat →
    ∃ m, exec .pack s = .next
        { s with engine := .idle, done := true, pkd := m,
                 plen := BitVec.ofNat 32 (ceil8 (stream s.code s.rawInput).length),
                 pbits := BitVec.ofNat 32 (stream s.code s.rawInput).length } ∧
      m.StartsWith (stream s.code s.rawInput ++
        List.replicate (8 * ceil8 (stream s.code s.rawInput).length - (stream s.code s.rawInput).length) false) ∧
      ∀ a, ceil8 (stream s.code s.rawInput).length ≤ a → m.read a = s.pkd.read a

/-- R165 of 44_pack.md: at the first input byte without an entry, the payload so far fitting, PACK faults E_NOCODE with the byte and its
index; PLEN and PBITS become 0, PKD unspecified (R218 of 60_exceptions.md), nothing else changes. -/
def Obligations.PackFaultsOnAMissingCode : Prop :=
  ∀ (s : State) (i : Nat), s.rlen.toNat ≤ s.params.rawSize.toNat → i < s.rlen.toNat →
    (∀ k, k < i → s.code.lenOf (s.raw.read k) ≠ 0) → s.code.lenOf (s.raw.read i) = 0 →
    (stream s.code (s.raw.firstBytes i)).length / 8 ≤ s.params.pkdSize.toNat →
    ∃ m d, exec .pack s = .next
      { s with engine := .fault, done := false, err := { code := 0x10#8, info0 := (s.raw.read i).setWidth 32, info1 := BitVec.ofNat 32 i },
               plen := 0#32, pbits := 0#32, pkd := m, draws := d }

/-- R206 of 60_exceptions.md with R202's details: PACK faults E_OVERFLOW when a byte has to be written at PKD index PKD_SIZE, by the input
byte `i` whose bit completes it (ERRINFO1 the bits so far, 8·(PKD_SIZE + 1)), or by the flush (ERRINFO0 = RLEN, ERRINFO1 all bits).
Where 8·(PKD_SIZE + 1) is 2^32 the spec states no ERRINFO1 (log entry 7): the bound on PKD_SIZE leaves that one size out of the
first clause, and the last clause covers it for all but ERRINFO1. -/
def Obligations.PackFaultsOnOverflow : Prop :=
  ∀ s : State, s.params.wellFormed = true → s.rlen.toNat ≤ s.params.rawSize.toNat →
    (∀ i, i < s.rlen.toNat → (∀ k, k ≤ i → s.code.lenOf (s.raw.read k) ≠ 0) →
      (stream s.code (s.raw.firstBytes i)).length / 8 ≤ s.params.pkdSize.toNat →
      s.params.pkdSize.toNat < (stream s.code (s.raw.firstBytes (i + 1))).length / 8 →
      ∃ m d w, exec .pack s = .next
        { s with engine := .fault, done := false, err := { code := 0x11#8, info0 := BitVec.ofNat 32 i, info1 := w },
                 plen := 0#32, pbits := 0#32, pkd := m, draws := d } ∧
        (s.params.pkdSize.toNat + 1 < 2 ^ 29 → w = BitVec.ofNat 32 (8 * (s.params.pkdSize.toNat + 1)))) ∧
    ((∀ k, k < s.rlen.toNat → s.code.lenOf (s.raw.read k) ≠ 0) →
      (stream s.code s.rawInput).length / 8 = s.params.pkdSize.toNat → (stream s.code s.rawInput).length % 8 ≠ 0 →
      ∃ m d, exec .pack s = .next
        { s with engine := .fault, done := false,
                 err := { code := 0x11#8, info0 := s.rlen, info1 := BitVec.ofNat 32 (stream s.code s.rawInput).length },
                 plen := 0#32, pbits := 0#32, pkd := m, draws := d })

/-- R48 of 10_state.md: the bits of an entry beyond its length are ignored by PACK and TRIE, whatever they hold: with another table of
the same codes the outcome is the same. -/
def Obligations.BitsBeyondTheLengthAreIgnored : Prop :=
  ∀ (s t : State) (c : CodeTable) (i : Instr), (i = .pack ∨ i = .trie) → (∀ x, c.codeOf x = s.code.codeOf x) →
    exec i s = .next t → exec i { s with code := c } = .next { t with code := c }

/-! ### UNPACK -/

/-- R170, R171 and R174 of 45_unpack.md: if the payload starts with the paths of RLEN leaves, UNPACK completes; RAW[k] is the symbol of
the k-th leaf, UBITS the number of bits of the paths; RAW from RLEN on and everything else are unchanged. Any bits may follow. -/
def Obligations.UnpackDecodesThePaths : Prop :=
  ∀ (s : State) (ws : List (Bits × NodeIdx)), s.params.wellFormed = true → s.rlen.toNat ≤ s.params.rawSize.toNat →
    s.plen.toNat ≤ s.params.pkdSize.toNat → s.treeOk = true → TreeInv s.tree → ws.length = s.rlen.toNat →
    (∀ w ∈ ws, s.tree.follow s.tree.root w.1 = some w.2 ∧ s.tree.IsLeaf w.2) →
    (ws.flatMap Prod.fst).length ≤ 8 * s.plen.toNat → s.pkd.StartsWith (ws.flatMap Prod.fst) →
    ∃ m, exec .unpack s = .next
        { s with engine := .idle, done := true, raw := m, ubits := BitVec.ofNat 32 (ws.flatMap Prod.fst).length } ∧
      (∀ k (h : k < ws.length), m.read k = (s.tree.nodeAt ws[k].2).sym) ∧
      ∀ a, s.rlen.toNat ≤ a → m.read a = s.raw.read a

/-- R176 of 45_unpack.md: after the paths of fewer than RLEN leaves and the path `q` to an internal record, a bit that selects an absent
link is E_CORRUPT_PATH with its position and the symbols so far; the empty tree with RLEN > 0 is E_CORRUPT_PATH with zeros. UBITS
becomes 0, RAW[0 .. RLEN−1] unspecified, nothing else changes (R218 of 60_exceptions.md). -/
def Obligations.UnpackFaultsOnAMissingChild : Prop :=
  ∀ s : State, s.params.wellFormed = true → s.rlen.toNat ≤ s.params.rawSize.toNat →
    s.plen.toNat ≤ s.params.pkdSize.toNat → s.treeOk = true → TreeInv s.tree →
    (∀ (ws : List (Bits × NodeIdx)) (q : Bits) (cur : NodeIdx) (b : Bool), s.tree.nnodes ≠ 0#9 → ws.length < s.rlen.toNat →
      (∀ w ∈ ws, s.tree.follow s.tree.root w.1 = some w.2 ∧ s.tree.IsLeaf w.2) →
      s.tree.follow s.tree.root q = some cur → (s.tree.nodeAt cur).leaf = false → s.tree.childAt cur b = none →
      (ws.flatMap Prod.fst ++ q ++ [b]).length ≤ 8 * s.plen.toNat → s.pkd.StartsWith (ws.flatMap Prod.fst ++ q ++ [b]) →
      ∃ m d, exec .unpack s = .next
          { s with engine := .fault, done := false, ubits := 0#32, raw := m, draws := d,
                   err := { code := 0x20#8, info0 := BitVec.ofNat 32 (ws.flatMap Prod.fst ++ q).length, info1 := BitVec.ofNat 32 ws.length } } ∧
        ∀ a, s.rlen.toNat ≤ a → m.read a = s.raw.read a) ∧
    (s.tree.nnodes = 0#9 → 0 < s.rlen.toNat →
      ∃ m d, exec .unpack s = .next
          { s with engine := .fault, done := false, ubits := 0#32, raw := m, draws := d,
                   err := { code := 0x20#8, info0 := 0#32, info1 := 0#32 } } ∧
        ∀ a, s.rlen.toNat ≤ a → m.read a = s.raw.read a)

/-- R175 of 45_unpack.md: if the PLEN bytes are used up, after the paths of fewer than RLEN leaves and the path `q` to an internal record,
UNPACK faults E_CORRUPT_SHORT with 8·PLEN and the symbols so far; UBITS becomes 0, RAW[0 .. RLEN−1] unspecified, nothing else changes. -/
def Obligations.UnpackFaultsOnAShortPayload : Prop :=
  ∀ (s : State) (ws : List (Bits × NodeIdx)) (q : Bits) (cur : NodeIdx), s.params.wellFormed = true →
    s.rlen.toNat ≤ s.params.rawSize.toNat → s.plen.toNat ≤ s.params.pkdSize.toNat → s.treeOk = true → TreeInv s.tree →
    s.tree.nnodes ≠ 0#9 → ws.length < s.rlen.toNat →
    (∀ w ∈ ws, s.tree.follow s.tree.root w.1 = some w.2 ∧ s.tree.IsLeaf w.2) →
    s.tree.follow s.tree.root q = some cur → (s.tree.nodeAt cur).leaf = false →
    (ws.flatMap Prod.fst ++ q).length = 8 * s.plen.toNat → s.pkd.StartsWith (ws.flatMap Prod.fst ++ q) →
    ∃ m d, exec .unpack s = .next
        { s with engine := .fault, done := false, ubits := 0#32, raw := m, draws := d,
                 err := { code := 0x21#8, info0 := BitVec.ofNat 32 (8 * s.plen.toNat), info1 := BitVec.ofNat 32 ws.length } } ∧
      ∀ a, s.rlen.toNat ≤ a → m.read a = s.raw.read a

/-- R173 of 45_unpack.md: padding and trailing data are never read: a payload that differs from UBITS on gives the same result. -/
def Obligations.UnpackReadsNoPadding : Prop :=
  ∀ (s t : State) (m : Memory), s.params.wellFormed = true → exec .unpack s = .next t → t.engine = .idle →
    (∀ p, p < t.ubits.toNat → (m.read (p / 8)).getLsbD (7 - p % 8) = (s.pkd.read (p / 8)).getLsbD (7 - p % 8)) →
    exec .unpack { s with pkd := m } = .next { t with pkd := m }

/-! ### TRIE -/

/-- R180 to R183 of 46_trie_codec.md: on a prefix-free table whose trie fits 511 records TRIE completes and writes the tree alone: it
agrees with the table, has one leaf per entry and one record per distinct prefix, the root at record 0, and every frequency 0. The
records are numbered in the order of creation: that of a prefix before that of another if it was made for a lower symbol, or for the
same symbol and is shorter; so a child's index is above its parent's (R187(c)). -/
def Obligations.TrieBuildsTheDecodeTrie : Prop :=
  ∀ s : State, s.code.PrefixFree → s.code.trieSize ≤ 511 →
    ∃ t, exec .trie s = .next { s with engine := .idle, done := true, treeOk := true, tree := t } ∧
      Agree t s.code ∧ t.root = 0 ∧ (∀ i, (t.nodeAt i).freq = 0#40) ∧
      t.nleaf.toNat = s.code.entries.length ∧
      t.nnodes.toNat = (if s.code.entries.length = 0 then 0 else s.code.trieSize) ∧
      (∀ i b k, t.childAt i b = some k → i < k) ∧
      (∀ p x, s.code.MadeFor p x → ∃ i, t.follow t.root p = some i ∧ t.Used i) ∧
      (∀ p q x y i j, s.code.MadeFor p x → s.code.MadeFor q y → t.follow t.root p = some i → t.follow t.root q = some j →
        (i < j ↔ x < y ∨ (x = y ∧ p.length < q.length)))

/-- R184 and R185 of 46_trie_codec.md: on a table that is not prefix-free, or whose trie needs more than 511 records, TRIE faults
E_CODEBOOK or E_NODE_OVF (the former if the trie fits, the latter if the table is prefix-free); no tree is left and TREE_OK = 0
(R218 of 60_exceptions.md), and the code table and everything else are unchanged. On no other table does it fault. -/
def Obligations.TrieRefusesABadTable : Prop :=
  ∀ s : State,
    (¬ (s.code.PrefixFree ∧ s.code.trieSize ≤ 511) →
      ∃ e i0 i1, exec .trie s = .next
          { s with engine := .fault, done := false, treeOk := false, tree := Tree.empty, err := { code := e, info0 := i0, info1 := i1 } } ∧
        (e = 0x30#8 ∨ e = 0x31#8) ∧ (s.code.PrefixFree → e = 0x31#8) ∧ (s.code.trieSize ≤ 511 → e = 0x30#8)) ∧
    (∀ t, exec .trie s = .next t → t.engine = .fault → ¬ (s.code.PrefixFree ∧ s.code.trieSize ≤ 511))

/-- R184 and R185 of 46_trie_codec.md with R202 of 60_exceptions.md: what TRIE reports. Inserting `y`, the lower entries free of conflict
and the records enough for them: if the code of a lower entry `x` is a proper prefix of y's, E_CODEBOOK with y and the length of x's
code (case a); if y's code is a prefix of x's, or equal, E_CODEBOOK with y and its last bit index (case b); if the bits of y's code
before index `j` pass through no leaf and all 511 records are taken by them and the lower entries, and bit `j` needs one more,
E_NODE_OVF with y and j. -/
def Obligations.TrieReportsTheConflict : Prop :=
  ∀ (s : State) (y : Sym), s.code.lenOf y ≠ 0 →
    (∀ a b, a < y → b < y → a ≠ b → s.code.lenOf a ≠ 0 → s.code.lenOf b ≠ 0 → ¬ s.code.codeOf a <+: s.code.codeOf b) →
    s.code.trieSizeOf (symbols.filter fun z => decide (z < y)) ≤ 511 →
    (∀ x, x < y → s.code.lenOf x ≠ 0 → s.code.codeOf x <+: s.code.codeOf y → s.code.codeOf x ≠ s.code.codeOf y →
      exec .trie s = .next { s with engine := .fault, done := false, treeOk := false, tree := Tree.empty,
                                    err := { code := 0x30#8, info0 := y.setWidth 32, info1 := BitVec.ofNat 32 (s.code.lenOf x) } }) ∧
    (∀ x, x < y → s.code.lenOf x ≠ 0 → s.code.codeOf y <+: s.code.codeOf x →
      exec .trie s = .next { s with engine := .fault, done := false, treeOk := false, tree := Tree.empty,
                                    err := { code := 0x30#8, info0 := y.setWidth 32, info1 := BitVec.ofNat 32 (s.code.lenOf y - 1) } }) ∧
    (∀ j, j < s.code.lenOf y →
      (∀ x, x < y → s.code.lenOf x ≠ 0 → ¬ s.code.codeOf x <+: (s.code.codeOf y).take j) →
      (∀ x, x < y → ¬ (s.code.codeOf y).take (j + 1) <+: s.code.codeOf x) →
      (((symbols.filter fun z => decide (z < y)).flatMap fun z => (s.code.codeOf z).inits) ++
        ((s.code.codeOf y).take j).inits).dedup.length = 511 →
      exec .trie s = .next { s with engine := .fault, done := false, treeOk := false, tree := Tree.empty,
                                    err := { code := 0x31#8, info0 := y.setWidth 32, info1 := BitVec.ofNat 32 j } })

/-- R188(a) of 46_trie_codec.md: DERIVE after a TRIE that completed gives the table back, its unused word bits zero. -/
def Obligations.DeriveInvertsTrie : Prop :=
  ∀ s t : State, exec .trie s = .next t → t.engine = .idle →
    ∃ u, exec .derive t = .next u ∧ u.engine = .idle ∧ (∀ x, u.code.codeOf x = s.code.codeOf x ∧ u.code.Canonical x)

/-! ### Round trips -/

/-- R174 of 45_unpack.md: a payload PACK wrote from a table that agrees with the tree is unpacked to the input, whatever RAW holds by
then, and UBITS = PBITS. -/
def Obligations.UnpackInvertsPack : Prop :=
  ∀ (s t : State) (m : Memory), s.params.wellFormed = true → s.treeOk = true → TreeInv s.tree → Agree s.tree s.code →
    exec .pack s = .next t → t.engine = .idle →
    ∃ u, exec .unpack { t with raw := m } = .next u ∧ u.engine = .idle ∧ u.ubits = t.pbits ∧
      ∀ k, k < s.rlen.toNat → u.raw.read k = s.raw.read k

/-- R189 of 46_trie_codec.md: for every input whose packed form fits PKD, COUNT, BUILD, DERIVE, PACK complete; then on this or another
instance `u`, of other sizes or not, that holds the codes, the payload bytes, PLEN and RLEN, and anything else, TRIE and UNPACK
complete, and the output is the input. The lengths must be legal for that instance (R203 of 60_exceptions.md). -/
def Obligations.DecompressInvertsCompress : Prop :=
  ∀ s : State, s.params.wellFormed = true → s.rlen.toNat ≤ s.params.rawSize.toNat →
    ∃ s1 s2 s3, exec .count s = .next s1 ∧ exec .build s1 = .next s2 ∧ exec .derive s2 = .next s3 ∧ s3.engine = .idle ∧
      (ceil8 (stream s3.code s3.rawInput).length ≤ s.params.pkdSize.toNat →
        ∃ s4, exec .pack s3 = .next s4 ∧ s4.engine = .idle ∧
          ∀ u : State, u.params.wellFormed = true → (∀ x, u.code.codeOf x = s4.code.codeOf x) →
            (∀ k, k < s4.plen.toNat → u.pkd.read k = s4.pkd.read k) → u.plen = s4.plen → u.rlen = s4.rlen →
            u.rlen.toNat ≤ u.params.rawSize.toNat → u.plen.toNat ≤ u.params.pkdSize.toNat →
            ∃ u1 u2, exec .trie u = .next u1 ∧ u1.engine = .idle ∧ exec .unpack u1 = .next u2 ∧ u2.engine = .idle ∧
              u2.ubits = s4.pbits ∧ ∀ k, k < s.rlen.toNat → u2.raw.read k = s.raw.read k)

/-! ### The host script notation

A run holds no hardware reset: the model's choice (log entry 17). -/

/-- R101 of 30_encoding.md: after RUN, STATE is IDLE or FAULT, whenever the engine takes its turn, and the host got every answer; the
state is the same for all. -/
def Obligations.RunEndsWithTheEngineAtRest : Prop :=
  ∀ (i : Instr) (s : State), s.engine = .idle → TreeInv s.tree →
    ∃ t, t.engine ≠ .busy ∧ t.cmd = encode i ∧
      ∀ turns, ∃ r, runScript (run i) (ScriptRun.start s turns) = .ended r ∧ r.state = t

/-- R261 of 70_reset_and_hazards.md: a run that has ended is not BUSY, whatever script, start and turns: a completion still owed was
taken. -/
def Obligations.EndedRunIsAtRest : Prop :=
  ∀ (ds : List Directive) (s : State) (turns : List Bool) (r : ScriptRun),
    runScript ds (ScriptRun.start s turns) = .ended r → r.state.engine ≠ .busy

/-- R261 of 70_reset_and_hazards.md: of a script without a fault expectation, a run that ended well never had ERR non-zero, at its start
and its end in particular. What counts as a fault expectation is the model's choice (log entry 16). -/
def Obligations.EndedWellMeansNoFault : Prop :=
  ∀ (ds : List Directive) (s : State) (turns : List Bool) (r : ScriptRun),
    (∀ d ∈ ds, d.expectsFault = false) → runScript ds (ScriptRun.start s turns) = .ended r →
    ((ScriptEnd.ended r).endedWell = true ↔ r.faults = []) ∧
    (r.faults = [] → s.err.code = 0#8 ∧ r.state.err.code = 0#8)

/-- R76 of 20_memory.md: LOADCODE in IDLE makes the code of the symbol the one given and leaves every other entry. -/
def Obligations.LoadCodeLoadsTheCode : Prop :=
  ∀ (s : State) (turns : List Bool) (x : Sym) (c : Bits), s.engine = .idle → codeWellFormed c = true →
    ∃ r, runScript (loadCode x c) (ScriptRun.start s turns) = .ended r ∧ r.state.code.codeOf x = c ∧
      (∀ y, y ≠ x → r.state.code.codeOf y = s.code.codeOf y) ∧ r.state.engine = .idle ∧ r.state.tree = s.tree ∧
      r.state.freq = s.freq ∧ r.state.raw = s.raw ∧ r.state.pkd = s.pkd
end

