-- ==== Sys2Proof/Laws/State.lean ====
section
/-! SUPPORT. One lemma per field per update of State, true by rfl, so that no later proof unfolds a record update. -/

namespace Sys2Proof.Machine

/-! `State.flagsIssue` -/

@[simp] theorem State.flagsIssue_engine (s : State) : s.flagsIssue.engine = .busy := rfl
@[simp] theorem State.flagsIssue_cmd (s : State) : s.flagsIssue.cmd = s.cmd := rfl
@[simp] theorem State.flagsIssue_done (s : State) : s.flagsIssue.done = false := rfl
@[simp] theorem State.flagsIssue_treeOk (s : State) : s.flagsIssue.treeOk = s.treeOk := rfl
@[simp] theorem State.flagsIssue_err (s : State) : s.flagsIssue.err = s.err := rfl
@[simp] theorem State.flagsIssue_rlen (s : State) : s.flagsIssue.rlen = s.rlen := rfl
@[simp] theorem State.flagsIssue_plen (s : State) : s.flagsIssue.plen = s.plen := rfl
@[simp] theorem State.flagsIssue_pbits (s : State) : s.flagsIssue.pbits = s.pbits := rfl
@[simp] theorem State.flagsIssue_ubits (s : State) : s.flagsIssue.ubits = s.ubits := rfl
@[simp] theorem State.flagsIssue_params (s : State) : s.flagsIssue.params = s.params := rfl
@[simp] theorem State.flagsIssue_freq (s : State) : s.flagsIssue.freq = s.freq := rfl
@[simp] theorem State.flagsIssue_tree (s : State) : s.flagsIssue.tree = s.tree := rfl
@[simp] theorem State.flagsIssue_code (s : State) : s.flagsIssue.code = s.code := rfl
@[simp] theorem State.flagsIssue_raw (s : State) : s.flagsIssue.raw = s.raw := rfl
@[simp] theorem State.flagsIssue_pkd (s : State) : s.flagsIssue.pkd = s.pkd := rfl
@[simp] theorem State.flagsIssue_draws (s : State) : s.flagsIssue.draws = s.draws := rfl
@[simp] theorem State.flagsIssue_schedule (s : State) : s.flagsIssue.schedule = s.schedule := rfl
@[simp] theorem State.flagsIssue_response (s : State) : s.flagsIssue.response = s.response := rfl

/-! `State.flagsDone` -/

@[simp] theorem State.flagsDone_engine (s : State) : s.flagsDone.engine = .idle := rfl
@[simp] theorem State.flagsDone_cmd (s : State) : s.flagsDone.cmd = s.cmd := rfl
@[simp] theorem State.flagsDone_done (s : State) : s.flagsDone.done = true := rfl
@[simp] theorem State.flagsDone_treeOk (s : State) : s.flagsDone.treeOk = s.treeOk := rfl
@[simp] theorem State.flagsDone_err (s : State) : s.flagsDone.err = s.err := rfl
@[simp] theorem State.flagsDone_rlen (s : State) : s.flagsDone.rlen = s.rlen := rfl
@[simp] theorem State.flagsDone_plen (s : State) : s.flagsDone.plen = s.plen := rfl
@[simp] theorem State.flagsDone_pbits (s : State) : s.flagsDone.pbits = s.pbits := rfl
@[simp] theorem State.flagsDone_ubits (s : State) : s.flagsDone.ubits = s.ubits := rfl
@[simp] theorem State.flagsDone_params (s : State) : s.flagsDone.params = s.params := rfl
@[simp] theorem State.flagsDone_freq (s : State) : s.flagsDone.freq = s.freq := rfl
@[simp] theorem State.flagsDone_tree (s : State) : s.flagsDone.tree = s.tree := rfl
@[simp] theorem State.flagsDone_code (s : State) : s.flagsDone.code = s.code := rfl
@[simp] theorem State.flagsDone_raw (s : State) : s.flagsDone.raw = s.raw := rfl
@[simp] theorem State.flagsDone_pkd (s : State) : s.flagsDone.pkd = s.pkd := rfl
@[simp] theorem State.flagsDone_draws (s : State) : s.flagsDone.draws = s.draws := rfl
@[simp] theorem State.flagsDone_schedule (s : State) : s.flagsDone.schedule = s.schedule := rfl
@[simp] theorem State.flagsDone_response (s : State) : s.flagsDone.response = s.response := rfl

/-! `State.flagsFault` -/

@[simp] theorem State.flagsFault_engine (s : State) : s.flagsFault.engine = .fault := rfl
@[simp] theorem State.flagsFault_cmd (s : State) : s.flagsFault.cmd = s.cmd := rfl
@[simp] theorem State.flagsFault_done (s : State) : s.flagsFault.done = false := rfl
@[simp] theorem State.flagsFault_treeOk (s : State) : s.flagsFault.treeOk = s.treeOk := rfl
@[simp] theorem State.flagsFault_err (s : State) : s.flagsFault.err = s.err := rfl
@[simp] theorem State.flagsFault_rlen (s : State) : s.flagsFault.rlen = s.rlen := rfl
@[simp] theorem State.flagsFault_plen (s : State) : s.flagsFault.plen = s.plen := rfl
@[simp] theorem State.flagsFault_pbits (s : State) : s.flagsFault.pbits = s.pbits := rfl
@[simp] theorem State.flagsFault_ubits (s : State) : s.flagsFault.ubits = s.ubits := rfl
@[simp] theorem State.flagsFault_params (s : State) : s.flagsFault.params = s.params := rfl
@[simp] theorem State.flagsFault_freq (s : State) : s.flagsFault.freq = s.freq := rfl
@[simp] theorem State.flagsFault_tree (s : State) : s.flagsFault.tree = s.tree := rfl
@[simp] theorem State.flagsFault_code (s : State) : s.flagsFault.code = s.code := rfl
@[simp] theorem State.flagsFault_raw (s : State) : s.flagsFault.raw = s.raw := rfl
@[simp] theorem State.flagsFault_pkd (s : State) : s.flagsFault.pkd = s.pkd := rfl
@[simp] theorem State.flagsFault_draws (s : State) : s.flagsFault.draws = s.draws := rfl
@[simp] theorem State.flagsFault_schedule (s : State) : s.flagsFault.schedule = s.schedule := rfl
@[simp] theorem State.flagsFault_response (s : State) : s.flagsFault.response = s.response := rfl

/-! `State.flagTreeOk` -/

@[simp] theorem State.flagTreeOk_engine (s : State) (b : Bool) : (s.flagTreeOk b).engine = s.engine := rfl
@[simp] theorem State.flagTreeOk_cmd (s : State) (b : Bool) : (s.flagTreeOk b).cmd = s.cmd := rfl
@[simp] theorem State.flagTreeOk_done (s : State) (b : Bool) : (s.flagTreeOk b).done = s.done := rfl
@[simp] theorem State.flagTreeOk_treeOk (s : State) (b : Bool) : (s.flagTreeOk b).treeOk = b := rfl
@[simp] theorem State.flagTreeOk_err (s : State) (b : Bool) : (s.flagTreeOk b).err = s.err := rfl
@[simp] theorem State.flagTreeOk_rlen (s : State) (b : Bool) : (s.flagTreeOk b).rlen = s.rlen := rfl
@[simp] theorem State.flagTreeOk_plen (s : State) (b : Bool) : (s.flagTreeOk b).plen = s.plen := rfl
@[simp] theorem State.flagTreeOk_pbits (s : State) (b : Bool) : (s.flagTreeOk b).pbits = s.pbits := rfl
@[simp] theorem State.flagTreeOk_ubits (s : State) (b : Bool) : (s.flagTreeOk b).ubits = s.ubits := rfl
@[simp] theorem State.flagTreeOk_params (s : State) (b : Bool) : (s.flagTreeOk b).params = s.params := rfl
@[simp] theorem State.flagTreeOk_freq (s : State) (b : Bool) : (s.flagTreeOk b).freq = s.freq := rfl
@[simp] theorem State.flagTreeOk_tree (s : State) (b : Bool) : (s.flagTreeOk b).tree = s.tree := rfl
@[simp] theorem State.flagTreeOk_code (s : State) (b : Bool) : (s.flagTreeOk b).code = s.code := rfl
@[simp] theorem State.flagTreeOk_raw (s : State) (b : Bool) : (s.flagTreeOk b).raw = s.raw := rfl
@[simp] theorem State.flagTreeOk_pkd (s : State) (b : Bool) : (s.flagTreeOk b).pkd = s.pkd := rfl
@[simp] theorem State.flagTreeOk_draws (s : State) (b : Bool) : (s.flagTreeOk b).draws = s.draws := rfl
@[simp] theorem State.flagTreeOk_schedule (s : State) (b : Bool) : (s.flagTreeOk b).schedule = s.schedule := rfl
@[simp] theorem State.flagTreeOk_response (s : State) (b : Bool) : (s.flagTreeOk b).response = s.response := rfl

/-! `State.issue` -/

@[simp] theorem State.issue_engine (s : State) (w : Word) : (s.issue w).engine = .busy := rfl
@[simp] theorem State.issue_cmd (s : State) (w : Word) : (s.issue w).cmd = w := rfl
@[simp] theorem State.issue_done (s : State) (w : Word) : (s.issue w).done = false := rfl
@[simp] theorem State.issue_treeOk (s : State) (w : Word) : (s.issue w).treeOk = s.treeOk := rfl
@[simp] theorem State.issue_err (s : State) (w : Word) : (s.issue w).err = s.err := rfl
@[simp] theorem State.issue_rlen (s : State) (w : Word) : (s.issue w).rlen = s.rlen := rfl
@[simp] theorem State.issue_plen (s : State) (w : Word) : (s.issue w).plen = s.plen := rfl
@[simp] theorem State.issue_pbits (s : State) (w : Word) : (s.issue w).pbits = s.pbits := rfl
@[simp] theorem State.issue_ubits (s : State) (w : Word) : (s.issue w).ubits = s.ubits := rfl
@[simp] theorem State.issue_params (s : State) (w : Word) : (s.issue w).params = s.params := rfl
@[simp] theorem State.issue_freq (s : State) (w : Word) : (s.issue w).freq = s.freq := rfl
@[simp] theorem State.issue_tree (s : State) (w : Word) : (s.issue w).tree = s.tree := rfl
@[simp] theorem State.issue_code (s : State) (w : Word) : (s.issue w).code = s.code := rfl
@[simp] theorem State.issue_raw (s : State) (w : Word) : (s.issue w).raw = s.raw := rfl
@[simp] theorem State.issue_pkd (s : State) (w : Word) : (s.issue w).pkd = s.pkd := rfl
@[simp] theorem State.issue_draws (s : State) (w : Word) : (s.issue w).draws = s.draws := rfl
@[simp] theorem State.issue_schedule (s : State) (w : Word) : (s.issue w).schedule = s.schedule := rfl
@[simp] theorem State.issue_response (s : State) (w : Word) : (s.issue w).response = s.response := rfl

/-! `State.finish` -/

@[simp] theorem State.finish_engine (s : State) : s.finish.engine = .idle := rfl
@[simp] theorem State.finish_cmd (s : State) : s.finish.cmd = s.cmd := rfl
@[simp] theorem State.finish_done (s : State) : s.finish.done = true := rfl
@[simp] theorem State.finish_treeOk (s : State) : s.finish.treeOk = s.treeOk := rfl
@[simp] theorem State.finish_err (s : State) : s.finish.err = s.err := rfl
@[simp] theorem State.finish_rlen (s : State) : s.finish.rlen = s.rlen := rfl
@[simp] theorem State.finish_plen (s : State) : s.finish.plen = s.plen := rfl
@[simp] theorem State.finish_pbits (s : State) : s.finish.pbits = s.pbits := rfl
@[simp] theorem State.finish_ubits (s : State) : s.finish.ubits = s.ubits := rfl
@[simp] theorem State.finish_params (s : State) : s.finish.params = s.params := rfl
@[simp] theorem State.finish_freq (s : State) : s.finish.freq = s.freq := rfl
@[simp] theorem State.finish_tree (s : State) : s.finish.tree = s.tree := rfl
@[simp] theorem State.finish_code (s : State) : s.finish.code = s.code := rfl
@[simp] theorem State.finish_raw (s : State) : s.finish.raw = s.raw := rfl
@[simp] theorem State.finish_pkd (s : State) : s.finish.pkd = s.pkd := rfl
@[simp] theorem State.finish_draws (s : State) : s.finish.draws = s.draws := rfl
@[simp] theorem State.finish_schedule (s : State) : s.finish.schedule = s.schedule := rfl
@[simp] theorem State.finish_response (s : State) : s.finish.response = s.response := rfl

/-! `State.takeFault` -/

@[simp] theorem State.takeFault_engine (s : State) (r : Raised) : (s.takeFault r).engine = .fault := rfl
@[simp] theorem State.takeFault_cmd (s : State) (r : Raised) : (s.takeFault r).cmd = s.cmd := rfl
@[simp] theorem State.takeFault_done (s : State) (r : Raised) : (s.takeFault r).done = false := rfl
@[simp] theorem State.takeFault_treeOk (s : State) (r : Raised) : (s.takeFault r).treeOk = s.treeOk := rfl
@[simp] theorem State.takeFault_err (s : State) (r : Raised) : (s.takeFault r).err = { code := r.code.number, info0 := r.info0, info1 := r.info1 } := rfl
@[simp] theorem State.takeFault_rlen (s : State) (r : Raised) : (s.takeFault r).rlen = s.rlen := rfl
@[simp] theorem State.takeFault_plen (s : State) (r : Raised) : (s.takeFault r).plen = s.plen := rfl
@[simp] theorem State.takeFault_pbits (s : State) (r : Raised) : (s.takeFault r).pbits = s.pbits := rfl
@[simp] theorem State.takeFault_ubits (s : State) (r : Raised) : (s.takeFault r).ubits = s.ubits := rfl
@[simp] theorem State.takeFault_params (s : State) (r : Raised) : (s.takeFault r).params = s.params := rfl
@[simp] theorem State.takeFault_freq (s : State) (r : Raised) : (s.takeFault r).freq = s.freq := rfl
@[simp] theorem State.takeFault_tree (s : State) (r : Raised) : (s.takeFault r).tree = s.tree := rfl
@[simp] theorem State.takeFault_code (s : State) (r : Raised) : (s.takeFault r).code = s.code := rfl
@[simp] theorem State.takeFault_raw (s : State) (r : Raised) : (s.takeFault r).raw = s.raw := rfl
@[simp] theorem State.takeFault_pkd (s : State) (r : Raised) : (s.takeFault r).pkd = s.pkd := rfl
@[simp] theorem State.takeFault_draws (s : State) (r : Raised) : (s.takeFault r).draws = s.draws := rfl
@[simp] theorem State.takeFault_schedule (s : State) (r : Raised) : (s.takeFault r).schedule = s.schedule := rfl
@[simp] theorem State.takeFault_response (s : State) (r : Raised) : (s.takeFault r).response = s.response := rfl

/-! `State.clearFault` -/

@[simp] theorem State.clearFault_engine (s : State) : s.clearFault.engine = .idle := rfl
@[simp] theorem State.clearFault_cmd (s : State) : s.clearFault.cmd = s.cmd := rfl
@[simp] theorem State.clearFault_done (s : State) : s.clearFault.done = true := rfl
@[simp] theorem State.clearFault_treeOk (s : State) : s.clearFault.treeOk = s.treeOk := rfl
@[simp] theorem State.clearFault_err (s : State) : s.clearFault.err = FaultRecord.none := rfl
@[simp] theorem State.clearFault_rlen (s : State) : s.clearFault.rlen = s.rlen := rfl
@[simp] theorem State.clearFault_plen (s : State) : s.clearFault.plen = s.plen := rfl
@[simp] theorem State.clearFault_pbits (s : State) : s.clearFault.pbits = s.pbits := rfl
@[simp] theorem State.clearFault_ubits (s : State) : s.clearFault.ubits = s.ubits := rfl
@[simp] theorem State.clearFault_params (s : State) : s.clearFault.params = s.params := rfl
@[simp] theorem State.clearFault_freq (s : State) : s.clearFault.freq = s.freq := rfl
@[simp] theorem State.clearFault_tree (s : State) : s.clearFault.tree = s.tree := rfl
@[simp] theorem State.clearFault_code (s : State) : s.clearFault.code = s.code := rfl
@[simp] theorem State.clearFault_raw (s : State) : s.clearFault.raw = s.raw := rfl
@[simp] theorem State.clearFault_pkd (s : State) : s.clearFault.pkd = s.pkd := rfl
@[simp] theorem State.clearFault_draws (s : State) : s.clearFault.draws = s.draws := rfl
@[simp] theorem State.clearFault_schedule (s : State) : s.clearFault.schedule = s.schedule := rfl
@[simp] theorem State.clearFault_response (s : State) : s.clearFault.response = s.response := rfl

/-! `State.withFreq` -/

@[simp] theorem State.withFreq_engine (s : State) (f : Table Word) : (s.withFreq f).engine = s.engine := rfl
@[simp] theorem State.withFreq_cmd (s : State) (f : Table Word) : (s.withFreq f).cmd = s.cmd := rfl
@[simp] theorem State.withFreq_done (s : State) (f : Table Word) : (s.withFreq f).done = s.done := rfl
@[simp] theorem State.withFreq_treeOk (s : State) (f : Table Word) : (s.withFreq f).treeOk = s.treeOk := rfl
@[simp] theorem State.withFreq_err (s : State) (f : Table Word) : (s.withFreq f).err = s.err := rfl
@[simp] theorem State.withFreq_rlen (s : State) (f : Table Word) : (s.withFreq f).rlen = s.rlen := rfl
@[simp] theorem State.withFreq_plen (s : State) (f : Table Word) : (s.withFreq f).plen = s.plen := rfl
@[simp] theorem State.withFreq_pbits (s : State) (f : Table Word) : (s.withFreq f).pbits = s.pbits := rfl
@[simp] theorem State.withFreq_ubits (s : State) (f : Table Word) : (s.withFreq f).ubits = s.ubits := rfl
@[simp] theorem State.withFreq_params (s : State) (f : Table Word) : (s.withFreq f).params = s.params := rfl
@[simp] theorem State.withFreq_freq (s : State) (f : Table Word) : (s.withFreq f).freq = f := rfl
@[simp] theorem State.withFreq_tree (s : State) (f : Table Word) : (s.withFreq f).tree = s.tree := rfl
@[simp] theorem State.withFreq_code (s : State) (f : Table Word) : (s.withFreq f).code = s.code := rfl
@[simp] theorem State.withFreq_raw (s : State) (f : Table Word) : (s.withFreq f).raw = s.raw := rfl
@[simp] theorem State.withFreq_pkd (s : State) (f : Table Word) : (s.withFreq f).pkd = s.pkd := rfl
@[simp] theorem State.withFreq_draws (s : State) (f : Table Word) : (s.withFreq f).draws = s.draws := rfl
@[simp] theorem State.withFreq_schedule (s : State) (f : Table Word) : (s.withFreq f).schedule = s.schedule := rfl
@[simp] theorem State.withFreq_response (s : State) (f : Table Word) : (s.withFreq f).response = s.response := rfl

/-! `State.withTree` -/

@[simp] theorem State.withTree_engine (s : State) (t : Tree) : (s.withTree t).engine = s.engine := rfl
@[simp] theorem State.withTree_cmd (s : State) (t : Tree) : (s.withTree t).cmd = s.cmd := rfl
@[simp] theorem State.withTree_done (s : State) (t : Tree) : (s.withTree t).done = s.done := rfl
@[simp] theorem State.withTree_treeOk (s : State) (t : Tree) : (s.withTree t).treeOk = true := rfl
@[simp] theorem State.withTree_err (s : State) (t : Tree) : (s.withTree t).err = s.err := rfl
@[simp] theorem State.withTree_rlen (s : State) (t : Tree) : (s.withTree t).rlen = s.rlen := rfl
@[simp] theorem State.withTree_plen (s : State) (t : Tree) : (s.withTree t).plen = s.plen := rfl
@[simp] theorem State.withTree_pbits (s : State) (t : Tree) : (s.withTree t).pbits = s.pbits := rfl
@[simp] theorem State.withTree_ubits (s : State) (t : Tree) : (s.withTree t).ubits = s.ubits := rfl
@[simp] theorem State.withTree_params (s : State) (t : Tree) : (s.withTree t).params = s.params := rfl
@[simp] theorem State.withTree_freq (s : State) (t : Tree) : (s.withTree t).freq = s.freq := rfl
@[simp] theorem State.withTree_tree (s : State) (t : Tree) : (s.withTree t).tree = t := rfl
@[simp] theorem State.withTree_code (s : State) (t : Tree) : (s.withTree t).code = s.code := rfl
@[simp] theorem State.withTree_raw (s : State) (t : Tree) : (s.withTree t).raw = s.raw := rfl
@[simp] theorem State.withTree_pkd (s : State) (t : Tree) : (s.withTree t).pkd = s.pkd := rfl
@[simp] theorem State.withTree_draws (s : State) (t : Tree) : (s.withTree t).draws = s.draws := rfl
@[simp] theorem State.withTree_schedule (s : State) (t : Tree) : (s.withTree t).schedule = s.schedule := rfl
@[simp] theorem State.withTree_response (s : State) (t : Tree) : (s.withTree t).response = s.response := rfl

/-! `State.dropTree` -/

@[simp] theorem State.dropTree_engine (s : State) : s.dropTree.engine = s.engine := rfl
@[simp] theorem State.dropTree_cmd (s : State) : s.dropTree.cmd = s.cmd := rfl
@[simp] theorem State.dropTree_done (s : State) : s.dropTree.done = s.done := rfl
@[simp] theorem State.dropTree_treeOk (s : State) : s.dropTree.treeOk = false := rfl
@[simp] theorem State.dropTree_err (s : State) : s.dropTree.err = s.err := rfl
@[simp] theorem State.dropTree_rlen (s : State) : s.dropTree.rlen = s.rlen := rfl
@[simp] theorem State.dropTree_plen (s : State) : s.dropTree.plen = s.plen := rfl
@[simp] theorem State.dropTree_pbits (s : State) : s.dropTree.pbits = s.pbits := rfl
@[simp] theorem State.dropTree_ubits (s : State) : s.dropTree.ubits = s.ubits := rfl
@[simp] theorem State.dropTree_params (s : State) : s.dropTree.params = s.params := rfl
@[simp] theorem State.dropTree_freq (s : State) : s.dropTree.freq = s.freq := rfl
@[simp] theorem State.dropTree_tree (s : State) : s.dropTree.tree = Tree.empty := rfl
@[simp] theorem State.dropTree_code (s : State) : s.dropTree.code = s.code := rfl
@[simp] theorem State.dropTree_raw (s : State) : s.dropTree.raw = s.raw := rfl
@[simp] theorem State.dropTree_pkd (s : State) : s.dropTree.pkd = s.pkd := rfl
@[simp] theorem State.dropTree_draws (s : State) : s.dropTree.draws = s.draws := rfl
@[simp] theorem State.dropTree_schedule (s : State) : s.dropTree.schedule = s.schedule := rfl
@[simp] theorem State.dropTree_response (s : State) : s.dropTree.response = s.response := rfl

/-! `State.withCode` -/

@[simp] theorem State.withCode_engine (s : State) (c : CodeTable) : (s.withCode c).engine = s.engine := rfl
@[simp] theorem State.withCode_cmd (s : State) (c : CodeTable) : (s.withCode c).cmd = s.cmd := rfl
@[simp] theorem State.withCode_done (s : State) (c : CodeTable) : (s.withCode c).done = s.done := rfl
@[simp] theorem State.withCode_treeOk (s : State) (c : CodeTable) : (s.withCode c).treeOk = s.treeOk := rfl
@[simp] theorem State.withCode_err (s : State) (c : CodeTable) : (s.withCode c).err = s.err := rfl
@[simp] theorem State.withCode_rlen (s : State) (c : CodeTable) : (s.withCode c).rlen = s.rlen := rfl
@[simp] theorem State.withCode_plen (s : State) (c : CodeTable) : (s.withCode c).plen = s.plen := rfl
@[simp] theorem State.withCode_pbits (s : State) (c : CodeTable) : (s.withCode c).pbits = s.pbits := rfl
@[simp] theorem State.withCode_ubits (s : State) (c : CodeTable) : (s.withCode c).ubits = s.ubits := rfl
@[simp] theorem State.withCode_params (s : State) (c : CodeTable) : (s.withCode c).params = s.params := rfl
@[simp] theorem State.withCode_freq (s : State) (c : CodeTable) : (s.withCode c).freq = s.freq := rfl
@[simp] theorem State.withCode_tree (s : State) (c : CodeTable) : (s.withCode c).tree = s.tree := rfl
@[simp] theorem State.withCode_code (s : State) (c : CodeTable) : (s.withCode c).code = c := rfl
@[simp] theorem State.withCode_raw (s : State) (c : CodeTable) : (s.withCode c).raw = s.raw := rfl
@[simp] theorem State.withCode_pkd (s : State) (c : CodeTable) : (s.withCode c).pkd = s.pkd := rfl
@[simp] theorem State.withCode_draws (s : State) (c : CodeTable) : (s.withCode c).draws = s.draws := rfl
@[simp] theorem State.withCode_schedule (s : State) (c : CodeTable) : (s.withCode c).schedule = s.schedule := rfl
@[simp] theorem State.withCode_response (s : State) (c : CodeTable) : (s.withCode c).response = s.response := rfl

/-! `State.withPacked` -/

@[simp] theorem State.withPacked_engine (s : State) (m : Memory) (k n : Word) : (s.withPacked m k n).engine = s.engine := rfl
@[simp] theorem State.withPacked_cmd (s : State) (m : Memory) (k n : Word) : (s.withPacked m k n).cmd = s.cmd := rfl
@[simp] theorem State.withPacked_done (s : State) (m : Memory) (k n : Word) : (s.withPacked m k n).done = s.done := rfl
@[simp] theorem State.withPacked_treeOk (s : State) (m : Memory) (k n : Word) : (s.withPacked m k n).treeOk = s.treeOk := rfl
@[simp] theorem State.withPacked_err (s : State) (m : Memory) (k n : Word) : (s.withPacked m k n).err = s.err := rfl
@[simp] theorem State.withPacked_rlen (s : State) (m : Memory) (k n : Word) : (s.withPacked m k n).rlen = s.rlen := rfl
@[simp] theorem State.withPacked_plen (s : State) (m : Memory) (k n : Word) : (s.withPacked m k n).plen = k := rfl
@[simp] theorem State.withPacked_pbits (s : State) (m : Memory) (k n : Word) : (s.withPacked m k n).pbits = n := rfl
@[simp] theorem State.withPacked_ubits (s : State) (m : Memory) (k n : Word) : (s.withPacked m k n).ubits = s.ubits := rfl
@[simp] theorem State.withPacked_params (s : State) (m : Memory) (k n : Word) : (s.withPacked m k n).params = s.params := rfl
@[simp] theorem State.withPacked_freq (s : State) (m : Memory) (k n : Word) : (s.withPacked m k n).freq = s.freq := rfl
@[simp] theorem State.withPacked_tree (s : State) (m : Memory) (k n : Word) : (s.withPacked m k n).tree = s.tree := rfl
@[simp] theorem State.withPacked_code (s : State) (m : Memory) (k n : Word) : (s.withPacked m k n).code = s.code := rfl
@[simp] theorem State.withPacked_raw (s : State) (m : Memory) (k n : Word) : (s.withPacked m k n).raw = s.raw := rfl
@[simp] theorem State.withPacked_pkd (s : State) (m : Memory) (k n : Word) : (s.withPacked m k n).pkd = m := rfl
@[simp] theorem State.withPacked_draws (s : State) (m : Memory) (k n : Word) : (s.withPacked m k n).draws = s.draws := rfl
@[simp] theorem State.withPacked_schedule (s : State) (m : Memory) (k n : Word) : (s.withPacked m k n).schedule = s.schedule := rfl
@[simp] theorem State.withPacked_response (s : State) (m : Memory) (k n : Word) : (s.withPacked m k n).response = s.response := rfl

/-! `State.dropPacked` -/

@[simp] theorem State.dropPacked_engine (s : State) : s.dropPacked.engine = s.engine := rfl
@[simp] theorem State.dropPacked_cmd (s : State) : s.dropPacked.cmd = s.cmd := rfl
@[simp] theorem State.dropPacked_done (s : State) : s.dropPacked.done = s.done := rfl
@[simp] theorem State.dropPacked_treeOk (s : State) : s.dropPacked.treeOk = s.treeOk := rfl
@[simp] theorem State.dropPacked_err (s : State) : s.dropPacked.err = s.err := rfl
@[simp] theorem State.dropPacked_rlen (s : State) : s.dropPacked.rlen = s.rlen := rfl
@[simp] theorem State.dropPacked_plen (s : State) : s.dropPacked.plen = 0#32 := rfl
@[simp] theorem State.dropPacked_pbits (s : State) : s.dropPacked.pbits = 0#32 := rfl
@[simp] theorem State.dropPacked_ubits (s : State) : s.dropPacked.ubits = s.ubits := rfl
@[simp] theorem State.dropPacked_params (s : State) : s.dropPacked.params = s.params := rfl
@[simp] theorem State.dropPacked_freq (s : State) : s.dropPacked.freq = s.freq := rfl
@[simp] theorem State.dropPacked_tree (s : State) : s.dropPacked.tree = s.tree := rfl
@[simp] theorem State.dropPacked_code (s : State) : s.dropPacked.code = s.code := rfl
@[simp] theorem State.dropPacked_raw (s : State) : s.dropPacked.raw = s.raw := rfl
@[simp] theorem State.dropPacked_pkd (s : State) : s.dropPacked.pkd = Memory.redrawAll s.draws := rfl
@[simp] theorem State.dropPacked_draws (s : State) : s.dropPacked.draws = s.draws + 1 := rfl
@[simp] theorem State.dropPacked_schedule (s : State) : s.dropPacked.schedule = s.schedule := rfl
@[simp] theorem State.dropPacked_response (s : State) : s.dropPacked.response = s.response := rfl

/-! `State.withUnpacked` -/

@[simp] theorem State.withUnpacked_engine (s : State) (m : Memory) (n : Word) : (s.withUnpacked m n).engine = s.engine := rfl
@[simp] theorem State.withUnpacked_cmd (s : State) (m : Memory) (n : Word) : (s.withUnpacked m n).cmd = s.cmd := rfl
@[simp] theorem State.withUnpacked_done (s : State) (m : Memory) (n : Word) : (s.withUnpacked m n).done = s.done := rfl
@[simp] theorem State.withUnpacked_treeOk (s : State) (m : Memory) (n : Word) : (s.withUnpacked m n).treeOk = s.treeOk := rfl
@[simp] theorem State.withUnpacked_err (s : State) (m : Memory) (n : Word) : (s.withUnpacked m n).err = s.err := rfl
@[simp] theorem State.withUnpacked_rlen (s : State) (m : Memory) (n : Word) : (s.withUnpacked m n).rlen = s.rlen := rfl
@[simp] theorem State.withUnpacked_plen (s : State) (m : Memory) (n : Word) : (s.withUnpacked m n).plen = s.plen := rfl
@[simp] theorem State.withUnpacked_pbits (s : State) (m : Memory) (n : Word) : (s.withUnpacked m n).pbits = s.pbits := rfl
@[simp] theorem State.withUnpacked_ubits (s : State) (m : Memory) (n : Word) : (s.withUnpacked m n).ubits = n := rfl
@[simp] theorem State.withUnpacked_params (s : State) (m : Memory) (n : Word) : (s.withUnpacked m n).params = s.params := rfl
@[simp] theorem State.withUnpacked_freq (s : State) (m : Memory) (n : Word) : (s.withUnpacked m n).freq = s.freq := rfl
@[simp] theorem State.withUnpacked_tree (s : State) (m : Memory) (n : Word) : (s.withUnpacked m n).tree = s.tree := rfl
@[simp] theorem State.withUnpacked_code (s : State) (m : Memory) (n : Word) : (s.withUnpacked m n).code = s.code := rfl
@[simp] theorem State.withUnpacked_raw (s : State) (m : Memory) (n : Word) : (s.withUnpacked m n).raw = m := rfl
@[simp] theorem State.withUnpacked_pkd (s : State) (m : Memory) (n : Word) : (s.withUnpacked m n).pkd = s.pkd := rfl
@[simp] theorem State.withUnpacked_draws (s : State) (m : Memory) (n : Word) : (s.withUnpacked m n).draws = s.draws := rfl
@[simp] theorem State.withUnpacked_schedule (s : State) (m : Memory) (n : Word) : (s.withUnpacked m n).schedule = s.schedule := rfl
@[simp] theorem State.withUnpacked_response (s : State) (m : Memory) (n : Word) : (s.withUnpacked m n).response = s.response := rfl

/-! `State.dropUnpacked` -/

@[simp] theorem State.dropUnpacked_engine (s : State) : s.dropUnpacked.engine = s.engine := rfl
@[simp] theorem State.dropUnpacked_cmd (s : State) : s.dropUnpacked.cmd = s.cmd := rfl
@[simp] theorem State.dropUnpacked_done (s : State) : s.dropUnpacked.done = s.done := rfl
@[simp] theorem State.dropUnpacked_treeOk (s : State) : s.dropUnpacked.treeOk = s.treeOk := rfl
@[simp] theorem State.dropUnpacked_err (s : State) : s.dropUnpacked.err = s.err := rfl
@[simp] theorem State.dropUnpacked_rlen (s : State) : s.dropUnpacked.rlen = s.rlen := rfl
@[simp] theorem State.dropUnpacked_plen (s : State) : s.dropUnpacked.plen = s.plen := rfl
@[simp] theorem State.dropUnpacked_pbits (s : State) : s.dropUnpacked.pbits = s.pbits := rfl
@[simp] theorem State.dropUnpacked_ubits (s : State) : s.dropUnpacked.ubits = 0#32 := rfl
@[simp] theorem State.dropUnpacked_params (s : State) : s.dropUnpacked.params = s.params := rfl
@[simp] theorem State.dropUnpacked_freq (s : State) : s.dropUnpacked.freq = s.freq := rfl
@[simp] theorem State.dropUnpacked_tree (s : State) : s.dropUnpacked.tree = s.tree := rfl
@[simp] theorem State.dropUnpacked_code (s : State) : s.dropUnpacked.code = s.code := rfl
@[simp] theorem State.dropUnpacked_raw (s : State) : s.dropUnpacked.raw = s.raw.redrawBelow s.rlen.toNat s.draws := rfl
@[simp] theorem State.dropUnpacked_pkd (s : State) : s.dropUnpacked.pkd = s.pkd := rfl
@[simp] theorem State.dropUnpacked_draws (s : State) : s.dropUnpacked.draws = s.draws + 1 := rfl
@[simp] theorem State.dropUnpacked_schedule (s : State) : s.dropUnpacked.schedule = s.schedule := rfl
@[simp] theorem State.dropUnpacked_response (s : State) : s.dropUnpacked.response = s.response := rfl

/-! `State.softReset` -/

@[simp] theorem State.softReset_engine (s : State) : s.softReset.engine = .idle := rfl
@[simp] theorem State.softReset_cmd (s : State) : s.softReset.cmd = s.cmd := rfl
@[simp] theorem State.softReset_done (s : State) : s.softReset.done = true := rfl
@[simp] theorem State.softReset_treeOk (s : State) : s.softReset.treeOk = false := rfl
@[simp] theorem State.softReset_err (s : State) : s.softReset.err = FaultRecord.none := rfl
@[simp] theorem State.softReset_rlen (s : State) : s.softReset.rlen = 0#32 := rfl
@[simp] theorem State.softReset_plen (s : State) : s.softReset.plen = 0#32 := rfl
@[simp] theorem State.softReset_pbits (s : State) : s.softReset.pbits = 0#32 := rfl
@[simp] theorem State.softReset_ubits (s : State) : s.softReset.ubits = 0#32 := rfl
@[simp] theorem State.softReset_params (s : State) : s.softReset.params = s.params := rfl
@[simp] theorem State.softReset_freq (s : State) : s.softReset.freq = zeroFreq := rfl
@[simp] theorem State.softReset_tree (s : State) : s.softReset.tree = Tree.empty := rfl
@[simp] theorem State.softReset_code (s : State) : s.softReset.code = CodeTable.empty := rfl
@[simp] theorem State.softReset_raw (s : State) : s.softReset.raw = s.raw := rfl
@[simp] theorem State.softReset_pkd (s : State) : s.softReset.pkd = s.pkd := rfl
@[simp] theorem State.softReset_draws (s : State) : s.softReset.draws = s.draws := rfl
@[simp] theorem State.softReset_schedule (s : State) : s.softReset.schedule = s.schedule := rfl
@[simp] theorem State.softReset_response (s : State) : s.softReset.response = s.response := rfl

/-! `State.hardReset` -/

@[simp] theorem State.hardReset_engine (s : State) : s.hardReset.engine = .idle := rfl
@[simp] theorem State.hardReset_cmd (s : State) : s.hardReset.cmd = 0#32 := rfl
@[simp] theorem State.hardReset_done (s : State) : s.hardReset.done = false := rfl
@[simp] theorem State.hardReset_treeOk (s : State) : s.hardReset.treeOk = false := rfl
@[simp] theorem State.hardReset_err (s : State) : s.hardReset.err = FaultRecord.none := rfl
@[simp] theorem State.hardReset_rlen (s : State) : s.hardReset.rlen = 0#32 := rfl
@[simp] theorem State.hardReset_plen (s : State) : s.hardReset.plen = 0#32 := rfl
@[simp] theorem State.hardReset_pbits (s : State) : s.hardReset.pbits = 0#32 := rfl
@[simp] theorem State.hardReset_ubits (s : State) : s.hardReset.ubits = 0#32 := rfl
@[simp] theorem State.hardReset_params (s : State) : s.hardReset.params = s.params := rfl
@[simp] theorem State.hardReset_freq (s : State) : s.hardReset.freq = zeroFreq := rfl
@[simp] theorem State.hardReset_tree (s : State) : s.hardReset.tree = Tree.empty := rfl
@[simp] theorem State.hardReset_code (s : State) : s.hardReset.code = CodeTable.empty := rfl
@[simp] theorem State.hardReset_raw (s : State) : s.hardReset.raw = Memory.ofDraw s.draws := rfl
@[simp] theorem State.hardReset_pkd (s : State) : s.hardReset.pkd = Memory.ofDraw (s.draws + 1) := rfl
@[simp] theorem State.hardReset_draws (s : State) : s.hardReset.draws = s.draws + 2 := rfl
@[simp] theorem State.hardReset_schedule (s : State) : s.hardReset.schedule = s.schedule := rfl
@[simp] theorem State.hardReset_response (s : State) : s.hardReset.response = s.response := rfl

end Sys2Proof.Machine
end

