-- ==== Sys2Proof/Laws/Memory.lean ====
section
/-! SUPPORT. What the operations on a byte buffer do: reading after writing, after a redraw, and that all of them keep the canonical
form and stay within the buffer. -/

namespace Sys2Proof.Machine

theorem cellAt_putCell_same (a : Nat) (b : Byte) (l : List Host.Cell) : cellAt (putCell a b l) a = some b := by
  induction l with
  | nil => simp [putCell, cellAt]
  | cons c rest ih =>
    obtain ⟨k, v⟩ := c
    by_cases h1 : a < k
    · simp [putCell, cellAt, h1]
    · by_cases h2 : a = k
      · simp [putCell, cellAt, h2]
      · simp [putCell, cellAt, h1, h2, Ne.symm h2, ih]

theorem cellAt_putCell_other {a x : Nat} (b : Byte) (l : List Host.Cell) (h : x ≠ a) :
    cellAt (putCell a b l) x = cellAt l x := by
  induction l with
  | nil => simp [putCell, cellAt, Ne.symm h]
  | cons c rest ih =>
    obtain ⟨k, v⟩ := c
    by_cases h1 : a < k
    · simp [putCell, cellAt, h1, Ne.symm h]
    · by_cases h2 : a = k
      · subst h2
        simp [putCell, cellAt, Ne.symm h]
      · simp [putCell, cellAt, h1, h2, ih]

@[simp] theorem Memory.write_drawn (m : Memory) (a : Nat) (b : Byte) : (m.write a b).drawn = m.drawn := rfl

@[simp] theorem Memory.write_base (m : Memory) (a : Nat) (b : Byte) : (m.write a b).base = m.base := rfl

@[simp] theorem Memory.write_cells (m : Memory) (a : Nat) (b : Byte) : (m.write a b).cells = putCell a b m.cells := rfl

@[simp] theorem Memory.read_write_same (m : Memory) (a : Nat) (b : Byte) : (m.write a b).read a = b := by
  simp [Memory.read, cellAt_putCell_same]

theorem Memory.read_write_other (m : Memory) {a x : Nat} (b : Byte) (h : x ≠ a) : (m.write a b).read x = m.read x := by
  simp [Memory.read, Memory.unlisted, cellAt_putCell_other b m.cells h]

/-- A read after a write: the written byte at its address, what was there before elsewhere. -/
theorem Memory.read_write (m : Memory) (a x : Nat) (b : Byte) :
    (m.write a b).read x = if x = a then b else m.read x := by
  split
  · next h => rw [h, Memory.read_write_same]
  · next h => exact Memory.read_write_other m b h

theorem cellAt_filter_ge {n a : Nat} (l : List Host.Cell) (h : n ≤ a) :
    cellAt (l.filter fun c => decide (n ≤ c.1)) a = cellAt l a := by
  induction l with
  | nil => rfl
  | cons c rest ih =>
    obtain ⟨k, v⟩ := c
    by_cases hk : n ≤ k
    · simp [List.filter, hk, cellAt, ih]
    · have : k ≠ a := by omega
      simp [List.filter, hk, cellAt, ih, this]

theorem cellAt_filter_lt {n a : Nat} (l : List Host.Cell) (h : a < n) :
    cellAt (l.filter fun c => decide (n ≤ c.1)) a = none := by
  induction l with
  | nil => rfl
  | cons c rest ih =>
    obtain ⟨k, v⟩ := c
    by_cases hk : n ≤ k
    · have : k ≠ a := by omega
      simp [List.filter, hk, cellAt, ih, this]
    · simp [List.filter, hk, ih]

theorem drawAt_filter {n a base : Nat} (l : List (Nat × Nat)) (h : n ≤ a) :
    drawAt (l.filter fun d => decide (n < d.1)) base a = drawAt l base a := by
  induction l with
  | nil => rfl
  | cons d rest ih =>
    obtain ⟨k, v⟩ := d
    by_cases hk : n < k
    · simp [List.filter, hk, drawAt, ih]
    · have : ¬ a < k := by omega
      simp [List.filter, hk, drawAt, ih, this]

/-- A redraw of the bytes below `n` leaves the bytes from `n` on. -/
theorem Memory.read_redrawBelow_ge (m : Memory) {n a : Nat} (k : Nat) (h : n ≤ a) :
    (m.redrawBelow n k).read a = m.read a := by
  have h' : ¬ a < n := by omega
  simp [Memory.read, Memory.redrawBelow, Memory.unlisted, drawAt, h', cellAt_filter_ge _ h, drawAt_filter _ h]

/-- A redraw of the bytes below `n` makes each of them the free byte of the new draw. -/
theorem Memory.read_redrawBelow_lt (m : Memory) {n a : Nat} (k : Nat) (h : a < n) :
    (m.redrawBelow n k).read a = Config.freeByte k a := by
  simp [Memory.read, Memory.redrawBelow, Memory.unlisted, drawAt, h, cellAt_filter_lt _ h]

/-! ### The canonical form -/

theorem risingFrom_some (lo : Nat) (l : List Nat) :
    risingFrom (some lo) l = true ↔ (∀ x ∈ l, lo < x) ∧ risingFrom none l = true := by
  induction l generalizing lo with
  | nil => simp [risingFrom]
  | cons a rest ih =>
    simp only [risingFrom, Bool.and_eq_true, decide_eq_true_eq, List.mem_cons, forall_eq_or_imp]
    constructor
    · rintro ⟨h1, h2⟩
      exact ⟨⟨h1, fun x hx => lt_trans h1 (((ih a).1 h2).1 x hx)⟩, h2⟩
    · rintro ⟨⟨h1, _⟩, h2⟩
      exact ⟨h1, h2⟩

/-- The form in Mathlib's words: strictly rising is pairwise `<`. -/
theorem risingFrom_none_iff (l : List Nat) : risingFrom none l = true ↔ l.Pairwise (· < ·) := by
  induction l with
  | nil => simp [risingFrom]
  | cons a rest ih =>
    rw [risingFrom, risingFrom_some, List.pairwise_cons, ih]

theorem mem_putCell {a : Nat} {b : Byte} {l : List Host.Cell} {c : Host.Cell} (h : c ∈ putCell a b l) : c = (a, b) ∨ c ∈ l := by
  induction l with
  | nil => simpa [putCell] using h
  | cons d rest ih =>
    obtain ⟨k, v⟩ := d
    simp only [putCell] at h
    split at h
    · simpa using h
    · split at h
      · simp only [List.mem_cons] at h ⊢
        tauto
      · simp only [List.mem_cons] at h ⊢
        rcases h with h | h
        · exact .inr (.inl h)
        · exact (ih h).imp_right .inr

theorem putCell_pairwise (a : Nat) (b : Byte) (l : List Host.Cell) (h : (l.map Prod.fst).Pairwise (· < ·)) :
    ((putCell a b l).map Prod.fst).Pairwise (· < ·) := by
  induction l with
  | nil => simp [putCell]
  | cons d rest ih =>
    obtain ⟨k, v⟩ := d
    simp only [List.map_cons, List.pairwise_cons] at h
    obtain ⟨h1, h2⟩ := h
    simp only [putCell]
    split
    · next hlt =>
      simp only [List.map_cons, List.pairwise_cons, List.mem_cons, forall_eq_or_imp]
      exact ⟨⟨hlt, fun x hx => lt_trans hlt (h1 x hx)⟩, h1, h2⟩
    · split
      · next heq =>
        subst heq
        simp only [List.map_cons, List.pairwise_cons]
        exact ⟨h1, h2⟩
      · next hne1 hne2 =>
        simp only [List.map_cons, List.pairwise_cons]
        refine ⟨fun x hx => ?_, ih h2⟩
        obtain ⟨c, hc, rfl⟩ := List.mem_map.1 hx
        rcases mem_putCell hc with rfl | hc
        · show k < a
          omega
        · exact h1 _ (List.mem_map_of_mem hc)

/-- The canonical form as two pairwise facts. -/
theorem Memory.wf_iff (m : Memory) :
    m.wf = true ↔ (m.cells.map Prod.fst).Pairwise (· < ·) ∧ (m.drawn.map Prod.fst).Pairwise (· < ·) := by
  simp [Memory.wf, risingFrom_none_iff]

/-- A write keeps the canonical form. -/
theorem Memory.wf_write {m : Memory} (a : Nat) (b : Byte) (h : m.wf = true) : (m.write a b).wf = true := by
  rw [Memory.wf_iff] at h ⊢
  exact ⟨putCell_pairwise a b _ h.1, h.2⟩

/-- A redraw keeps the canonical form. -/
theorem Memory.wf_redrawBelow {m : Memory} (n k : Nat) (h : m.wf = true) : (m.redrawBelow n k).wf = true := by
  rw [Memory.wf_iff] at h ⊢
  obtain ⟨h1, h2⟩ := h
  refine ⟨?_, ?_⟩
  · exact h1.sublist ((List.filter_sublist).map _)
  · simp only [Memory.redrawBelow, List.map_cons, List.pairwise_cons]
    refine ⟨fun x hx => ?_, h2.sublist ((List.filter_sublist).map _)⟩
    obtain ⟨d, hd, rfl⟩ := List.mem_map.1 hx
    simpa using (List.mem_filter.1 hd).2

@[simp] theorem Memory.wf_ofDraw (k : Nat) : (Memory.ofDraw k).wf = true := rfl

/-- Memory at reset has the canonical form. -/
theorem State.reset_memory_wf : State.reset.raw.wf = true ∧ State.reset.pkd.wf = true := ⟨rfl, rfl⟩

theorem Memory.within_iff (m : Memory) (size : Nat) : m.within size = true ↔ ∀ c ∈ m.cells, c.1 < size := by
  simp [Memory.within]

/-- A write below `size` stays within. -/
theorem Memory.within_write {m : Memory} {a size : Nat} (b : Byte) (h : m.within size = true) (ha : a < size) :
    (m.write a b).within size = true := by
  rw [Memory.within_iff] at h ⊢
  intro c hc
  rcases mem_putCell hc with rfl | hc
  · exact ha
  · exact h c hc

theorem Memory.within_redrawBelow {m : Memory} {size : Nat} (n k : Nat) (h : m.within size = true) :
    (m.redrawBelow n k).within size = true := by
  rw [Memory.within_iff] at h ⊢
  intro c hc
  exact h c (List.mem_filter.1 hc).1

@[simp] theorem Memory.within_ofDraw (k size : Nat) : (Memory.ofDraw k).within size = true := rfl

@[simp] theorem Memory.length_firstBytes (m : Memory) (n : Nat) : (m.firstBytes n).length = n := by
  simp [Memory.firstBytes]

@[simp] theorem Memory.getElem_firstBytes (m : Memory) (n k : Nat) (h : k < (m.firstBytes n).length) :
    (m.firstBytes n)[k] = m.read k := by
  simp [Memory.firstBytes]

theorem Memory.firstBytes_succ (m : Memory) (n : Nat) : m.firstBytes (n + 1) = m.firstBytes n ++ [m.read n] := by
  simp [Memory.firstBytes, List.range_succ]

end Sys2Proof.Machine
end

