-- ==== Sys2Proof/Laws/Tables.lean ====
section
/-! SUPPORT. Tables indexed by a symbol: reading after writing, the list of all symbols, the entries of a table. -/

namespace Sys2Proof.Machine

@[simp] theorem entryAt_putEntry_same (t : Table α) (s : Sym) (x : α) : entryAt (putEntry t s x) s = x := by
  simp [entryAt, putEntry]

theorem entryAt_putEntry_other (t : Table α) {s y : Sym} (x : α) (h : y ≠ s) : entryAt (putEntry t s x) y = entryAt t y := by
  have : s.toNat ≠ y.toNat := fun e => h (BitVec.eq_of_toNat_eq e.symm)
  simp [entryAt, putEntry, this]

/-- A table read after one write. -/
theorem entryAt_putEntry (t : Table α) (s y : Sym) (x : α) :
    entryAt (putEntry t s x) y = if y = s then x else entryAt t y := by
  split
  · next h => rw [h, entryAt_putEntry_same]
  · next h => exact entryAt_putEntry_other t x h

@[simp] theorem entryAt_replicate (x : α) (s : Sym) : entryAt (Vector.replicate 256 x) s = x := by
  simp [entryAt]

/-- Tables with equal entries are equal. -/
theorem table_ext {t u : Table α} (h : ∀ s, entryAt t s = entryAt u s) : t = u := by
  ext i hi
  have := h (BitVec.ofNat 8 i)
  have e : i % 256 = i := Nat.mod_eq_of_lt hi
  simpa [entryAt, e] using this

@[simp] theorem length_symbols : symbols.length = 256 := by simp [symbols]

@[simp] theorem getElem_symbols (k : Nat) (h : k < symbols.length) : symbols[k] = BitVec.ofNat 8 k := by
  simp [symbols]

@[simp] theorem mem_symbols (s : Sym) : s ∈ symbols := by
  simp only [symbols, List.mem_map, List.mem_range]
  exact ⟨s.toNat, s.isLt, by simp⟩

/-- The symbols are listed in ascending order. -/
theorem symbols_pairwise : symbols.Pairwise (· < ·) := by
  rw [List.pairwise_iff_getElem]
  intro i j hi hj hij
  simp only [length_symbols] at hi hj
  simp only [getElem_symbols, BitVec.lt_def, BitVec.toNat_ofNat]
  omega

theorem symbols_nodup : symbols.Nodup :=
  symbols_pairwise.imp fun h e => by
    subst e
    simp at h

/-- The entries of a table are its symbols, each with its value. -/
theorem entriesOf_eq (t : Table α) : entriesOf t = symbols.map fun s => (s, entryAt t s) := by
  apply List.ext_getElem
  · simp [entriesOf]
  · intro k h1 h2
    have hk : k < 256 := by simpa using h2
    have e : k % 256 = k := Nat.mod_eq_of_lt hk
    simp [entriesOf, entryAt, e]

end Sys2Proof.Machine
end

