-- ==== Sys2Proof/Laws/Bits.lean ====
section
/-! SUPPORT. Bits: what shifting a bit sequence into a register leaves, the word image of a code and its reading back, payload bits. -/

namespace Sys2Proof.Machine

/-- Bits shifted in one by one: the last one is bit 0, the old contents move up. -/
theorem getLsbD_foldl_shiftConcat {n : Nat} (bs : Bits) (acc : BitVec n) (i : Nat) (hi : i < n) :
    (bs.foldl BitVec.shiftConcat acc).getLsbD i =
      if h : i < bs.length then bs[bs.length - 1 - i] else acc.getLsbD (i - bs.length) := by
  induction bs generalizing acc with
  | nil => simp
  | cons b rest ih =>
    rw [List.foldl_cons, ih]
    by_cases h1 : i < rest.length
    · have h2 : i < (b :: rest).length := by simp; omega
      rw [dif_pos h1, dif_pos h2]
      have e : rest.length - i = (rest.length - 1 - i) + 1 := by omega
      simp [e]
    · rw [dif_neg h1]
      by_cases h3 : i = rest.length
      · have h2 : i < (b :: rest).length := by simp; omega
        have hn : 0 < n := by omega
        rw [dif_pos h2]
        simp [h3, hn]
      · have h2 : ¬ i < (b :: rest).length := by simp; omega
        have h4 : i - rest.length ≠ 0 := by omega
        have h5 : i - rest.length < n := by omega
        have e : i - rest.length - 1 = i - (b :: rest).length := by simp; omega
        rw [dif_neg h2, BitVec.getLsbD_shiftConcat, e]
        simp [h4, h5]

/-- Bit 31 − m of image word `w` is code bit 32w + m, zero beyond the code (R99 of 30_encoding.md). -/
theorem getLsbD_imageWord (c : Bits) (w m : Nat) (hm : m < 32) :
    (imageWord c w).getLsbD (31 - m) = c.getD (32 * w + m) false := by
  have e : imageWord c w = ((List.range 32).map fun m => c.getD (32 * w + m) false).foldl BitVec.shiftConcat 0#32 := by
    rw [imageWord, List.foldl_map]
  rw [e, getLsbD_foldl_shiftConcat _ _ _ (by omega), dif_pos (by simp; omega)]
  have : 32 - 1 - (31 - m) = m := by omega
  simp [this]

theorem getElem?_wordImage (c : Bits) (w : Nat) (hw : w < 8) : (wordImage c)[w]? = some (imageWord c w) := by
  have h : w = 0 ∨ w = 1 ∨ w = 2 ∨ w = 3 ∨ w = 4 ∨ w = 5 ∨ w = 6 ∨ w = 7 := by omega
  rcases h with h | h | h | h | h | h | h | h <;> subst h <;> rfl

@[simp] theorem CodeTable.lenOf_store_same (t : CodeTable) (x : Sym) (c : Bits) : (t.store x c).lenOf x = c.length % 256 := by
  simp [CodeTable.lenOf, CodeTable.store]

theorem CodeTable.lenOf_store_other (t : CodeTable) {x y : Sym} (c : Bits) (h : y ≠ x) : (t.store x c).lenOf y = t.lenOf y := by
  simp [CodeTable.lenOf, CodeTable.store, entryAt_putEntry_other _ _ h]

theorem CodeTable.wordOf_store_same (t : CodeTable) (x : Sym) (c : Bits) (w : Nat) (hw : w < 8) :
    (t.store x c).wordOf x w = imageWord c w := by
  simp [CodeTable.wordOf, CodeTable.store, getElem?_wordImage c w hw]

theorem CodeTable.wordOf_store_other (t : CodeTable) {x y : Sym} (c : Bits) (w : Nat) (h : y ≠ x) :
    (t.store x c).wordOf y w = t.wordOf y w := by
  simp [CodeTable.wordOf, CodeTable.store, entryAt_putEntry_other _ _ h]

/-- A stored entry's bit `j`: the code's, zero beyond it. -/
theorem CodeTable.codebit_store_same (t : CodeTable) (x : Sym) (c : Bits) (j : Nat) (hj : j < 256) :
    (t.store x c).codebit x j = c.getD j false := by
  have e : 32 * (j / 32) + j % 32 = j := by omega
  rw [CodeTable.codebit, CodeTable.wordOf_store_same _ _ _ _ (by omega), getLsbD_imageWord _ _ _ (by omega), e]

theorem CodeTable.codebit_store_other (t : CodeTable) {x y : Sym} (c : Bits) (j : Nat) (h : y ≠ x) :
    (t.store x c).codebit y j = t.codebit y j := by
  rw [CodeTable.codebit, CodeTable.wordOf_store_other _ _ _ h, CodeTable.codebit]

theorem CodeTable.codeOf_store_other (t : CodeTable) {x y : Sym} (c : Bits) (h : y ≠ x) :
    (t.store x c).codeOf y = t.codeOf y := by
  simp only [CodeTable.codeOf, CodeTable.lenOf_store_other t c h]
  exact List.map_congr_left fun j _ => CodeTable.codebit_store_other t c j h

@[simp] theorem CodeTable.length_codeOf (c : CodeTable) (s : Sym) : (c.codeOf s).length = c.lenOf s := by
  simp [CodeTable.codeOf]

theorem CodeTable.lenOf_le (c : CodeTable) (s : Sym) : c.lenOf s ≤ 255 := by
  have := (entryAt c.len s).isLt
  simp only [CodeTable.lenOf]
  omega

@[simp] theorem CodeTable.lenOf_empty (s : Sym) : CodeTable.empty.lenOf s = 0 := by
  simp [CodeTable.lenOf, CodeTable.empty]

@[simp] theorem CodeTable.codeOf_empty (s : Sym) : CodeTable.empty.codeOf s = [] := by
  simp [CodeTable.codeOf]

theorem CodeTable.wordOf_empty (s : Sym) (w : Nat) : CodeTable.empty.wordOf s w = 0#32 := by
  by_cases h : w < 8 <;> simp [CodeTable.wordOf, CodeTable.empty, h]

theorem CodeTable.codebit_empty (s : Sym) (j : Nat) : CodeTable.empty.codebit s j = false := by
  simp [CodeTable.codebit, CodeTable.wordOf_empty]

/-- A payload starting with a longer sequence starts with the shorter one. -/
theorem Memory.StartsWith.left {m : Memory} {a b : Bits} (h : m.StartsWith (a ++ b)) : m.StartsWith a := by
  intro p hp
  have := h p (by simp; omega)
  rw [this, List.getElem_append_left hp]

/-- The payload bit after a sequence the payload starts with. -/
theorem Memory.StartsWith.payloadBit {m : Memory} {a : Bits} (h : m.StartsWith a) (p : Nat) (hp : p < a.length) :
    m.payloadBit p = a[p] := h p hp

/-- Counts that fit a 32-bit register are stored as they are. -/
theorem word32_eq {n : Nat} (h : n < 2 ^ 32) : word32 n = BitVec.ofNat 32 n := by
  rw [word32, if_pos h]

end Sys2Proof.Machine
end

