-- ==== Sys2Proof/Laws/Tree.lean ====
section
/-! SUPPORT. Following bit sequences down a tree, what the tree invariant gives at once, and the empty tree. -/

namespace Sys2Proof.Machine

@[simp] theorem Tree.follow_nil (t : Tree) (i : NodeIdx) : t.follow i [] = some i := rfl

theorem Tree.follow_cons (t : Tree) (i : NodeIdx) (b : Bool) (rest : Bits) :
    t.follow i (b :: rest) = (t.childAt i b).bind fun c => t.follow c rest := by
  rw [Tree.follow]
  cases t.childAt i b <;> rfl

theorem Tree.follow_append (t : Tree) (i : NodeIdx) (p q : Bits) :
    t.follow i (p ++ q) = (t.follow i p).bind fun j => t.follow j q := by
  induction p generalizing i with
  | nil => rfl
  | cons b rest ih =>
    rw [List.cons_append, Tree.follow_cons, Tree.follow_cons]
    cases t.childAt i b with
    | none => rfl
    | some c => simp [ih]

/-- A path extended by one bit. -/
theorem Tree.follow_snoc (t : Tree) (i : NodeIdx) (p : Bits) (b : Bool) :
    t.follow i (p ++ [b]) = (t.follow i p).bind fun j => t.childAt j b := by
  rw [Tree.follow_append]
  congr 1
  funext j
  rw [Tree.follow_cons]
  cases t.childAt j b <;> rfl

/-- A record with a child is a record of the tree, and no leaf. -/
theorem TreeInv.parent_internal {t : Tree} (h : TreeInv t) {i c : NodeIdx} {b : Bool} (hc : t.childAt i b = some c) :
    t.Used i ∧ (t.nodeAt i).leaf = false := by
  by_cases hu : t.Used i
  · refine ⟨hu, ?_⟩
    by_contra hl
    have := h.leaf_links i b ⟨hu, by simpa using hl⟩
    rw [this] at hc
    exact absurd hc (by simp)
  · have := (h.unused_zero i hu).2 b
    rw [this] at hc
    exact absurd hc (by simp)

theorem TreeInv.child_isUsed {t : Tree} (h : TreeInv t) {i c : NodeIdx} {b : Bool} (hc : t.childAt i b = some c) :
    t.Used c ∧ c ≠ t.root :=
  h.child_used i b c (h.parent_internal hc).1 hc

/-- A path from a record of the tree ends in one. -/
theorem TreeInv.follow_used {t : Tree} (h : TreeInv t) {i j : NodeIdx} (hi : t.Used i) {p : Bits} (hp : t.follow i p = some j) :
    t.Used j := by
  induction p generalizing i with
  | nil => simpa using (Option.some.inj hp) ▸ hi
  | cons b rest ih =>
    rw [Tree.follow_cons] at hp
    cases hc : t.childAt i b with
    | none => rw [hc] at hp; exact absurd hp (by simp)
    | some c =>
      rw [hc] at hp
      exact ih (h.child_isUsed hc).1 hp

/-- A path that goes on from a leaf ends there. -/
theorem TreeInv.follow_leaf {t : Tree} (h : TreeInv t) {i j : NodeIdx} (hi : (t.nodeAt i).leaf = true) {p : Bits}
    (hp : t.follow i p = some j) : p = [] := by
  cases p with
  | nil => rfl
  | cons b rest =>
    rw [Tree.follow_cons] at hp
    cases hc : t.childAt i b with
    | none => rw [hc] at hp; exact absurd hp (by simp)
    | some c =>
      have := (h.parent_internal hc).2
      rw [hi] at this
      exact absurd this (by simp)

/-- The paths from the root to one record are one path. -/
theorem TreeInv.path_unique {t : Tree} (h : TreeInv t) {p q : Bits} {i : NodeIdx} (hp : t.follow t.root p = some i)
    (hq : t.follow t.root q = some i) : p = q := by
  induction p using List.reverseRecOn generalizing q i with
  | nil =>
    have hi : i = t.root := (Option.some.inj hp).symm
    induction q using List.reverseRecOn with
    | nil => rfl
    | append_singleton q b _ =>
      rw [Tree.follow_snoc] at hq
      cases hj : t.follow t.root q with
      | none => rw [hj] at hq; exact absurd hq (by simp)
      | some j =>
        rw [hj] at hq
        exact absurd hi (h.child_isUsed hq).2
  | append_singleton p b ih =>
    rw [Tree.follow_snoc] at hp
    cases hj : t.follow t.root p with
    | none => rw [hj] at hp; exact absurd hp (by simp)
    | some j =>
      rw [hj] at hp
      have hp : t.childAt j b = some i := hp
      induction q using List.reverseRecOn with
      | nil =>
        have hi : i = t.root := (Option.some.inj hq).symm
        exact absurd hi (h.child_isUsed hp).2
      | append_singleton q b' _ =>
        rw [Tree.follow_snoc] at hq
        cases hj' : t.follow t.root q with
        | none => rw [hj'] at hq; exact absurd hq (by simp)
        | some j' =>
          rw [hj'] at hq
          have hq : t.childAt j' b' = some i := hq
          obtain ⟨e1, e2⟩ := h.parent_unique j b j' b' i (h.parent_internal hp).1 (h.parent_internal hq).1 hp hq
          subst e1
          rw [ih hj hj', e2]

@[simp] theorem Tree.empty_nodeAt (i : NodeIdx) : Tree.empty.nodeAt i = NodeRec.zero := by
  simp [Tree.nodeAt, Tree.empty]

@[simp] theorem Tree.empty_childAt (i : NodeIdx) (b : Bool) : Tree.empty.childAt i b = none := by
  cases b <;> simp [Tree.childAt, Tree.empty, LinkPair.child, LinkPair.none]

@[simp] theorem Tree.empty_nnodes : Tree.empty.nnodes = 0#9 := rfl

theorem Tree.not_used_of_zero {t : Tree} (h : t.nnodes = 0#9) (i : NodeIdx) : ¬ t.Used i := by
  simp [Tree.Used, h]

/-- The empty tree meets the tree invariant. -/
theorem Tree.empty_inv : TreeInv Tree.empty := by
  have hu : ∀ i, ¬ Tree.empty.Used i := Tree.not_used_of_zero rfl
  constructor
  · show (0#9).toNat = _
    simp [Tree.leafCount]
  · simp [Tree.empty]
  · intro _; exact ⟨rfl, rfl⟩
  · intro h; exact absurd rfl h
  · intro i b c h; exact absurd h (hu i)
  · intro i b j b' c h; exact absurd h (hu i)
  · intro i h; exact absurd h (hu i)
  · intro i b h; simp
  · intro i h; exact absurd h (hu i)
  · intro i j h; exact absurd h.1 (hu i)
  · intro h; exact absurd rfl h
  · intro i _; simp

end Sys2Proof.Machine
end

