-- ==== Sys2Proof/Laws/Arena.lean ====
section
/-! SUPPORT. The arena operations of BUILD and TRIE: what a record and a link read as after a push, an attach and a grow. -/

namespace Sys2Proof.Machine

/-- NODE[i] of the arena. -/
def Arena.recAt (a : Arena) (i : NodeIdx) : NodeRec := a.node[i.val]'i.isLt

/-- LINK[i] of the arena. -/
def Arena.pairAt (a : Arena) (i : NodeIdx) : LinkPair := a.link[i.val]'i.isLt

theorem Arena.freqAt_eq (a : Arena) (i : NodeIdx) : a.freqAt i = (a.recAt i).freq := rfl

theorem Arena.leafAt_eq (a : Arena) (i : NodeIdx) : a.leafAt i = (a.recAt i).leaf := rfl

theorem Arena.childAt_eq (a : Arena) (i : NodeIdx) (b : Bool) : a.childAt i b = (a.pairAt i).child b := rfl

@[simp] theorem Arena.toTree_nodeAt (a : Arena) (r i : NodeIdx) : (a.toTree r).nodeAt i = a.recAt i := rfl

@[simp] theorem Arena.toTree_childAt (a : Arena) (r i : NodeIdx) (b : Bool) : (a.toTree r).childAt i b = a.childAt i b := rfl

@[simp] theorem Arena.toTree_root (a : Arena) (r : NodeIdx) : (a.toTree r).root = r := rfl

@[simp] theorem Arena.toTree_nnodes (a : Arena) (r : NodeIdx) : (a.toTree r).nnodes = BitVec.ofNat 9 a.next := rfl

@[simp] theorem Arena.toTree_nleaf (a : Arena) (r : NodeIdx) : (a.toTree r).nleaf = BitVec.ofNat 9 a.leaves := rfl

@[simp] theorem Arena.recAt_clear (i : NodeIdx) : Arena.clear.recAt i = NodeRec.zero := by
  simp [Arena.recAt, Arena.clear, Tree.empty]

@[simp] theorem Arena.pairAt_clear (i : NodeIdx) : Arena.clear.pairAt i = LinkPair.none := by
  simp [Arena.pairAt, Arena.clear, Tree.empty]

@[simp] theorem LinkPair.child_none (b : Bool) : LinkPair.none.child b = Option.none := by cases b <;> rfl

@[simp] theorem Arena.childAt_clear (i : NodeIdx) (b : Bool) : Arena.clear.childAt i b = none := by
  simp [Arena.childAt_eq]

@[simp] theorem Arena.clear_next : Arena.clear.next = 0 := rfl

@[simp] theorem Arena.clear_leaves : Arena.clear.leaves = 0 := rfl

@[simp] theorem Arena.push_next (a : Arena) (r : NodeRec) (l : LinkPair) : (a.push r l).next = a.next + 1 := rfl

@[simp] theorem Arena.push_leaves (a : Arena) (r : NodeRec) (l : LinkPair) :
    (a.push r l).leaves = if r.leaf then a.leaves + 1 else a.leaves := rfl

theorem Arena.recAt_push (a : Arena) (r : NodeRec) (l : LinkPair) (i : NodeIdx) :
    (a.push r l).recAt i = if i.val = a.next then r else a.recAt i := by
  simp only [Arena.recAt, Arena.push, Vector.getElem_setIfInBounds, eq_comm]

theorem Arena.pairAt_push (a : Arena) (r : NodeRec) (l : LinkPair) (i : NodeIdx) :
    (a.push r l).pairAt i = if i.val = a.next then l else a.pairAt i := by
  simp only [Arena.pairAt, Arena.push, Vector.getElem_setIfInBounds, eq_comm]

theorem Arena.childAt_push (a : Arena) (r : NodeRec) (l : LinkPair) (i : NodeIdx) (b : Bool) :
    (a.push r l).childAt i b = if i.val = a.next then l.child b else a.childAt i b := by
  rw [Arena.childAt_eq, Arena.pairAt_push]
  split <;> rfl

@[simp] theorem Arena.attach_next (a : Arena) (i : NodeIdx) (b : Bool) (c : NodeIdx) : (a.attach i b c).next = a.next := rfl

@[simp] theorem Arena.attach_leaves (a : Arena) (i : NodeIdx) (b : Bool) (c : NodeIdx) : (a.attach i b c).leaves = a.leaves := rfl

@[simp] theorem Arena.recAt_attach (a : Arena) (i : NodeIdx) (b : Bool) (c j : NodeIdx) : (a.attach i b c).recAt j = a.recAt j := rfl

theorem LinkPair.child_withChild (l : LinkPair) (b b' : Bool) (c : NodeIdx) :
    (l.withChild b c).child b' = if b' = b then some c else l.child b' := by
  cases b <;> cases b' <;> rfl

theorem Arena.childAt_attach (a : Arena) (i : NodeIdx) (b : Bool) (c j : NodeIdx) (b' : Bool) :
    (a.attach i b c).childAt j b' = if j = i ∧ b' = b then some c else a.childAt j b' := by
  by_cases h : j = i
  · subst h
    simp [Arena.childAt, Arena.attach, LinkPair.child_withChild]
  · have : i.val ≠ j.val := fun e => h (Fin.ext e.symm)
    simp [Arena.childAt, Arena.attach, this, h]

/-- The index the next record gets is the count of records, while there is room. -/
theorem Arena.nextIdx_val {a : Arena} (h : a.next < 511) : a.nextIdx.val = a.next := by
  simp [Arena.nextIdx, Fin.ofNat, Nat.mod_eq_of_lt h]

theorem Arena.eq_nextIdx {a : Arena} (h : a.next < 511) (i : NodeIdx) : i.val = a.next ↔ i = a.nextIdx := by
  rw [← Arena.nextIdx_val h]
  exact ⟨fun e => Fin.ext e, fun e => e ▸ rfl⟩

@[simp] theorem Arena.grow_next (a : Arena) (cur : NodeIdx) (b : Bool) (r : NodeRec) : (a.grow cur b r).next = a.next + 1 := rfl

@[simp] theorem Arena.grow_leaves (a : Arena) (cur : NodeIdx) (b : Bool) (r : NodeRec) :
    (a.grow cur b r).leaves = if r.leaf then a.leaves + 1 else a.leaves := rfl

theorem Arena.recAt_grow {a : Arena} (h : a.next < 511) (cur : NodeIdx) (b : Bool) (r : NodeRec) (i : NodeIdx) :
    (a.grow cur b r).recAt i = if i = a.nextIdx then r else a.recAt i := by
  rw [Arena.grow, Arena.recAt_attach, Arena.recAt_push]
  simp only [Arena.eq_nextIdx h]

theorem Arena.childAt_grow {a : Arena} (h : a.next < 511) (cur : NodeIdx) (b : Bool) (r : NodeRec) (i : NodeIdx) (b' : Bool) :
    (a.grow cur b r).childAt i b' =
      if i = cur ∧ b' = b then some a.nextIdx else if i = a.nextIdx then none else a.childAt i b' := by
  rw [Arena.grow, Arena.childAt_attach, Arena.childAt_push]
  simp only [Arena.eq_nextIdx h, LinkPair.child_none]

end Sys2Proof.Machine
end

