-- ==== Sys2Proof/Laws/Count.lean ====
section
/-! SUPPORT. What the frequency counter of COUNT computes: how often each symbol occurs, and the total. -/

namespace Sys2Proof.Machine

@[simp] theorem entryAt_bumpFreq (f : Table Word) (s x : Sym) :
    entryAt (bumpFreq f s) x = if x = s then entryAt f s + 1#32 else entryAt f x :=
  entryAt_putEntry f s x _

theorem entryAt_foldl_bumpFreq (bs : List Byte) (f : Table Word) (x : Sym) :
    entryAt (bs.foldl bumpFreq f) x = entryAt f x + BitVec.ofNat 32 (bs.count x) := by
  induction bs generalizing f with
  | nil => simp
  | cons b rest ih =>
    rw [List.foldl_cons, ih, entryAt_bumpFreq, List.count_cons]
    by_cases h : x = b
    · subst h
      simp only [if_true, beq_self_eq_true, BitVec.ofNat_add, BitVec.add_assoc]
      rw [BitVec.add_comm 1#32]
    · have : (b == x) = false := by simpa using fun e => h e.symm
      simp [h, this]

/-- The count of a symbol, as long as the number of bytes fits 32 bits (R121 of 41_count.md). -/
theorem entryAt_countBytes {bs : List Byte} (h : bs.length < 2 ^ 32) (x : Sym) :
    (entryAt (countBytes bs) x).toNat = bs.count x := by
  have := List.count_le_length (a := x) (l := bs)
  rw [countBytes, entryAt_foldl_bumpFreq, zeroFreq, entryAt_replicate]
  simp only [BitVec.zero_add, BitVec.toNat_ofNat]
  omega

/-- A symbol is listed once. -/
theorem count_symbols (b : Sym) : symbols.count b = 1 :=
  List.count_eq_one_of_mem symbols_nodup (mem_symbols b)

theorem sum_map_count (l : List Sym) (bs : List Byte) :
    (l.map fun s => bs.count s).sum = (bs.map fun b => l.count b).sum := by
  induction bs with
  | nil => simp
  | cons b rest ih =>
    rw [List.map_cons, List.sum_cons, ← ih]
    clear ih
    induction l with
    | nil => simp
    | cons s l ih =>
      rw [List.map_cons, List.sum_cons, ih, List.map_cons, List.sum_cons, List.count_cons, List.count_cons]
      have : (b == s) = (s == b) := by simp [eq_comm]
      rw [this]
      omega

/-- The counts of all symbols sum to the number of bytes. -/
theorem sum_count_symbols (bs : List Byte) : (symbols.map fun s => bs.count s).sum = bs.length := by
  rw [sum_map_count, show (fun b => symbols.count b) = fun _ => 1 from funext count_symbols]
  simp

/-- The frequency table sums to the number of bytes counted (R121 of 41_count.md). -/
theorem freqSum_countBytes {bs : List Byte} (h : bs.length < 2 ^ 32) : freqSum (countBytes bs) = bs.length := by
  rw [freqSum, show (fun s => (entryAt (countBytes bs) s).toNat) = fun s => bs.count s from funext (entryAt_countBytes h)]
  exact sum_count_symbols bs

end Sys2Proof.Machine
end

