-- ==== Sys2Proof/Laws/Build.lean ====
section
/-! SUPPORT. What BUILD does: the leaves, the least key of the pending set, one merge, the rounds, and the tree they leave. -/

namespace Sys2Proof.Machine

/-! ### An arena as a tree -/

theorem length_filter_finRange (m n : Nat) (h : n ≤ m) : ((List.finRange m).filter fun i => decide (i.val < n)).length = n := by
  have e : (List.finRange m).map Fin.val = List.range m := by simp
  have : (((List.finRange m).map Fin.val).filter fun i => decide (i < n)).length = n := by
    rw [e]
    induction m generalizing n with
    | zero => simp at h; simp [h]
    | succ m ih =>
      rw [List.range_succ, List.filter_append, List.length_append]
      by_cases hm : n ≤ m
      · rw [ih n hm (by simp)]
        simp [hm]
      · have : n = m + 1 := by omega
        subst this
        have : (List.range m).filter (fun i => decide (i < m + 1)) = List.range m := by
          rw [List.filter_eq_self]
          intro i hi
          have := List.mem_range.1 hi
          simpa using by omega
        rw [this]
        simp
  rw [List.filter_map, List.length_map] at this
  exact this

/-- The records of the arena below `next` are the tree's. -/
theorem Arena.used_iff {a : Arena} (h : a.next ≤ 511) (r i : NodeIdx) : (a.toTree r).Used i ↔ i.val < a.next := by
  rw [Tree.Used, Arena.toTree_nnodes, BitVec.toNat_ofNat, Nat.mod_eq_of_lt (by omega)]

theorem Arena.nnodes_ne {a : Arena} (h : a.next ≤ 511) (hp : 1 ≤ a.next) (r : NodeIdx) : (a.toTree r).nnodes ≠ 0#9 := by
  intro e
  have := congrArg BitVec.toNat e
  rw [Arena.toTree_nnodes, BitVec.toNat_ofNat, Nat.mod_eq_of_lt (by omega)] at this
  simp at this
  omega

/-- What an arena must hold for its tree to meet R45 of 10_state.md. -/
theorem Arena.toTree_inv {a : Arena} {root : NodeIdx} (hn : a.next ≤ 511) (hroot : root.val < a.next)
    (hrl : (a.recAt root).leaf = false) (hlpos : 1 ≤ a.leaves) (hl256 : a.leaves ≤ 256)
    (hleaves : ((List.finRange 511).filter fun i => decide (i.val < a.next) && (a.recAt i).leaf).length = a.leaves)
    (hunused : ∀ i : NodeIdx, a.next ≤ i.val → a.recAt i = NodeRec.zero ∧ ∀ b, a.childAt i b = none)
    (hchild : ∀ i b c, a.childAt i b = some c → c.val < a.next ∧ c ≠ root)
    (huniq : ∀ i b j b' c, a.childAt i b = some c → a.childAt j b' = some c → i = j ∧ b = b')
    (hlinks : ∀ i b, (a.recAt i).leaf = true → a.childAt i b = none)
    (hinner : ∀ i : NodeIdx, i.val < a.next → (a.recAt i).leaf = false → ∃ b c, a.childAt i b = some c)
    (hsym : ∀ i j : NodeIdx, i.val < a.next → j.val < a.next → (a.recAt i).leaf = true → (a.recAt j).leaf = true →
      (a.recAt i).sym = (a.recAt j).sym → i = j)
    (hreach : ∀ i : NodeIdx, i.val < a.next → ∃ p, (a.toTree root).follow root p = some i)
    (hdepth : ∀ p i, (a.toTree root).follow root p = some i → p.length ≤ 255) : TreeInv (a.toTree root) := by
  have hne := Arena.nnodes_ne hn (by omega) root
  have hu := fun i => Arena.used_iff hn root i
  have hnl : (a.toTree root).nleaf.toNat = a.leaves := by
    rw [Arena.toTree_nleaf, BitVec.toNat_ofNat, Nat.mod_eq_of_lt (by omega)]
  have hnn : (BitVec.ofNat 9 a.next).toNat = a.next := by
    rw [BitVec.toNat_ofNat, Nat.mod_eq_of_lt (by omega)]
  constructor
  · rw [hnl]
    simp only [Tree.leafCount, Arena.toTree_nnodes, hnn, Arena.toTree_nodeAt]
    exact hleaves.symm
  · omega
  · intro e; exact absurd e hne
  · intro _; exact ⟨(hu root).2 hroot, hrl, by omega⟩
  · intro i b c _ hc
    exact ⟨(hu c).2 (hchild i b c hc).1, (hchild i b c hc).2⟩
  · intro i b j b' c _ _ h1 h2; exact huniq i b j b' c h1 h2
  · intro i hi; exact hreach i ((hu i).1 hi)
  · intro i b hi; exact hlinks i b hi.2
  · intro i hi hl; exact hinner i ((hu i).1 hi) hl
  · intro i j hi hj he; exact hsym i j ((hu i).1 hi.1) ((hu j).1 hj.1) hi.2 hj.2 he
  · intro _ p i hp; exact hdepth p i hp
  · intro i hi
    have := hunused i (by rw [hu] at hi; omega)
    exact this

/-! ### The leaves (R132, R133 of 42_build.md) -/

/-- The leaves of the symbols `ss` pushed in order. -/
def pushLeaves (f : Table Word) (ss : List Sym) (a : Arena) : Arena :=
  ss.foldl (fun a s => a.push (leafRec s (entryAt f s)) LinkPair.none) a

theorem foldl_addLeaf (f : Table Word) (ss : List Sym) (a : Arena) :
    (ss.map fun s => (s, entryAt f s)).foldl addLeaf a = pushLeaves f (ss.filter fun s => entryAt f s != 0#32) a := by
  induction ss generalizing a with
  | nil => rfl
  | cons s rest ih =>
    rw [List.map_cons, List.foldl_cons, ih]
    by_cases h : entryAt f s = 0#32
    · simp [addLeaf, h]
    · simp [addLeaf, h, pushLeaves]

theorem addLeaves_eq (f : Table Word) : addLeaves f = pushLeaves f (presentSymbols f) Arena.clear := by
  rw [addLeaves, entriesOf_eq, foldl_addLeaf]
  rfl

theorem pushLeaves_next (f : Table Word) (ss : List Sym) (a : Arena) : (pushLeaves f ss a).next = a.next + ss.length := by
  induction ss generalizing a with
  | nil => rfl
  | cons s rest ih =>
    rw [pushLeaves, List.foldl_cons, ← pushLeaves, ih, Arena.push_next, List.length_cons]
    omega

theorem pushLeaves_leaves (f : Table Word) (ss : List Sym) (a : Arena) : (pushLeaves f ss a).leaves = a.leaves + ss.length := by
  induction ss generalizing a with
  | nil => rfl
  | cons s rest ih =>
    rw [pushLeaves, List.foldl_cons, ← pushLeaves, ih, Arena.push_leaves, List.length_cons]
    simp [leafRec]
    omega

theorem pushLeaves_childAt (f : Table Word) (ss : List Sym) (a : Arena) (h : ∀ i b, a.childAt i b = none) (i : NodeIdx) (b : Bool) :
    (pushLeaves f ss a).childAt i b = none := by
  induction ss generalizing a with
  | nil => exact h i b
  | cons s rest ih =>
    rw [pushLeaves, List.foldl_cons, ← pushLeaves]
    refine ih _ fun i b => ?_
    rw [Arena.childAt_push]
    split
    · simp
    · exact h i b

theorem pushLeaves_recAt (f : Table Word) (ss : List Sym) (a : Arena) (i : NodeIdx) :
    (pushLeaves f ss a).recAt i =
      if h : a.next ≤ i.val ∧ i.val < a.next + ss.length then leafRec ss[i.val - a.next] (entryAt f ss[i.val - a.next])
      else a.recAt i := by
  induction ss generalizing a with
  | nil =>
    rw [dif_neg (by simp)]
    rfl
  | cons s rest ih =>
    rw [pushLeaves, List.foldl_cons, ← pushLeaves, ih]
    simp only [Arena.push_next, List.length_cons, Arena.recAt_push]
    by_cases h1 : a.next + 1 ≤ i.val ∧ i.val < a.next + 1 + rest.length
    · rw [dif_pos h1, dif_pos (by omega)]
      have e : i.val - a.next = i.val - (a.next + 1) + 1 := by omega
      simp only [e, List.getElem_cons_succ]
    · rw [dif_neg h1]
      by_cases h2 : i.val = a.next
      · rw [if_pos h2, dif_pos (by omega)]
        simp [h2]
      · rw [if_neg h2, dif_neg (by omega)]

theorem length_presentSymbols (f : Table Word) : (presentSymbols f).length ≤ 256 := by
  have := List.length_filter_le (fun s => entryAt f s != 0#32) symbols
  simpa [presentSymbols] using this

theorem mem_presentSymbols (f : Table Word) (s : Sym) : s ∈ presentSymbols f ↔ entryAt f s ≠ 0#32 := by
  simp [presentSymbols]

theorem presentSymbols_nodup (f : Table Word) : (presentSymbols f).Nodup := symbols_nodup.filter _

@[simp] theorem addLeaves_next (f : Table Word) : (addLeaves f).next = (presentSymbols f).length := by
  rw [addLeaves_eq, pushLeaves_next]
  simp

@[simp] theorem addLeaves_leaves (f : Table Word) : (addLeaves f).leaves = (presentSymbols f).length := by
  rw [addLeaves_eq, pushLeaves_leaves]
  simp

@[simp] theorem addLeaves_childAt (f : Table Word) (i : NodeIdx) (b : Bool) : (addLeaves f).childAt i b = none := by
  rw [addLeaves_eq]
  exact pushLeaves_childAt f _ _ (fun i b => Arena.childAt_clear i b) i b

/-- Record `i` after the leaves: the leaf of the i-th symbol present, or zero. -/
theorem addLeaves_recAt (f : Table Word) (i : NodeIdx) :
    (addLeaves f).recAt i =
      if h : i.val < (presentSymbols f).length then leafRec (presentSymbols f)[i.val] (entryAt f (presentSymbols f)[i.val])
      else NodeRec.zero := by
  rw [addLeaves_eq, pushLeaves_recAt]
  simp only [Arena.clear_next, Nat.zero_le, true_and, Nat.zero_add, Nat.sub_zero, Arena.recAt_clear]

/-! ### The least key (R134, R140) -/

theorem Arena.before_iff (a : Arena) (i j : NodeIdx) :
    a.before i j = true ↔
      (a.freqAt i).toNat < (a.freqAt j).toNat ∨ ((a.freqAt i).toNat = (a.freqAt j).toNat ∧ i.val < j.val) := by
  simp [Arena.before, BitVec.lt_def, BitVec.toNat_inj]

/-- The least key of a set without repeats: a member below every other (R134). -/
theorem Arena.leastKey_spec (a : Arena) (l : List NodeIdx) (h : l ≠ []) :
    ∃ i, a.leastKey l = some i ∧ i ∈ l ∧ ∀ x ∈ l, x ≠ i → a.before i x = true := by
  induction l with
  | nil => exact absurd rfl h
  | cons y rest ih =>
    by_cases hr : rest = []
    · subst hr
      exact ⟨y, rfl, by simp, by simp⟩
    · obtain ⟨j, e, hj, hmin⟩ := ih hr
      by_cases hb : a.before y j = true
      · refine ⟨y, by simp [Arena.leastKey, e, hb], by simp, ?_⟩
        intro x hx hne
        rcases List.mem_cons.1 hx with rfl | hx
        · exact absurd rfl hne
        · by_cases hxj : x = j
          · exact hxj ▸ hb
          · have := hmin x hx hxj
            rw [Arena.before_iff] at this hb ⊢
            omega
      · refine ⟨j, by simp [Arena.leastKey, e, hb], by simp [hj], ?_⟩
        intro x hx hne
        rcases List.mem_cons.1 hx with rfl | hx
        · have := Fin.val_ne_of_ne hne
          rw [Arena.before_iff] at hb ⊢
          omega
        · exact hmin x hx hne

/-- Extract-min takes the member with the least key out (R140). -/
theorem Arena.extractMin_spec (a : Arena) {l : List NodeIdx} (hn : l.Nodup) (h : l ≠ []) :
    ∃ i rest, a.extractMin l = some (i, rest) ∧ l.Perm (i :: rest) ∧ ∀ x ∈ rest, a.before i x = true := by
  obtain ⟨i, e, hi, hmin⟩ := a.leastKey_spec l h
  refine ⟨i, l.erase i, by simp [Arena.extractMin, e], List.perm_cons_erase hi, ?_⟩
  intro x hx
  rw [hn.mem_erase_iff] at hx
  exact hmin x hx.2 hx.1

/-! ### One merge (R136) -/

@[simp] theorem Arena.merge_next (a : Arena) (i j : NodeIdx) : (a.merge i j).next = a.next + 1 := rfl

@[simp] theorem Arena.merge_leaves (a : Arena) (i j : NodeIdx) : (a.merge i j).leaves = a.leaves := rfl

theorem Arena.recAt_merge {a : Arena} (h : a.next < 511) (i j x : NodeIdx) :
    (a.merge i j).recAt x = if x = a.nextIdx then a.mergeRec i j else a.recAt x := by
  rw [Arena.merge, Arena.recAt_push]
  simp only [Arena.eq_nextIdx h]

theorem Arena.childAt_merge {a : Arena} (h : a.next < 511) (i j x : NodeIdx) (b : Bool) :
    (a.merge i j).childAt x b = if x = a.nextIdx then some (if b then j else i) else a.childAt x b := by
  rw [Arena.merge, Arena.childAt_push]
  simp only [Arena.eq_nextIdx h]
  cases b <;> rfl

/-- One round: the two least keys, in order, merged (R135, R136). -/
theorem mergeRounds_succ (k : Nat) (a : Arena) {pend : List NodeIdx} (hn : pend.Nodup) (h2 : 2 ≤ pend.length) :
    ∃ i j rest, pend.Perm (i :: j :: rest) ∧ (∀ x ∈ j :: rest, a.before i x = true) ∧ (∀ x ∈ rest, a.before j x = true) ∧
      mergeRounds (k + 1) a pend = mergeRounds k (a.merge i j) (a.nextIdx :: rest) := by
  obtain ⟨i, l1, e1, p1, m1⟩ := a.extractMin_spec hn (by rintro rfl; simp at h2)
  have hl : l1 ≠ [] := by
    rintro rfl
    have := p1.length_eq
    simp at this
    omega
  have hn1 : l1.Nodup := (List.nodup_cons.1 (p1.nodup_iff.1 hn)).2
  obtain ⟨j, l2, e2, p2, m2⟩ := a.extractMin_spec hn1 hl
  refine ⟨i, j, l2, p1.trans (p2.cons i), fun x hx => m1 x (p2.mem_iff.2 hx), m2, ?_⟩
  simp only [mergeRounds, e1, e2]

theorem mergeRounds_one (k : Nat) (a : Arena) (i : NodeIdx) : mergeRounds k a [i] = (a, [i]) := by
  cases k with
  | zero => rfl
  | succ k => simp [mergeRounds, Arena.extractMin, Arena.leastKey]

/-! ### The forest of the rounds (R137, R141, R144) -/

/-- What the rounds keep: `n` leaves below `n`, two children below every internal record, the pending nodes the only ones without a
parent, their frequencies summing to `total`. -/
structure Forest (n total : Nat) (base a : Arena) (pend : List NodeIdx) : Prop where
  count : a.next + pend.length = 2 * n
  low : n ≤ a.next
  leaves : a.leaves = n
  nodup : pend.Nodup
  pend_lt : ∀ i ∈ pend, i.val < a.next
  kept : ∀ i : NodeIdx, i.val < n → a.recAt i = base.recAt i ∧ ∀ b, a.childAt i b = none
  inner_rec : ∀ i : NodeIdx, n ≤ i.val → (a.recAt i).leaf = false
  unused : ∀ i : NodeIdx, a.next ≤ i.val → a.recAt i = NodeRec.zero ∧ ∀ b, a.childAt i b = none
  below : ∀ i b c, a.childAt i b = some c → c.val < i.val
  inner : ∀ i : NodeIdx, n ≤ i.val → i.val < a.next → ∀ b, ∃ c, a.childAt i b = some c
  uniq : ∀ i b j b' c, a.childAt i b = some c → a.childAt j b' = some c → i = j ∧ b = b'
  orphan : ∀ c : NodeIdx, c.val < a.next → (c ∈ pend ↔ ∀ i b, a.childAt i b ≠ some c)
  sums : ∀ i x y, a.childAt i false = some x → a.childAt i true = some y →
    (a.freqAt i).toNat = (a.freqAt x).toNat + (a.freqAt y).toNat
  total : (pend.map fun i => (a.freqAt i).toNat).sum = total

/-- A merge keeps the forest. -/
theorem Forest.merge {n total : Nat} {base a : Arena} {pend rest : List NodeIdx} {i j : NodeIdx} (h : Forest n total base a pend)
    (hn : n ≤ 256) (ht : total < 2 ^ 40) (hp : pend.Perm (i :: j :: rest)) :
    Forest n total base (a.merge i j) (a.nextIdx :: rest) := by
  have hlen := hp.length_eq
  simp only [List.length_cons] at hlen
  have hcount := h.count
  have hroom : a.next < 511 := by omega
  have hnx := Arena.nextIdx_val hroom
  have hmem : ∀ x, x ∈ pend ↔ x = i ∨ x = j ∨ x ∈ rest := fun x => by rw [hp.mem_iff]; simp
  have hi := h.pend_lt i ((hmem i).2 (.inl rfl))
  have hj := h.pend_lt j ((hmem j).2 (.inr (.inl rfl)))
  have hnd := hp.nodup_iff.1 h.nodup
  simp only [List.nodup_cons, List.mem_cons, not_or] at hnd
  obtain ⟨⟨hij, hir⟩, hjr, hrn⟩ := hnd
  have hrest : ∀ x ∈ rest, x.val < a.next := fun x hx => h.pend_lt x ((hmem x).2 (.inr (.inr hx)))
  have hne : ∀ x : NodeIdx, x.val < a.next → x ≠ a.nextIdx := fun x hx e => by rw [e] at hx; omega
  have hnochild : ∀ x b, a.childAt x b ≠ some a.nextIdx := by
    intro x b hc
    have hb := h.below x b _ hc
    by_cases hx : a.next ≤ x.val
    · rw [(h.unused x hx).2 b] at hc
      exact absurd hc (by simp)
    · omega
  have ht' := h.total
  rw [(hp.map _).sum_eq] at ht'
  simp only [List.map_cons, List.sum_cons] at ht'
  have hfreq : ∀ x : NodeIdx, x ≠ a.nextIdx → (a.merge i j).freqAt x = a.freqAt x := fun x hx => by
    rw [Arena.freqAt_eq, Arena.recAt_merge hroom, if_neg hx]; rfl
  have hfreqn : ((a.merge i j).freqAt a.nextIdx).toNat = (a.freqAt i).toNat + (a.freqAt j).toNat := by
    rw [Arena.freqAt_eq, Arena.recAt_merge hroom, if_pos rfl]
    show (a.freqAt i + a.freqAt j).toNat = _
    rw [BitVec.toNat_add, Nat.mod_eq_of_lt (by omega)]
  constructor
  · simp only [Arena.merge_next, List.length_cons]; omega
  · simp only [Arena.merge_next]; have := h.low; omega
  · exact h.leaves
  · exact List.nodup_cons.2 ⟨fun hx => hne _ (hrest _ hx) rfl, hrn⟩
  · intro x hx
    simp only [Arena.merge_next]
    rcases List.mem_cons.1 hx with rfl | hx
    · omega
    · have := hrest x hx; omega
  · intro x hx
    have : x ≠ a.nextIdx := hne x (by have := h.low; omega)
    refine ⟨by rw [Arena.recAt_merge hroom, if_neg this]; exact (h.kept x hx).1, fun b => ?_⟩
    rw [Arena.childAt_merge hroom, if_neg this]
    exact (h.kept x hx).2 b
  · intro x hx
    rw [Arena.recAt_merge hroom]
    split
    · rfl
    · exact h.inner_rec x hx
  · intro x hx
    simp only [Arena.merge_next] at hx
    have : x ≠ a.nextIdx := fun e => by rw [e] at hx; omega
    refine ⟨by rw [Arena.recAt_merge hroom, if_neg this]; exact (h.unused x (by omega)).1, fun b => ?_⟩
    rw [Arena.childAt_merge hroom, if_neg this]
    exact (h.unused x (by omega)).2 b
  · intro x b c hc
    rw [Arena.childAt_merge hroom] at hc
    split at hc
    · next e =>
      subst e
      cases b <;> simp only [Option.some.injEq, if_true, Bool.false_eq_true, if_false] at hc <;> subst hc <;> omega
    · exact h.below x b c hc
  · intro x hx hlt b
    simp only [Arena.merge_next] at hlt
    rw [Arena.childAt_merge hroom]
    split
    · exact ⟨_, rfl⟩
    · next e =>
      have : x.val ≠ a.next := fun e' => e ((Arena.eq_nextIdx hroom x).1 e')
      exact h.inner x hx (by omega) b
  · intro x b y b' c hc hc'
    have hi' := (h.orphan i hi).1 ((hmem i).2 (.inl rfl))
    have hj' := (h.orphan j hj).1 ((hmem j).2 (.inr (.inl rfl)))
    rw [Arena.childAt_merge hroom] at hc hc'
    split at hc
    · next e =>
      subst e
      split at hc'
      · next e' =>
        subst e'
        refine ⟨rfl, ?_⟩
        cases b <;> cases b' <;> simp only [Option.some.injEq, if_true, Bool.false_eq_true, if_false] at hc hc' ⊢
        · exact absurd (hc.trans hc'.symm) hij
        · exact absurd (hc'.trans hc.symm) hij
      · cases b <;> simp only [Option.some.injEq, if_true, Bool.false_eq_true, if_false] at hc <;> subst hc
        · exact absurd hc' (hi' y b')
        · exact absurd hc' (hj' y b')
    · split at hc'
      · next e' =>
        cases b' <;> simp only [Option.some.injEq, if_true, Bool.false_eq_true, if_false] at hc' <;> subst hc'
        · exact absurd hc (hi' x b)
        · exact absurd hc (hj' x b)
      · exact h.uniq x b y b' c hc hc'
  · intro c hc
    simp only [Arena.merge_next] at hc
    by_cases hcn : c = a.nextIdx
    · subst hcn
      refine ⟨fun _ x b => ?_, fun _ => List.mem_cons_self⟩
      rw [Arena.childAt_merge hroom]
      split
      · intro e
        cases b <;> simp only [Option.some.injEq, if_true, Bool.false_eq_true, if_false] at e
        · exact hne i hi e
        · exact hne j hj e
      · exact hnochild x b
    · have hc' : c.val < a.next := by
        have : c.val ≠ a.next := fun e => hcn ((Arena.eq_nextIdx hroom c).1 e)
        omega
      rw [List.mem_cons, or_iff_right hcn]
      have ho := h.orphan c hc'
      rw [hmem] at ho
      constructor
      · intro hx x b
        rw [Arena.childAt_merge hroom]
        split
        · intro e
          cases b <;> simp only [Option.some.injEq, if_true, Bool.false_eq_true, if_false] at e <;> subst e
          · exact hir hx
          · exact hjr hx
        · exact ho.1 (.inr (.inr hx)) x b
      · intro hx
        have hc0 : ∀ x b, a.childAt x b ≠ some c := by
          intro x b e
          by_cases hxn : x = a.nextIdx
          · rw [hxn, (h.unused _ (by omega)).2 b] at e
            exact absurd e (by simp)
          · have := hx x b
            rw [Arena.childAt_merge hroom, if_neg hxn] at this
            exact this e
        rcases ho.2 hc0 with e | e | e
        · have := hx a.nextIdx false
          rw [Arena.childAt_merge hroom, if_pos rfl, e] at this
          exact absurd rfl this
        · have := hx a.nextIdx true
          rw [Arena.childAt_merge hroom, if_pos rfl, e] at this
          exact absurd rfl this
        · exact e
  · intro x y z hy hz
    rw [Arena.childAt_merge hroom] at hy hz
    by_cases hx : x = a.nextIdx
    · rw [if_pos hx] at hy hz
      simp only [Option.some.injEq, if_true, Bool.false_eq_true, if_false] at hy hz
      subst hy hz hx
      rw [hfreqn, hfreq _ (hne _ hi), hfreq _ (hne _ hj)]
    · rw [if_neg hx] at hy hz
      have h1 : y ≠ a.nextIdx := fun e => hnochild x false (e ▸ hy)
      have h2 : z ≠ a.nextIdx := fun e => hnochild x true (e ▸ hz)
      rw [hfreq _ hx, hfreq _ h1, hfreq _ h2]
      exact h.sums x y z hy hz
  · rw [List.map_cons, List.sum_cons, hfreqn, ← ht']
    have : rest.map (fun x => ((a.merge i j).freqAt x).toNat) = rest.map fun x => (a.freqAt x).toNat :=
      List.map_congr_left fun x hx => by rw [hfreq _ (hne _ (hrest x hx))]
    rw [this]
    omega

/-- The rounds end with one pending node and keep the forest (R137). -/
theorem mergeRounds_forest {n total : Nat} {base : Arena} (hn : n ≤ 256) (ht : total < 2 ^ 40) (k : Nat) (a : Arena)
    (pend : List NodeIdx) (h : Forest n total base a pend) (hp : pend ≠ []) (hk : pend.length ≤ k + 1) :
    ∃ root, (mergeRounds k a pend).2 = [root] ∧ Forest n total base (mergeRounds k a pend).1 [root] := by
  induction k generalizing a pend with
  | zero =>
    obtain ⟨i, rfl⟩ : ∃ i, pend = [i] := by
      rw [← List.length_eq_one_iff]
      have := List.length_pos_iff.2 hp
      omega
    exact ⟨i, rfl, h⟩
  | succ k ih =>
    by_cases h2 : 2 ≤ pend.length
    · obtain ⟨i, j, rest, hperm, _, _, e⟩ := mergeRounds_succ k a h.nodup h2
      rw [e]
      refine ih _ _ (h.merge hn ht hperm) (by simp) ?_
      have := hperm.length_eq
      simp only [List.length_cons] at this ⊢
      omega
    · obtain ⟨i, rfl⟩ : ∃ i, pend = [i] := by
        rw [← List.length_eq_one_iff]
        have := List.length_pos_iff.2 hp
        omega
      rw [mergeRounds_one]
      exact ⟨i, rfl, h⟩

theorem getElem_leafIndices {n k : Nat} (hn : n ≤ 511) (h : k < (leafIndices n).length) : ((leafIndices n)[k]).val = k := by
  have : k < n := by simpa [leafIndices] using h
  simp [leafIndices, Fin.ofNat, Nat.mod_eq_of_lt (show k < 511 by omega)]

theorem mem_leafIndices {n : Nat} (hn : n ≤ 511) (i : NodeIdx) : i ∈ leafIndices n ↔ i.val < n := by
  simp only [leafIndices, List.mem_map, List.mem_range]
  constructor
  · rintro ⟨k, hk, rfl⟩
    simpa [Fin.ofNat, Nat.mod_eq_of_lt (show k < 511 by omega)] using hk
  · intro h
    exact ⟨i.val, h, Fin.ext (by simp [Fin.ofNat, Nat.mod_eq_of_lt (show i.val < 511 by omega)])⟩

theorem leafIndices_nodup {n : Nat} (hn : n ≤ 511) : (leafIndices n).Nodup := by
  rw [List.nodup_iff_injective_get]
  intro x y e
  have := congrArg Fin.val e
  simp only [List.get_eq_getElem, getElem_leafIndices hn] at this
  exact Fin.ext this

/-- The leaves' frequencies sum to the table's. -/
theorem sum_leaves (f : Table Word) :
    ((leafIndices (presentSymbols f).length).map fun i => ((addLeaves f).freqAt i).toNat).sum = freqSum f := by
  have hl := length_presentSymbols f
  have e : (leafIndices (presentSymbols f).length).map (fun i => ((addLeaves f).freqAt i).toNat) =
      (presentSymbols f).map fun s => (entryAt f s).toNat := by
    apply List.ext_getElem
    · simp [leafIndices]
    · intro k h1 h2
      have hk : k < (presentSymbols f).length := by simpa using h2
      have hv : (Fin.ofNat 511 k).val = k := by simp [Fin.ofNat, Nat.mod_eq_of_lt (show k < 511 by omega)]
      simp only [leafIndices, List.getElem_map, List.getElem_range, Arena.freqAt_eq, addLeaves_recAt, hv, hk, dif_pos, leafRec,
        BitVec.toNat_setWidth]
      have := ((entryAt f (presentSymbols f)[k])).isLt
      omega
  rw [e, presentSymbols, freqSum]
  have : ∀ l : List Sym, ((l.filter fun s => entryAt f s != 0#32).map fun s => (entryAt f s).toNat).sum =
      (l.map fun s => (entryAt f s).toNat).sum := by
    intro l
    induction l with
    | nil => rfl
    | cons s l ih =>
      by_cases h : entryAt f s = 0#32
      · simp [h, ih]
      · simp [h, ih]
  exact this symbols

theorem freqSum_lt (f : Table Word) : freqSum f < 2 ^ 40 := by
  have : ∀ l : List Sym, (l.map fun s => (entryAt f s).toNat).sum ≤ l.length * (2 ^ 32 - 1) := by
    intro l
    induction l with
    | nil => simp
    | cons s l ih =>
      have := (entryAt f s).isLt
      simp only [List.map_cons, List.sum_cons, List.length_cons]
      omega
  have := this symbols
  rw [length_symbols] at this
  rw [freqSum]
  omega

/-- The leaves are a forest, each of them pending (R132). -/
theorem addLeaves_forest (f : Table Word) :
    Forest (presentSymbols f).length (freqSum f) (addLeaves f) (addLeaves f) (leafIndices (presentSymbols f).length) := by
  have hl := length_presentSymbols f
  constructor
  · simp [leafIndices]; omega
  · simp
  · simp
  · exact leafIndices_nodup (by omega)
  · intro i hi
    rw [addLeaves_next]
    exact (mem_leafIndices (by omega) i).1 hi
  · intro i _; simp
  · intro i hi
    rw [addLeaves_recAt, dif_neg (by omega)]
    rfl
  · intro i hi
    rw [addLeaves_next] at hi
    rw [addLeaves_recAt, dif_neg (by omega)]
    simp
  · intro i b c h; simp at h
  · intro i h1 h2; rw [addLeaves_next] at h2; omega
  · intro i b j b' c h; simp at h
  · intro c hc
    rw [addLeaves_next] at hc
    rw [mem_leafIndices (by omega)]
    simp [hc]
  · intro i x y h; simp at h
  · exact sum_leaves f

end Sys2Proof.Machine
end

