-- ==== Sys2Proof/Laws/BuildTree.lean ====
section
/-! SUPPORT. The tree BUILD leaves, in its three cases (R137, R138, R139 of 42_build.md), and that it meets R45 of 10_state.md. -/

namespace Sys2Proof.Machine

/-! ### Two symbols or more -/

/-- With one node pending, 2n − 1 records are in use and the root is the last (R137, R142). -/
theorem Forest.next_eq {n total : Nat} {base a : Arena} {root : NodeIdx} (h : Forest n total base a [root]) (hn : 2 ≤ n)
    (hn' : n ≤ 256) : a.next = 2 * n - 1 ∧ root.val = 2 * n - 2 := by
  have hc := h.count
  simp only [List.length_singleton] at hc
  refine ⟨by omega, ?_⟩
  have hlast : 2 * n - 2 < 511 := by omega
  have ho := h.orphan ⟨2 * n - 2, hlast⟩ (by show 2 * n - 2 < a.next; omega)
  have : (⟨2 * n - 2, hlast⟩ : NodeIdx) ∈ [root] := by
    rw [ho]
    intro i b e
    have h1 := h.below i b _ e
    by_cases hu : a.next ≤ i.val
    · rw [(h.unused i hu).2 b] at e
      exact absurd e (by simp)
    · simp only at h1; omega
  rw [List.mem_singleton] at this
  rw [← this]

/-- Every record is reached from the one pending node. -/
theorem Forest.reach {n total : Nat} {base a : Arena} {root : NodeIdx} (h : Forest n total base a [root]) (k : Nat) (i : NodeIdx)
    (hi : i.val < a.next) (hk : a.next ≤ i.val + k) : ∃ p, (a.toTree root).follow root p = some i := by
  induction k generalizing i with
  | zero => omega
  | succ k ih =>
    by_cases e : i = root
    · exact ⟨[], by rw [e]; rfl⟩
    · have : ¬ ∀ j b, a.childAt j b ≠ some i := fun hx => e (List.mem_singleton.1 ((h.orphan i hi).2 hx))
      simp only [not_forall, not_not] at this
      obtain ⟨j, b, hj⟩ := this
      have hlt := h.below j b i hj
      have hju : j.val < a.next := by
        by_contra hu
        rw [(h.unused j (by omega)).2 b] at hj
        exact absurd hj (by simp)
      obtain ⟨p, hp⟩ := ih j hju (by omega)
      refine ⟨p ++ [b], ?_⟩
      rw [Tree.follow_snoc, hp]
      exact hj

/-- Indices fall along a path, so a path of k links ends k below its start at least (R141). -/
theorem Forest.follow_le {n total : Nat} {base a : Arena} {pend : List NodeIdx} (h : Forest n total base a pend) (root : NodeIdx)
    (p : Bits) (i : NodeIdx) (hp : (a.toTree root).follow root p = some i) : i.val + p.length ≤ root.val := by
  induction p using List.reverseRecOn generalizing i with
  | nil => simp [show root = i from Option.some.inj hp]
  | append_singleton p b ih =>
    rw [Tree.follow_snoc] at hp
    cases hj : (a.toTree root).follow root p with
    | none => rw [hj] at hp; exact absurd hp (by simp)
    | some j =>
      rw [hj] at hp
      have := h.below j b i hp
      have := ih j hj
      simp only [List.length_append, List.length_singleton]
      omega

/-- No path from the root is longer than n − 1 (R141). -/
theorem Forest.depth {n total : Nat} {base a : Arena} {root : NodeIdx} (h : Forest n total base a [root]) (hn : 2 ≤ n)
    (hn' : n ≤ 256) (p : Bits) (i : NodeIdx) (hp : (a.toTree root).follow root p = some i) : p.length ≤ n - 1 := by
  induction p using List.reverseRecOn with
  | nil => simp
  | append_singleton p b _ =>
    rw [Tree.follow_snoc] at hp
    cases hj : (a.toTree root).follow root p with
    | none => rw [hj] at hp; exact absurd hp (by simp)
    | some j =>
      rw [hj] at hp
      have h1 := h.follow_le root p j hj
      have h2 := (h.next_eq hn hn').2
      have h3 : n ≤ j.val := by
        by_contra hlt
        have hp : a.childAt j b = some i := hp
        rw [(h.kept j (by omega)).2 b] at hp
        exact absurd hp (by simp)
      simp only [List.length_append, List.length_singleton]
      omega

/-- A record of the finished forest is a leaf exactly below n. -/
theorem Forest.leaf_iff {n total : Nat} {f : Table Word} {a : Arena} {pend : List NodeIdx} (h : Forest n total (addLeaves f) a pend)
    (hf : n = (presentSymbols f).length) (i : NodeIdx) : (a.recAt i).leaf = true ↔ i.val < n := by
  constructor
  · intro hl
    by_contra hlt
    rw [h.inner_rec i (by omega)] at hl
    exact absurd hl (by simp)
  · intro hlt
    rw [(h.kept i hlt).1, addLeaves_recAt, dif_pos (by omega)]
    rfl

/-- The merged tree meets R45 of 10_state.md. -/
theorem Forest.tree_inv {n total : Nat} {f : Table Word} {a : Arena} {root : NodeIdx} (h : Forest n total (addLeaves f) a [root])
    (hf : n = (presentSymbols f).length) (hn : 2 ≤ n) : TreeInv (a.toTree root) := by
  have hn' : n ≤ 256 := hf ▸ length_presentSymbols f
  obtain ⟨hnext, hroot⟩ := h.next_eq hn hn'
  have hleaf := h.leaf_iff hf
  have hl := h.leaves
  have hchild : ∀ i b c, a.childAt i b = some c → c.val < i.val ∧ n ≤ i.val ∧ i.val < a.next := by
    intro i b c hc
    refine ⟨h.below i b c hc, ?_, ?_⟩
    · by_contra hlt
      rw [(h.kept i (by omega)).2 b] at hc
      exact absurd hc (by simp)
    · by_contra hu
      rw [(h.unused i (by omega)).2 b] at hc
      exact absurd hc (by simp)
  apply Arena.toTree_inv
  · omega
  · omega
  · exact h.inner_rec root (by omega)
  · omega
  · omega
  · have : (fun i : NodeIdx => decide (i.val < a.next) && (a.recAt i).leaf) = fun i : NodeIdx => decide (i.val < n) := by
      funext i
      rw [Bool.eq_iff_iff, Bool.and_eq_true, decide_eq_true_iff, decide_eq_true_iff, hleaf]
      omega
    rw [this, length_filter_finRange 511 n (by omega), hl]
  · exact h.unused
  · intro i b c hc
    have := hchild i b c hc
    exact ⟨by omega, fun e => by rw [e] at this; omega⟩
  · exact h.uniq
  · intro i b hi
    exact (h.kept i ((hleaf i).1 hi)).2 b
  · intro i hi hil
    have : n ≤ i.val := by
      by_contra hlt
      rw [(hleaf i).2 (by omega)] at hil
      exact absurd hil (by simp)
    exact ⟨false, h.inner i this hi false⟩
  · intro i j _ _ hi hj he
    have hi' := (hleaf i).1 hi
    have hj' := (hleaf j).1 hj
    rw [(h.kept i hi').1, (h.kept j hj').1, addLeaves_recAt, addLeaves_recAt, dif_pos (by omega), dif_pos (by omega)] at he
    exact Fin.ext ((presentSymbols_nodup f).getElem_inj_iff.1 he)
  · intro i hi
    exact h.reach a.next i hi (by omega)
  · intro p i hp
    have := h.depth hn hn' p i hp
    omega

/-- BUILD with two symbols or more: a finished forest (R137). -/
theorem buildTree_forest (f : Table Word) (hn : 2 ≤ (presentSymbols f).length) :
    ∃ a root, buildTree f = a.toTree root ∧ Forest (presentSymbols f).length (freqSum f) (addLeaves f) a [root] := by
  have hl := length_presentSymbols f
  obtain ⟨root, e, h⟩ := mergeRounds_forest hl (freqSum_lt f) (presentSymbols f).length _ _ (addLeaves_forest f)
    (by rw [← List.length_pos_iff]; simp [leafIndices]; omega) (by simp [leafIndices])
  refine ⟨_, root, ?_, h⟩
  simp only [buildTree, addLeaves_next]
  rw [if_neg (by omega), if_neg (by omega), e]
  rfl

/-! ### No symbol and one symbol -/

/-- BUILD with no symbol: the empty tree (R138). -/
theorem buildTree_empty (f : Table Word) (h : presentSymbols f = []) : buildTree f = Tree.empty := by
  have e : addLeaves f = Arena.clear := by rw [addLeaves_eq, h]; rfl
  simp only [buildTree, e, Arena.clear_next, if_true]
  rfl

/-- The arena of a single symbol. -/
def oneSymbol (x : Sym) (w : Word) : Arena :=
  (Arena.clear.push (leafRec x w) LinkPair.none).push { leaf := false, sym := 0#8, freq := w.setWidth 40 }
    { left := some 0, right := none }

/-- BUILD with one symbol: the leaf under the synthetic root (R139). -/
theorem buildTree_one (f : Table Word) (x : Sym) (h : presentSymbols f = [x]) :
    buildTree f = (oneSymbol x (entryAt f x)).toTree 1 := by
  have e : addLeaves f = Arena.clear.push (leafRec x (entryAt f x)) LinkPair.none := by rw [addLeaves_eq, h]; rfl
  have hf : (addLeaves f).freqAt 0 = (entryAt f x).setWidth 40 := by
    rw [Arena.freqAt_eq, addLeaves_recAt, dif_pos (by simp [h])]
    simp [leafRec, h]
  have hn : (addLeaves f).next = 1 := by simp [h]
  simp only [buildTree, hn]
  rw [if_neg (by omega), if_pos trivial, syntheticRoot, hf, e]
  rfl

theorem oneSymbol_recAt (x : Sym) (w : Word) (i : NodeIdx) :
    (oneSymbol x w).recAt i =
      if i = 1 then { leaf := false, sym := 0#8, freq := w.setWidth 40 } else if i = 0 then leafRec x w else NodeRec.zero := by
  have h1 : i.val = 1 ↔ i = 1 := ⟨fun e => Fin.ext e, fun e => e ▸ rfl⟩
  have h0 : i.val = 0 ↔ i = 0 := ⟨fun e => Fin.ext e, fun e => e ▸ rfl⟩
  simp only [oneSymbol, Arena.recAt_push, Arena.push_next, Arena.clear_next, Nat.zero_add, h1, h0, Arena.recAt_clear]

theorem oneSymbol_childAt (x : Sym) (w : Word) (i : NodeIdx) (b : Bool) :
    (oneSymbol x w).childAt i b = if i = 1 ∧ b = false then some 0 else none := by
  have h1 : i.val = 1 ↔ i = 1 := ⟨fun e => Fin.ext e, fun e => e ▸ rfl⟩
  simp only [oneSymbol, Arena.childAt_push, Arena.push_next, Arena.clear_next, Nat.zero_add, h1, Arena.childAt_clear,
    LinkPair.child_none, ite_self]
  by_cases h : i = 1 <;> cases b <;> simp [h, LinkPair.child]

/-- Along the synthetic tree there are two paths. -/
theorem oneSymbol_follow (x : Sym) (w : Word) (p : Bits) (i : NodeIdx) (h : ((oneSymbol x w).toTree 1).follow 1 p = some i) :
    (p = [] ∧ i = 1) ∨ (p = [false] ∧ i = 0) := by
  cases p with
  | nil => exact .inl ⟨rfl, (Option.some.inj h).symm⟩
  | cons b rest =>
    rw [Tree.follow_cons, Arena.toTree_childAt, oneSymbol_childAt] at h
    cases b
    · cases rest with
      | nil => exact .inr ⟨rfl, (Option.some.inj (by simpa using h)).symm⟩
      | cons b' rest' =>
        simp [Tree.follow_cons, oneSymbol_childAt] at h
    · simp at h

/-- The tree of one symbol meets R45 of 10_state.md. -/
theorem oneSymbol_inv (x : Sym) (w : Word) : TreeInv ((oneSymbol x w).toTree 1) := by
  have hn : (oneSymbol x w).next = 2 := rfl
  have hl : (oneSymbol x w).leaves = 1 := rfl
  have hlt : ∀ i : NodeIdx, i.val < 2 ↔ i = 0 ∨ i = 1 := by
    intro i
    constructor
    · intro h
      rcases (show i.val = 0 ∨ i.val = 1 by omega) with e | e
      · exact .inl (Fin.ext e)
      · exact .inr (Fin.ext e)
    · rintro (rfl | rfl) <;> decide
  have hleaf : ∀ i : NodeIdx, ((oneSymbol x w).recAt i).leaf = true ↔ i = 0 := by
    intro i
    rw [oneSymbol_recAt]
    by_cases h1 : i = 1
    · simp [h1]
    · by_cases h0 : i = 0
      · simp [h0, leafRec]
      · simp [h1, h0, NodeRec.zero]
  apply Arena.toTree_inv
  · omega
  · rw [hn]; decide
  · rw [oneSymbol_recAt]; simp
  · omega
  · omega
  · have : (fun i : NodeIdx => decide (i.val < (oneSymbol x w).next) && ((oneSymbol x w).recAt i).leaf) =
        fun i : NodeIdx => decide (i.val < 1) := by
      funext i
      rw [Bool.eq_iff_iff, Bool.and_eq_true, decide_eq_true_iff, decide_eq_true_iff, hleaf, hn, hlt]
      constructor
      · rintro ⟨_, rfl⟩; decide
      · intro h
        have : i = 0 := Fin.ext (by simpa using h)
        exact ⟨.inl this, this⟩
    rw [this, length_filter_finRange 511 1 (by omega), hl]
  · intro i hi
    have h1 : i ≠ 1 := by rintro rfl; rw [hn] at hi; exact absurd hi (by decide)
    have h0 : i ≠ 0 := by rintro rfl; rw [hn] at hi; exact absurd hi (by decide)
    rw [oneSymbol_recAt]
    refine ⟨by simp [h1, h0], fun b => ?_⟩
    rw [oneSymbol_childAt]
    simp [h1]
  · intro i b c hc
    rw [oneSymbol_childAt] at hc
    split at hc
    · have : c = 0 := (Option.some.inj hc).symm
      subst this
      rw [hn]
      decide
    · exact absurd hc (by simp)
  · intro i b j b' c hc hc'
    rw [oneSymbol_childAt] at hc hc'
    split at hc
    · next h =>
      split at hc'
      · next h' => exact ⟨h.1.trans h'.1.symm, h.2.trans h'.2.symm⟩
      · exact absurd hc' (by simp)
    · exact absurd hc (by simp)
  · intro i b hi
    rw [oneSymbol_childAt, (hleaf i).1 hi]
    simp
  · intro i hi hil
    rw [hn, hlt] at hi
    rcases hi with rfl | rfl
    · rw [(hleaf 0).2 rfl] at hil
      exact absurd hil (by simp)
    · exact ⟨false, 0, by rw [oneSymbol_childAt]; simp⟩
  · intro i j _ _ hi hj _
    rw [(hleaf i).1 hi, (hleaf j).1 hj]
  · intro i hi
    rw [hn, hlt] at hi
    rcases hi with rfl | rfl
    · exact ⟨[false], by rw [Tree.follow_cons, Arena.toTree_childAt, oneSymbol_childAt]; rfl⟩
    · exact ⟨[], rfl⟩
  · intro p i hp
    rcases oneSymbol_follow x w p i hp with ⟨rfl, _⟩ | ⟨rfl, _⟩ <;> simp

/-! ### All cases -/

/-- BUILD leaves a tree that meets R45 of 10_state.md, whatever FREQ holds (R143 of 42_build.md). -/
theorem buildTree_inv (f : Table Word) : TreeInv (buildTree f) := by
  rcases Nat.lt_trichotomy (presentSymbols f).length 1 with h | h | h
  · rw [buildTree_empty f (List.length_eq_zero_iff.1 (by omega))]
    exact Tree.empty_inv
  · obtain ⟨x, hx⟩ := List.length_eq_one_iff.1 h
    rw [buildTree_one f x hx]
    exact oneSymbol_inv x _
  · obtain ⟨a, root, e, hf⟩ := buildTree_forest f (by omega)
    rw [e]
    exact hf.tree_inv rfl (by omega)

end Sys2Proof.Machine
end

