-- ==== Sys2Proof/Laws/BuildGreedy.lean ====
section
/-! SUPPORT. The merges of BUILD take the two pending records of least key, read off the tree they leave (R134 to R137, R140 of
42_build.md). -/

namespace Sys2Proof.Machine

/-- Record `r` of the tree is the merge of the two pending records of least key. -/
def Tree.MergeAt (t : Tree) (r : NodeIdx) : Prop :=
  ∃ i j, t.childAt r false = some i ∧ t.childAt r true = some j ∧
    t.PendingAt r i ∧ t.PendingAt r j ∧ t.KeyBelow i j ∧
    (∀ x, t.PendingAt r x → x ≠ i → x ≠ j → t.KeyBelow j x) ∧
    (t.nodeAt r).leaf = false ∧ (t.nodeAt r).sym = 0#8 ∧
    (t.nodeAt r).freq.toNat = (t.nodeAt i).freq.toNat + (t.nodeAt j).freq.toNat

/-- Whether a record is such a merge depends on the records up to it alone. -/
theorem Tree.MergeAt.congr {t t' : Tree} {r : NodeIdx} (h : t.MergeAt r) (hn : ∀ i, i ≤ r → t'.nodeAt i = t.nodeAt i)
    (hc : ∀ i b, i ≤ r → t'.childAt i b = t.childAt i b) : t'.MergeAt r := by
  have hpend : ∀ x, t'.PendingAt r x ↔ t.PendingAt r x := by
    intro x
    unfold Tree.PendingAt
    constructor <;> rintro ⟨h1, h2⟩ <;> refine ⟨h1, fun y b hy => ?_⟩
    · rw [← hc y b (Fin.le_of_lt hy)]; exact h2 y b hy
    · rw [hc y b (Fin.le_of_lt hy)]; exact h2 y b hy
  have hkey : ∀ x y, x < r → y < r → (t'.KeyBelow x y ↔ t.KeyBelow x y) := by
    intro x y hx hy
    unfold Tree.KeyBelow
    rw [hn x (Fin.le_of_lt hx), hn y (Fin.le_of_lt hy)]
  obtain ⟨i, j, h1, h2, h3, h4, h5, h6, h7, h8, h9⟩ := h
  refine ⟨i, j, by rw [hc r false (Fin.le_refl r)]; exact h1, by rw [hc r true (Fin.le_refl r)]; exact h2, (hpend i).2 h3, (hpend j).2 h4,
    (hkey i j h3.1 h4.1).2 h5, fun x hx hi hj => (hkey j x h4.1 hx.1).2 (h6 x ((hpend x).1 hx) hi hj), ?_, ?_, ?_⟩
  · rw [hn r (Fin.le_refl r)]; exact h7
  · rw [hn r (Fin.le_refl r)]; exact h8
  · rw [hn r (Fin.le_refl r), hn i (Fin.le_of_lt h3.1), hn j (Fin.le_of_lt h4.1)]; exact h9

/-- In a forest the pending nodes are the records without a parent. -/
theorem Forest.pending_iff {n total : Nat} {base a : Arena} {pend : List NodeIdx} (h : Forest n total base a pend)
    (hroom : a.next < 511) (root x : NodeIdx) : (a.toTree root).PendingAt a.nextIdx x ↔ x ∈ pend := by
  have hnx := Arena.nextIdx_val hroom
  constructor
  · rintro ⟨hx, hno⟩
    rw [Fin.lt_def, hnx] at hx
    refine (h.orphan x hx).2 fun y b hy => ?_
    by_cases hu : a.next ≤ y.val
    · rw [(h.unused y hu).2 b] at hy; exact absurd hy (by simp)
    · exact hno y b (by rw [Fin.lt_def, hnx]; omega) hy
  · intro hx
    have hlt := h.pend_lt x hx
    exact ⟨by rw [Fin.lt_def, hnx]; exact hlt, fun y b _ => (h.orphan x hlt).1 hx y b⟩

/-- The merges made so far are all of the two least keys. -/
theorem mergeRounds_greedy {n total : Nat} {base : Arena} (hn : n ≤ 256) (ht : total < 2 ^ 40) (root : NodeIdx) (k : Nat) (a : Arena)
    (pend : List NodeIdx) (h : Forest n total base a pend)
    (hg : ∀ r : NodeIdx, n ≤ r.val → r.val < a.next → (a.toTree root).MergeAt r) :
    ∀ r : NodeIdx, n ≤ r.val → r.val < (mergeRounds k a pend).1.next → ((mergeRounds k a pend).1.toTree root).MergeAt r := by
  induction k generalizing a pend with
  | zero => exact hg
  | succ k ih =>
    by_cases h2 : 2 ≤ pend.length
    · obtain ⟨i, j, rest, hperm, hmin, hnext, e⟩ := mergeRounds_succ k a h.nodup h2
      rw [e]
      have hcount := h.count
      have hroom : a.next < 511 := by omega
      have hnx := Arena.nextIdx_val hroom
      have hmem : ∀ x, x ∈ pend ↔ x = i ∨ x = j ∨ x ∈ rest := fun x => by rw [hperm.mem_iff]; simp
      have hi := h.pend_lt i ((hmem i).2 (.inl rfl))
      have hj := h.pend_lt j ((hmem j).2 (.inr (.inl rfl)))
      have hne : ∀ x : NodeIdx, x.val < a.next → x ≠ a.nextIdx := fun x hx e => by rw [e] at hx; omega
      have hrec : ∀ x : NodeIdx, x.val < a.next → (a.merge i j).recAt x = a.recAt x := fun x hx => by
        rw [Arena.recAt_merge hroom, if_neg (hne x hx)]
      have hchild : ∀ (x : NodeIdx) b, x.val < a.next → (a.merge i j).childAt x b = a.childAt x b := fun x b hx => by
        rw [Arena.childAt_merge hroom, if_neg (hne x hx)]
      have hf := h.merge hn ht hperm
      refine ih _ _ hf fun r hr hlt => ?_
      rw [Arena.merge_next] at hlt
      by_cases hrn : r.val = a.next
      · have hr' := (Arena.eq_nextIdx hroom r).1 hrn
        subst hr'
        have c1 : (a.merge i j).childAt a.nextIdx false = some i := by rw [Arena.childAt_merge hroom, if_pos rfl]; rfl
        have c2 : (a.merge i j).childAt a.nextIdx true = some j := by rw [Arena.childAt_merge hroom, if_pos rfl]; rfl
        have hpend : ∀ x, ((a.merge i j).toTree root).PendingAt a.nextIdx x ↔ x ∈ pend := by
          intro x
          rw [← h.pending_iff hroom root x]
          unfold Tree.PendingAt
          constructor <;> rintro ⟨h1, h2⟩ <;> refine ⟨h1, fun y b hy => ?_⟩ <;> have hy' := hy <;> rw [Fin.lt_def, hnx] at hy'
          · have := h2 y b hy
            rw [Arena.toTree_childAt, hchild y b hy'] at this
            exact this
          · rw [Arena.toTree_childAt, hchild y b hy']
            exact h2 y b hy
        have hkey : ∀ x y : NodeIdx, x.val < a.next → y.val < a.next → a.before x y = true → ((a.merge i j).toTree root).KeyBelow x y := by
          intro x y hx hy hb
          unfold Tree.KeyBelow
          rw [Arena.toTree_nodeAt, Arena.toTree_nodeAt, hrec x hx, hrec y hy]
          exact (Arena.before_iff a x y).1 hb
        have hrecn : (a.merge i j).recAt a.nextIdx = a.mergeRec i j := by rw [Arena.recAt_merge hroom, if_pos rfl]
        refine ⟨i, j, c1, c2, (hpend i).2 ((hmem i).2 (.inl rfl)), (hpend j).2 ((hmem j).2 (.inr (.inl rfl))),
          hkey i j hi hj (hmin j (by simp)), fun x hx hxi hxj => ?_, by rw [Arena.toTree_nodeAt, hrecn]; rfl,
          by rw [Arena.toTree_nodeAt, hrecn]; rfl, hf.sums a.nextIdx i j c1 c2⟩
        have hxp := (hpend x).1 hx
        have hxr : x ∈ rest := by
          rcases (hmem x).1 hxp with h | h | h
          · exact absurd h hxi
          · exact absurd h hxj
          · exact h
        exact hkey j x hj (h.pend_lt x hxp) (hnext x hxr)
      · have hlt' : r.val < a.next := by omega
        refine (hg r hr hlt').congr (fun x hx => ?_) fun x b hx => ?_
        · rw [Fin.le_def] at hx
          exact hrec x (by omega)
        · rw [Fin.le_def] at hx
          exact hchild x b (by omega)
    · have hstop : mergeRounds (k + 1) a pend = (a, pend) := by
        match pend, h2 with
        | [], _ => simp [mergeRounds, Arena.extractMin, Arena.leastKey]
        | [x], _ => exact mergeRounds_one _ a x
        | _ :: _ :: _, h2 => simp at h2
      rw [hstop]
      exact hg

/-- BUILD with two symbols or more: every internal record is the merge of the two pending records of least key (R135 to R137). -/
theorem buildTree_greedy (f : Table Word) (hn : 2 ≤ (presentSymbols f).length) :
    (buildTree f).nnodes.toNat = 2 * (presentSymbols f).length - 1 ∧
    ∀ r : NodeIdx, (presentSymbols f).length ≤ r.val → r.val < (buildTree f).nnodes.toNat → (buildTree f).MergeAt r := by
  have hl := length_presentSymbols f
  obtain ⟨root, e, h⟩ := mergeRounds_forest hl (freqSum_lt f) (presentSymbols f).length _ _ (addLeaves_forest f)
    (by rw [← List.length_pos_iff]; simp [leafIndices]; omega) (by simp [leafIndices])
  have hb : buildTree f = (mergeRounds (presentSymbols f).length (addLeaves f) (leafIndices (presentSymbols f).length)).1.toTree root := by
    simp only [buildTree, addLeaves_next]
    rw [if_neg (by omega), if_neg (by omega), e]
    rfl
  have hnext := (h.next_eq hn hl).1
  have hg := mergeRounds_greedy hl (freqSum_lt f) root (presentSymbols f).length _ _ (addLeaves_forest f)
    (fun r h1 h2 => by rw [addLeaves_next] at h2; omega)
  rw [hb]
  have hnn : ((mergeRounds (presentSymbols f).length (addLeaves f) (leafIndices (presentSymbols f).length)).1.toTree root).nnodes.toNat =
      2 * (presentSymbols f).length - 1 := by
    rw [Arena.toTree_nnodes, hnext, BitVec.toNat_ofNat, Nat.mod_eq_of_lt (by omega)]
  rw [hnn]
  exact ⟨rfl, fun r h1 h2 => hg r h1 (by omega)⟩

end Sys2Proof.Machine
end

