-- ==== Sys2Proof/Laws/Derive.lean ====
section
/-! SUPPORT. What the walk of DERIVE does: it stores, for every leaf below a record, the path to it; it succeeds exactly where no path
passes the levels it may. -/

namespace Sys2Proof.Machine

/-- The leaves below record `i` in the order of the walk, each with its symbol and its path; none where a path is too long. -/
def leafPaths (t : Tree) : (depth : Nat) → NodeIdx → Bits → Option (List (Sym × Bits))
  | 0, i, path =>
    if (t.nodeAt i).leaf then some [((t.nodeAt i).sym, path)]
    else if t.childAt i false = none ∧ t.childAt i true = none then some []
    else none
  | depth + 1, i, path =>
    if (t.nodeAt i).leaf then some [((t.nodeAt i).sym, path)]
    else
      match (match t.childAt i false with | none => some [] | some l => leafPaths t depth l (path ++ [false])) with
      | none => none
      | some xs =>
        match (match t.childAt i true with | none => some [] | some r => leafPaths t depth r (path ++ [true])) with
        | none => none
        | some ys => some (xs ++ ys)

/-- The code table with a list of entries stored in order. -/
def storeAll (c : CodeTable) (l : List (Sym × Bits)) : CodeTable := l.foldl (fun c e => c.store e.1 e.2) c

/-- The walk stores the leaves it finds (R150 of 43_derive.md). -/
theorem walk_eq (t : Tree) (depth : Nat) (i : NodeIdx) (path : Bits) (c : CodeTable) :
    walk t depth i path c = (leafPaths t depth i path).map (storeAll c) := by
  induction depth generalizing i path c with
  | zero =>
    simp only [walk, leafPaths]
    split
    · rfl
    · split <;> rfl
  | succ depth ih =>
    simp only [walk, leafPaths]
    split
    · rfl
    · cases hl : t.childAt i false with
      | none =>
        simp only [onChild]
        cases hr : t.childAt i true with
        | none => rfl
        | some r =>
          simp only [ih]
          cases leafPaths t depth r (path ++ [true]) <;> rfl
      | some l =>
        simp only [onChild, ih]
        cases leafPaths t depth l (path ++ [false]) with
        | none => rfl
        | some xs =>
          cases hr : t.childAt i true with
          | none => simp
          | some r =>
            simp only [Option.map_some]
            cases leafPaths t depth r (path ++ [true]) with
            | none => rfl
            | some ys => simp [storeAll]

/-- What the walk finds: the leaves that paths lead to from record `i`. -/
theorem mem_leafPaths {t : Tree} (hp : ∀ i b c, t.childAt i b = some c → (t.nodeAt i).leaf = false) {depth : Nat} {i : NodeIdx}
    {path : Bits} {l : List (Sym × Bits)} (h : leafPaths t depth i path = some l) (e : Sym × Bits) :
    e ∈ l ↔ ∃ q j, t.follow i q = some j ∧ (t.nodeAt j).leaf = true ∧ e = ((t.nodeAt j).sym, path ++ q) := by
  have leafCase : ∀ {i : NodeIdx} {path : Bits}, (t.nodeAt i).leaf = true →
      (e ∈ [((t.nodeAt i).sym, path)] ↔
        ∃ q j, t.follow i q = some j ∧ (t.nodeAt j).leaf = true ∧ e = ((t.nodeAt j).sym, path ++ q)) := by
    intro i path hl
    constructor
    · intro he
      exact ⟨[], i, rfl, hl, by simpa using he⟩
    · rintro ⟨q, j, hf, _, rfl⟩
      cases q with
      | nil => simp [show i = j from Option.some.inj hf]
      | cons b rest =>
        rw [Tree.follow_cons] at hf
        cases hc : t.childAt i b with
        | none => rw [hc] at hf; exact absurd hf (by simp)
        | some c => rw [hp i b c hc] at hl; exact absurd hl (by simp)
  have inner : ∀ {i : NodeIdx} {path : Bits}, (t.nodeAt i).leaf = false →
      ((∃ q j, t.follow i q = some j ∧ (t.nodeAt j).leaf = true ∧ e = ((t.nodeAt j).sym, path ++ q)) ↔
        ∃ b c, t.childAt i b = some c ∧
          ∃ q j, t.follow c q = some j ∧ (t.nodeAt j).leaf = true ∧ e = ((t.nodeAt j).sym, (path ++ [b]) ++ q)) := by
    intro i path hl
    constructor
    · rintro ⟨q, j, hf, hj, rfl⟩
      cases q with
      | nil => rw [show i = j from Option.some.inj hf, hj] at hl; exact absurd hl (by simp)
      | cons b rest =>
        rw [Tree.follow_cons] at hf
        cases hc : t.childAt i b with
        | none => rw [hc] at hf; exact absurd hf (by simp)
        | some c =>
          rw [hc] at hf
          exact ⟨b, c, hc, rest, j, hf, hj, by simp⟩
    · rintro ⟨b, c, hc, q, j, hf, hj, rfl⟩
      exact ⟨b :: q, j, by rw [Tree.follow_cons, hc]; exact hf, hj, by simp⟩
  induction depth generalizing i path l with
  | zero =>
    simp only [leafPaths] at h
    split at h
    · next hl => rw [← Option.some.inj h]; exact leafCase hl
    · next hl =>
      split at h
      · next hn =>
        rw [← Option.some.inj h, inner (by simpa using hl)]
        constructor
        · intro he; simp at he
        · rintro ⟨b, c, hc, _⟩
          cases b
          · rw [hn.1] at hc; simp at hc
          · rw [hn.2] at hc; simp at hc
      · exact absurd h (by simp)
  | succ depth ih =>
    simp only [leafPaths] at h
    split at h
    · next hl => rw [← Option.some.inj h]; exact leafCase hl
    · next hl =>
      rw [inner (by simpa using hl)]
      have side : ∀ (b : Bool) (zs : List (Sym × Bits)),
          (match t.childAt i b with | none => some [] | some c => leafPaths t depth c (path ++ [b])) = some zs →
          (e ∈ zs ↔ ∃ c, t.childAt i b = some c ∧
            ∃ q j, t.follow c q = some j ∧ (t.nodeAt j).leaf = true ∧ e = ((t.nodeAt j).sym, (path ++ [b]) ++ q)) := by
        intro b zs hz
        cases hc : t.childAt i b with
        | none => rw [hc] at hz; simp [← Option.some.inj hz]
        | some c =>
          rw [hc] at hz
          exact (ih hz).trans (by simp)
      cases hx : (match t.childAt i false with | none => some [] | some l => leafPaths t depth l (path ++ [false])) with
      | none => rw [hx] at h; exact absurd h (by simp)
      | some xs =>
        rw [hx] at h
        simp only at h
        cases hy : (match t.childAt i true with | none => some [] | some r => leafPaths t depth r (path ++ [true])) with
        | none => rw [hy] at h; exact absurd h (by simp)
        | some ys =>
          rw [hy] at h
          simp only [Option.some.injEq] at h
          rw [← h, List.mem_append, side false xs hx, side true ys hy]
          simp [Bool.exists_bool]

/-- The walk succeeds where no path from the record is longer than the levels it may take. -/
theorem leafPaths_some {t : Tree} {depth : Nat} {i : NodeIdx} (path : Bits)
    (h : ∀ q j, t.follow i q = some j → q.length ≤ depth) : ∃ l, leafPaths t depth i path = some l := by
  have below : ∀ {depth : Nat} {i : NodeIdx}, (∀ q j, t.follow i q = some j → q.length ≤ depth + 1) →
      ∀ b c, t.childAt i b = some c → ∀ q j, t.follow c q = some j → q.length ≤ depth := by
    intro depth i h b c hc q j hf
    have := h (b :: q) j (by rw [Tree.follow_cons, hc]; exact hf)
    simpa using this
  induction depth generalizing i path with
  | zero =>
    have no : ∀ b, t.childAt i b = none := by
      intro b
      cases hc : t.childAt i b with
      | none => rfl
      | some c =>
        have := h [b] c (by rw [Tree.follow_cons, hc]; rfl)
        simp at this
    by_cases hl : (t.nodeAt i).leaf <;> simp [leafPaths, hl, no]
  | succ depth ih =>
    by_cases hl : (t.nodeAt i).leaf
    · simp [leafPaths, hl]
    · have side : ∀ b, ∃ zs, (match t.childAt i b with | none => some [] | some c => leafPaths t depth c (path ++ [b])) = some zs := by
        intro b
        cases hc : t.childAt i b with
        | none => exact ⟨[], rfl⟩
        | some c => exact ih (path ++ [b]) (below h b c hc)
      obtain ⟨xs, hx⟩ := side false
      obtain ⟨ys, hy⟩ := side true
      exact ⟨xs ++ ys, by simp only [leafPaths, hl, hx, hy, Bool.false_eq_true, if_false]⟩

/-- The walk fails where a path through internal records is longer than the levels it may take. -/
theorem leafPaths_none {t : Tree} {depth : Nat} {i : NodeIdx} (path q : Bits) (hq : q.length = depth + 1)
    (hin : ∀ k, k ≤ depth → ∃ j, t.follow i (q.take k) = some j ∧ (t.nodeAt j).leaf = false)
    (hend : ∃ j, t.follow i q = some j) : leafPaths t depth i path = none := by
  induction depth generalizing i path q with
  | zero =>
    obtain ⟨b, rfl⟩ : ∃ b, q = [b] := List.length_eq_one_iff.1 hq
    obtain ⟨j, hj, hl⟩ := hin 0 (le_refl _)
    have : i = j := Option.some.inj hj
    obtain ⟨j', hj'⟩ := hend
    rw [← this] at hl
    rw [Tree.follow_cons] at hj'
    cases b <;> cases hc : t.childAt i _ with
    | none => rw [hc] at hj'; exact absurd hj' (by simp)
    | some c => simp [leafPaths, hl, hc]
  | succ depth ih =>
    cases q with
    | nil => simp at hq
    | cons b rest =>
      obtain ⟨j, hj, hl⟩ := hin 0 (Nat.zero_le _)
      have : i = j := Option.some.inj hj
      rw [← this] at hl
      obtain ⟨j', hj'⟩ := hend
      rw [Tree.follow_cons] at hj'
      cases hc : t.childAt i b with
      | none => rw [hc] at hj'; exact absurd hj' (by simp)
      | some c =>
        rw [hc] at hj'
        have sub : leafPaths t depth c (path ++ [b]) = none := by
          apply ih (path ++ [b]) rest (by simpa using hq) _ ⟨j', hj'⟩
          intro k hk
          obtain ⟨u, hu, hul⟩ := hin (k + 1) (by omega)
          rw [List.take_succ_cons, Tree.follow_cons, hc] at hu
          exact ⟨u, hu, hul⟩
        cases b
        · simp [leafPaths, hl, hc, sub]
        · simp only [leafPaths, hl, hc, sub]
          cases (match t.childAt i false with | none => some [] | some l => leafPaths t depth l (path ++ [false])) <;> rfl

/-! ### The entries stored -/

theorem codeOf_storeAll_other (c : CodeTable) (l : List (Sym × Bits)) (s : Sym) (h : ∀ e ∈ l, e.1 ≠ s) :
    (storeAll c l).codeOf s = c.codeOf s ∧ ∀ j, (storeAll c l).codebit s j = c.codebit s j := by
  induction l generalizing c with
  | nil => exact ⟨rfl, fun _ => rfl⟩
  | cons e rest ih =>
    have he : s ≠ e.1 := fun h' => h e List.mem_cons_self h'.symm
    obtain ⟨h1, h2⟩ := ih (c.store e.1 e.2) fun e' h' => h e' (List.mem_cons_of_mem _ h')
    refine ⟨?_, fun j => ?_⟩
    · exact h1.trans (CodeTable.codeOf_store_other c e.2 he)
    · exact (h2 j).trans (CodeTable.codebit_store_other c e.2 j he)

/-- A code stored by itself: read back bit for bit, zeros beyond (R152). -/
theorem codeOf_store_same (t : CodeTable) (x : Sym) (c : Bits) (h : c.length ≤ 255) : (t.store x c).codeOf x = c := by
  have hl : c.length % 256 = c.length := Nat.mod_eq_of_lt (by omega)
  apply List.ext_getElem
  · simp [hl]
  · intro j h1 h2
    have : (t.store x c).codebit x j = c.getD j false := CodeTable.codebit_store_same t x c j (by omega)
    simp [CodeTable.codeOf, this, List.getElem?_eq_getElem h2]

/-- An entry of a list in which a symbol has one path is what the table holds in the end. -/
theorem codeOf_storeAll (c : CodeTable) (l : List (Sym × Bits)) (hu : ∀ e ∈ l, ∀ e' ∈ l, e.1 = e'.1 → e = e') (s : Sym) (p : Bits)
    (h : (s, p) ∈ l) (hp : p.length ≤ 255) :
    (storeAll c l).codeOf s = p ∧ ∀ j, j < 256 → (storeAll c l).codebit s j = p.getD j false := by
  induction l generalizing c with
  | nil => simp at h
  | cons e rest ih =>
    have hu' : ∀ e ∈ rest, ∀ e' ∈ rest, e.1 = e'.1 → e = e' := fun e h e' h' =>
      hu e (List.mem_cons_of_mem _ h) e' (List.mem_cons_of_mem _ h')
    by_cases hr : ∃ e' ∈ rest, e'.1 = s
    · obtain ⟨e', h', hs⟩ := hr
      have : e' = (s, p) := hu e' (List.mem_cons_of_mem _ h') (s, p) h hs
      exact ih (c.store e.1 e.2) hu' (this ▸ h')
    · have hr' : ∀ e' ∈ rest, e'.1 ≠ s := fun e' h' he => hr ⟨e', h', he⟩
      have he : e = (s, p) := by
        rcases List.mem_cons.1 h with h | h
        · exact h.symm
        · exact absurd rfl (hr' _ h)
      obtain ⟨h1, h2⟩ := codeOf_storeAll_other (c.store e.1 e.2) rest s hr'
      subst he
      refine ⟨h1.trans (codeOf_store_same c s p hp), fun j hj => ?_⟩
      exact (h2 j).trans (CodeTable.codebit_store_same c s p j hj)

end Sys2Proof.Machine
end

