-- ==== Sys2Proof/Laws/Pack.lean ====
section
/-! SUPPORT. What the output shifter, the multiplexer loop and the flush of PACK do: they write the concatenation of the codes, or
fault at the first byte that does not fit or has no code. -/

namespace Sys2Proof.Machine

/-- The shifter after the bits `bs`, started on the buffer `m` (R162 of 44_pack.md): whole bytes written in order, the rest in the
accumulator, the buffer from there on untouched. -/
structure ShiftInv (m : Memory) (bs : Bits) (h : Shifter) : Prop where
  total : h.total = bs.length
  k : h.k = bs.length / 8
  cnt : h.cnt = bs.length % 8
  acc : h.acc = (bs.drop (8 * (bs.length / 8))).foldl BitVec.shiftConcat 0#8
  written : ∀ p (hp : p < bs.length), p < 8 * (bs.length / 8) → h.pkd.payloadBit p = bs[p]
  beyond : ∀ a, bs.length / 8 ≤ a → h.pkd.read a = m.read a

theorem ShiftInv.start (m : Memory) : ShiftInv m [] (Shifter.start m) := by
  constructor <;> simp [Shifter.start]

/-- A byte filled by eight bits: its bit 7 − q is the q-th of them. -/
theorem getLsbD_eight (bs : Bits) (hl : bs.length = 8) (q : Nat) (hq : q < bs.length) :
    (bs.foldl BitVec.shiftConcat 0#8).getLsbD (7 - q) = bs[q] := by
  rw [getLsbD_foldl_shiftConcat _ _ _ (by omega), dif_pos (by omega)]
  congr 1
  omega

theorem drop_append_single (bs : Bits) (b : Bool) (n : Nat) (h : n ≤ bs.length) : (bs ++ [b]).drop n = bs.drop n ++ [b] :=
  List.drop_append_of_le_length h

/-- One bit that fits. -/
theorem shiftOut_ok {m : Memory} {bs : Bits} {h : Shifter} (hi : ShiftInv m bs h) (size i : Nat) (b : Bool)
    (hfit : (bs.length + 1) / 8 ≤ size) : ∃ h', shiftOut size i b h = .ok h' ∧ ShiftInv m (bs ++ [b]) h' := by
  have hlen : 8 * (bs.length / 8) ≤ bs.length := by omega
  by_cases h8 : h.cnt + 1 = 8
  · have hc := hi.cnt
    have hkk := hi.k
    have hk : ¬ size ≤ h.k := by omega
    have hd : (bs.length + 1) / 8 = bs.length / 8 + 1 := by omega
    have hfull : 8 * (bs.length / 8) + 8 = bs.length + 1 := by omega
    refine ⟨_, by simp only [shiftOut, h8, if_true, hk, if_false]; rfl, ?_⟩
    constructor
    · simp [hi.total]
    · simp [hkk, hd]
    · simp only [List.length_append, List.length_singleton]; omega
    · have : (bs ++ [b]).drop (8 * ((bs ++ [b]).length / 8)) = [] := by
        apply List.drop_eq_nil_of_le
        simp only [List.length_append, List.length_singleton, hd]; omega
      rw [this]
      rfl
    · intro p hp hp8
      simp only [List.length_append, List.length_singleton, hd] at hp hp8
      simp only [Memory.payloadBit]
      by_cases hpk : p / 8 = h.k
      · rw [hpk, Memory.read_write_same, hi.acc]
        have e : ((bs.drop (8 * (bs.length / 8))).foldl BitVec.shiftConcat 0#8).shiftConcat b =
            ((bs ++ [b]).drop (8 * (bs.length / 8))).foldl BitVec.shiftConcat 0#8 := by
          rw [drop_append_single _ _ _ hlen, List.foldl_append]; rfl
        rw [e, getLsbD_eight _ (by simp; omega) (p % 8) (by simp; omega)]
        rw [List.getElem_drop]
        congr 1
        omega
      · have hp' : p < bs.length := by omega
        rw [Memory.read_write_other _ _ hpk, List.getElem_append_left hp']
        exact hi.written p hp' (by omega)
    · intro a ha
      simp only [List.length_append, List.length_singleton, hd] at ha
      show (h.pkd.write h.k _).read a = _
      rw [Memory.read_write_other _ _ (by omega)]
      exact hi.beyond a (by omega)
  · have hc := hi.cnt
    have hd : (bs.length + 1) / 8 = bs.length / 8 := by omega
    refine ⟨_, by simp only [shiftOut, h8, if_false]; rfl, ?_⟩
    constructor
    · simp [hi.total]
    · simp [hi.k, hd]
    · simp only [List.length_append, List.length_singleton]; omega
    · simp only [List.length_append, List.length_singleton, hd]
      rw [drop_append_single _ _ _ hlen, List.foldl_append, hi.acc]
      rfl
    · intro p hp hp8
      simp only [List.length_append, List.length_singleton, hd] at hp hp8
      have hp' : p < bs.length := by omega
      rw [List.getElem_append_left hp']
      exact hi.written p hp' hp8
    · intro a ha
      simp only [List.length_append, List.length_singleton, hd] at ha
      exact hi.beyond a ha

/-- One bit that completes a byte with no room. -/
theorem shiftOut_full {m : Memory} {bs : Bits} {h : Shifter} (hi : ShiftInv m bs h) (size i : Nat) (b : Bool)
    (h0 : bs.length / 8 ≤ size) (hfull : size < (bs.length + 1) / 8) :
    shiftOut size i b h = .error (overflowAt i (8 * (size + 1))) := by
  have hc := hi.cnt
  have hk := hi.k
  have ht := hi.total
  have h8 : h.cnt + 1 = 8 := by omega
  have hs : size ≤ h.k := by omega
  have e : h.total + 1 = 8 * (size + 1) := by omega
  simp only [shiftOut, h8, if_true, hs, e]

/-- A list of bits that fits. -/
theorem shiftBits_ok {m : Memory} {bs : Bits} {h : Shifter} (hi : ShiftInv m bs h) (size i : Nat) (cs : Bits)
    (hfit : (bs ++ cs).length / 8 ≤ size) : ∃ h', shiftBits size i cs h = .ok h' ∧ ShiftInv m (bs ++ cs) h' := by
  induction cs generalizing bs h with
  | nil => exact ⟨h, rfl, by simpa using hi⟩
  | cons b rest ih =>
    have hfit' : (bs.length + (rest.length + 1)) / 8 ≤ size := by simpa using hfit
    obtain ⟨h1, e1, i1⟩ := shiftOut_ok hi size i b (by omega)
    obtain ⟨h2, e2, i2⟩ := ih i1 (by simpa using hfit)
    exact ⟨h2, by simp only [shiftBits, e1, e2], by simpa using i2⟩

/-- A list of bits that does not fit: the byte at index `size` is completed by its 8·(size + 1)-th stream bit. -/
theorem shiftBits_full {m : Memory} {bs : Bits} {h : Shifter} (hi : ShiftInv m bs h) (size i : Nat) (cs : Bits)
    (h0 : bs.length / 8 ≤ size) (hfull : size < (bs ++ cs).length / 8) :
    shiftBits size i cs h = .error (overflowAt i (8 * (size + 1))) := by
  induction cs generalizing bs h with
  | nil => simp only [List.append_nil] at hfull; omega
  | cons b rest ih =>
    by_cases hb : size < (bs.length + 1) / 8
    · simp only [shiftBits, shiftOut_full hi size i b h0 hb]
    · obtain ⟨h1, e1, i1⟩ := shiftOut_ok hi size i b (by omega)
      simp only [shiftBits, e1]
      exact ih i1 (by simp; omega) (by simpa using hfull)

/-- The loop over a first part of the input, then over the rest. -/
theorem packBytes_append (c : CodeTable) (size i : Nat) (xs ys : List Byte) (h : Shifter) :
    packBytes c size i (xs ++ ys) h =
      match packBytes c size i xs h with
      | .error r => .error r
      | .ok h' => packBytes c size (i + xs.length) ys h' := by
  induction xs generalizing i h with
  | nil => simp [packBytes]
  | cons x rest ih =>
    simp only [List.cons_append, packBytes]
    by_cases h0 : c.lenOf x = 0
    · simp [h0]
    · simp only [h0, if_false]
      cases shiftBits size i (c.codeOf x) h with
      | error r => rfl
      | ok h1 =>
        simp only
        rw [ih, List.length_cons]
        congr 2
        ext
        congr 1
        omega

/-- Input whose bytes all have codes and whose stream fits. -/
theorem packBytes_ok {m : Memory} {bs : Bits} {h : Shifter} (hi : ShiftInv m bs h) (c : CodeTable) (size i : Nat) (xs : List Byte)
    (hc : ∀ x ∈ xs, c.lenOf x ≠ 0) (hfit : (bs ++ stream c xs).length / 8 ≤ size) :
    ∃ h', packBytes c size i xs h = .ok h' ∧ ShiftInv m (bs ++ stream c xs) h' := by
  induction xs generalizing bs h i with
  | nil => exact ⟨h, rfl, by simpa [stream] using hi⟩
  | cons x rest ih =>
    have hs : stream c (x :: rest) = c.codeOf x ++ stream c rest := by simp [stream]
    rw [hs] at hfit ⊢
    obtain ⟨h1, e1, i1⟩ := shiftBits_ok hi size i (c.codeOf x) (by
      simp only [List.length_append] at hfit ⊢; omega)
    obtain ⟨h2, e2, i2⟩ := ih i1 (i + 1) (fun y hy => hc y (List.mem_cons_of_mem _ hy)) (by simpa using hfit)
    refine ⟨h2, ?_, by simpa using i2⟩
    simp only [packBytes, hc x List.mem_cons_self, if_false, e1, e2]

/-- The first byte without a code, after bytes that have codes and fit (R165 of 44_pack.md). -/
theorem packBytes_noCode {m : Memory} (c : CodeTable) (size : Nat) (xs ys : List Byte) (x : Byte)
    (hc : ∀ y ∈ xs, c.lenOf y ≠ 0) (h0 : c.lenOf x = 0) (hfit : (stream c xs).length / 8 ≤ size) :
    packBytes c size 0 (xs ++ x :: ys) (Shifter.start m) = .error (noCodeAt x xs.length) := by
  obtain ⟨h1, e1, _⟩ := packBytes_ok (ShiftInv.start m) c size 0 xs hc (by simpa using hfit)
  rw [packBytes_append, e1]
  simp [packBytes, h0]

/-- The first byte whose code does not fit, after bytes that have codes and fit (R166 item f). -/
theorem packBytes_full {m : Memory} (c : CodeTable) (size : Nat) (xs ys : List Byte) (x : Byte)
    (hc : ∀ y ∈ xs, c.lenOf y ≠ 0) (hx : c.lenOf x ≠ 0) (hfit : (stream c xs).length / 8 ≤ size)
    (hfull : size < (stream c (xs ++ [x])).length / 8) :
    packBytes c size 0 (xs ++ x :: ys) (Shifter.start m) = .error (overflowAt xs.length (8 * (size + 1))) := by
  obtain ⟨h1, e1, i1⟩ := packBytes_ok (ShiftInv.start m) c size 0 xs hc (by simpa using hfit)
  rw [packBytes_append, e1]
  simp only [packBytes, hx, if_false]
  rw [shiftBits_full i1 size _ (c.codeOf x) (by simpa using hfit) (by simpa [stream] using hfull)]
  simp

/-- The flush of leftover bits into a last byte, if there are any and there is room (R163): the payload is the stream padded with zero
bits to whole bytes. -/
theorem flush_ok {m : Memory} {bs : Bits} {h : Shifter} (hi : ShiftInv m bs h) (size rlen : Nat) (hfit : ceil8 bs.length ≤ size) :
    ∃ h', flush size rlen h = .ok h' ∧ h'.k = ceil8 bs.length ∧ h'.total = bs.length ∧
      h'.pkd.StartsWith (bs ++ List.replicate (8 * ceil8 bs.length - bs.length) false) ∧
      ∀ a, ceil8 bs.length ≤ a → h'.pkd.read a = m.read a := by
  have hc := hi.cnt
  have hk := hi.k
  unfold ceil8 at hfit ⊢
  by_cases h0 : h.cnt = 0
  · have e : (bs.length + 7) / 8 = bs.length / 8 := by omega
    have e8 : 8 * (bs.length / 8) = bs.length := by omega
    refine ⟨h, by simp [flush, h0], by rw [e, hk], hi.total, ?_, ?_⟩
    · rw [e, e8, Nat.sub_self, List.replicate_zero, List.append_nil]
      intro p hp
      exact hi.written p hp (by omega)
    · rw [e]
      exact hi.beyond
  · have e : (bs.length + 7) / 8 = bs.length / 8 + 1 := by omega
    have hs : ¬ size ≤ h.k := by omega
    refine ⟨{ h with k := h.k + 1, pkd := h.pkd.write h.k (h.acc <<< (8 - h.cnt)) }, by simp only [flush, h0, hs, if_false],
      by simp [hk, e], hi.total, ?_, ?_⟩
    · intro p hp
      have hp8 : p < 8 * (bs.length / 8 + 1) := by
        simp only [List.length_append, List.length_replicate, e] at hp; omega
      by_cases hpk : p / 8 = h.k
      · rw [hpk, Memory.read_write_same, hi.acc, BitVec.getLsbD_shiftLeft]
        have hl : (bs.drop (8 * (bs.length / 8))).length = bs.length % 8 := by rw [List.length_drop]; omega
        by_cases hb : p < bs.length
        · rw [List.getElem_append_left hb]
          have h1 : 7 - p % 8 < 8 := by omega
          have h2 : ¬ 7 - p % 8 < 8 - h.cnt := by omega
          simp only [h1, h2, decide_true, decide_false, Bool.not_false, Bool.true_and]
          rw [getLsbD_foldl_shiftConcat _ _ _ (by omega), dif_pos (by omega), List.getElem_drop]
          congr 1
          omega
        · have h2 : 7 - p % 8 < 8 - h.cnt := by omega
          rw [List.getElem_append_right (by omega), List.getElem_replicate]
          simp [h2]
      · have hb : p < bs.length := by omega
        rw [Memory.read_write_other _ _ hpk, List.getElem_append_left hb]
        exact hi.written p hb (by omega)
    · intro a ha
      rw [e] at ha
      show (h.pkd.write h.k _).read a = _
      rw [Memory.read_write_other _ _ (by omega)]
      exact hi.beyond a (by omega)

/-- The flush with leftover bits and no room (R160). -/
theorem flush_full {m : Memory} {bs : Bits} {h : Shifter} (hi : ShiftInv m bs h) (size rlen : Nat)
    (h0 : bs.length % 8 ≠ 0) (hfull : size ≤ bs.length / 8) : flush size rlen h = .error (overflowAt rlen bs.length) := by
  have hc : h.cnt ≠ 0 := by rw [hi.cnt]; exact h0
  have hk : size ≤ h.k := by rw [hi.k]; exact hfull
  simp only [flush, hc, hk, if_true, if_false, hi.total]

/-- The whole of PACK's data path when it ends without fault (R164). -/
theorem packAll_ok (c : CodeTable) (size : Nat) (xs : List Byte) (m : Memory) (hc : ∀ x ∈ xs, c.lenOf x ≠ 0)
    (hfit : ceil8 (stream c xs).length ≤ size) :
    ∃ h, packAll c size xs m = .ok h ∧ h.k = ceil8 (stream c xs).length ∧ h.total = (stream c xs).length ∧
      h.pkd.StartsWith (stream c xs ++ List.replicate (8 * ceil8 (stream c xs).length - (stream c xs).length) false) ∧
      ∀ a, ceil8 (stream c xs).length ≤ a → h.pkd.read a = m.read a := by
  obtain ⟨h1, e1, i1⟩ := packBytes_ok (ShiftInv.start m) c size 0 xs hc (by
    simp only [List.nil_append]; unfold ceil8 at hfit; omega)
  obtain ⟨h2, e2, r⟩ := flush_ok i1 size xs.length (by simpa using hfit)
  exact ⟨h2, by simp only [packAll, e1, e2], by simpa using r⟩

/-- The loop ends without fault only if every byte has a code and all whole bytes fit. -/
theorem packBytes_ok_inv {m : Memory} {bs : Bits} {h h' : Shifter} (hi : ShiftInv m bs h) (c : CodeTable) (size i : Nat)
    (xs : List Byte) (h0 : bs.length / 8 ≤ size) (he : packBytes c size i xs h = .ok h') :
    (∀ x ∈ xs, c.lenOf x ≠ 0) ∧ (bs ++ stream c xs).length / 8 ≤ size := by
  induction xs generalizing bs h i with
  | nil => exact ⟨by simp, by simpa [stream] using h0⟩
  | cons x rest ih =>
    have hs : stream c (x :: rest) = c.codeOf x ++ stream c rest := by simp [stream]
    simp only [packBytes] at he
    by_cases hx : c.lenOf x = 0
    · rw [if_pos hx] at he
      exact absurd he (by simp)
    · rw [if_neg hx] at he
      by_cases hfit : (bs ++ c.codeOf x).length / 8 ≤ size
      · obtain ⟨h1, e1, i1⟩ := shiftBits_ok hi size i (c.codeOf x) hfit
        rw [e1] at he
        obtain ⟨r1, r2⟩ := ih i1 (i + 1) hfit he
        refine ⟨fun y hy => ?_, by rw [hs]; simpa using r2⟩
        rcases List.mem_cons.1 hy with rfl | hy
        · exact hx
        · exact r1 y hy
      · rw [shiftBits_full hi size i (c.codeOf x) h0 (by omega)] at he
        exact absurd he (by simp)

/-- PACK's data path ends without fault only if every byte has a code and the payload fits (R165, R206 of 60_exceptions.md). -/
theorem packAll_ok_inv (c : CodeTable) (size : Nat) (xs : List Byte) (m : Memory) {h : Shifter} (he : packAll c size xs m = .ok h) :
    (∀ x ∈ xs, c.lenOf x ≠ 0) ∧ ceil8 (stream c xs).length ≤ size := by
  unfold packAll at he
  cases hp : packBytes c size 0 xs (Shifter.start m) with
  | error r =>
    rw [hp] at he
    exact absurd he (by simp)
  | ok x =>
    rw [hp] at he
    obtain ⟨r1, r2⟩ := packBytes_ok_inv (ShiftInv.start m) c size 0 xs (by simp) hp
    simp only [List.nil_append] at r2
    refine ⟨r1, ?_⟩
    obtain ⟨x', e1, i1⟩ := packBytes_ok (ShiftInv.start m) c size 0 xs r1 (by simpa using r2)
    rw [hp] at e1
    rw [← Except.ok.inj e1, List.nil_append] at i1
    by_contra hfit
    unfold ceil8 at hfit
    have he : flush size xs.length x = .ok h := he
    rw [flush_full i1 size xs.length (by omega) (by omega)] at he
    exact absurd he (by simp)

end Sys2Proof.Machine
end

