-- ==== Sys2Proof/Laws/Trie.lean ====
section
/-! SUPPORT. What TRIE does with one code: the trie under construction, one record grown, the bits of one code inserted, and when that
fails (R180 to R185 of 46_trie_codec.md). -/

namespace Sys2Proof.Machine

/-- The record a bit sequence leads to from record 0. -/
def Arena.path (a : Arena) (p : Bits) : Option NodeIdx := (a.toTree 0).follow 0 p

@[simp] theorem Arena.path_nil (a : Arena) : a.path [] = some 0 := rfl

theorem Arena.path_snoc (a : Arena) (p : Bits) (b : Bool) : a.path (p ++ [b]) = (a.path p).bind fun j => a.childAt j b :=
  Tree.follow_snoc _ _ p b

theorem Arena.path_append_none {a : Arena} {p : Bits} (h : a.path p = none) (q : Bits) : a.path (p ++ q) = none := by
  have h : (a.toTree 0).follow 0 p = none := h
  show (a.toTree 0).follow 0 (p ++ q) = none
  rw [Tree.follow_append, h]
  rfl

/-- A path whose extension leads somewhere leads somewhere. -/
theorem Arena.path_left {a : Arena} {p q : Bits} {i : NodeIdx} (h : a.path (p ++ q) = some i) : ∃ j, a.path p = some j := by
  cases hp : a.path p with
  | none => rw [Arena.path_append_none hp] at h; exact absurd h (by simp)
  | some j => exact ⟨j, rfl⟩

/-- The number of leaves among the first `next` records. -/
def Arena.leafCount (a : Arena) : Nat := ((List.finRange 511).filter fun i => decide (i.val < a.next) && (a.recAt i).leaf).length

/-- The shape of a trie under construction: root at record 0, children after their parents, everything reached. -/
structure TrieShape (a : Arena) : Prop where
  pos : 1 ≤ a.next
  le : a.next ≤ 511
  unused : ∀ i : NodeIdx, a.next ≤ i.val → a.recAt i = NodeRec.zero ∧ ∀ b, a.childAt i b = none
  child : ∀ i b c, a.childAt i b = some c → i.val < c.val ∧ c.val < a.next
  uniq : ∀ i b j b' c, a.childAt i b = some c → a.childAt j b' = some c → i = j ∧ b = b'
  reached : ∀ i : NodeIdx, i.val < a.next → ∃ p, a.path p = some i
  leaf_links : ∀ i b, (a.recAt i).leaf = true → a.childAt i b = none
  freq_zero : ∀ i, (a.recAt i).freq = 0#40
  leaves : a.leafCount = a.leaves

/-- A path leads to a record in use. -/
theorem TrieShape.path_lt {a : Arena} (h : TrieShape a) {p : Bits} {i : NodeIdx} (hp : a.path p = some i) : i.val < a.next := by
  induction p using List.reverseRecOn with
  | nil =>
    have := h.pos
    rw [← Option.some.inj hp]
    show 0 < a.next
    omega
  | append_singleton p b _ =>
    rw [Arena.path_snoc] at hp
    cases hj : a.path p with
    | none => rw [hj] at hp; exact absurd hp (by simp)
    | some j =>
      rw [hj] at hp
      exact (h.child j b i hp).2

/-- One path leads to a record. -/
theorem TrieShape.path_inj {a : Arena} (h : TrieShape a) {p q : Bits} {i : NodeIdx} (hp : a.path p = some i)
    (hq : a.path q = some i) : p = q := by
  have root : ∀ j b, a.childAt j b ≠ some 0 := fun j b hc => by
    have := (h.child j b 0 hc).1
    simp at this
  induction p using List.reverseRecOn generalizing q i with
  | nil =>
    have hi : i = 0 := (Option.some.inj hp).symm
    cases q using List.reverseRecOn with
    | nil => rfl
    | append_singleton q b =>
      rw [Arena.path_snoc] at hq
      cases hj : a.path q with
      | none => rw [hj] at hq; exact absurd hq (by simp)
      | some j => rw [hj, hi] at hq; exact absurd hq (root j b)
  | append_singleton p b ih =>
    rw [Arena.path_snoc] at hp
    cases hj : a.path p with
    | none => rw [hj] at hp; exact absurd hp (by simp)
    | some j =>
      rw [hj] at hp
      have hp : a.childAt j b = some i := hp
      cases q using List.reverseRecOn with
      | nil =>
        rw [show i = 0 from (Option.some.inj hq).symm] at hp
        exact absurd hp (root j b)
      | append_singleton q b' =>
        rw [Arena.path_snoc] at hq
        cases hj' : a.path q with
        | none => rw [hj'] at hq; exact absurd hq (by simp)
        | some j' =>
          rw [hj'] at hq
          have hq : a.childAt j' b' = some i := hq
          obtain ⟨e1, e2⟩ := h.uniq j b j' b' i hp hq
          subst e1
          rw [ih hj hj', e2]

/-- Distinct paths that lead somewhere are no more than the records. -/
theorem TrieShape.length_le {a : Arena} (h : TrieShape a) {l : List Bits} (hn : l.Nodup) (hl : ∀ p ∈ l, ∃ i, a.path p = some i) :
    l.length ≤ a.next := by
  have hnd : (l.map fun p => (a.path p).getD 0).Nodup := by
    rw [List.nodup_map_iff_inj_on hn]
    intro p hp q hq e
    obtain ⟨i, hi⟩ := hl p hp
    obtain ⟨j, hj⟩ := hl q hq
    rw [hi, hj] at e
    simp only [Option.getD_some] at e
    exact h.path_inj hi (e ▸ hj)
  have hsub : (l.map fun p => (a.path p).getD 0) ⊆ (List.finRange 511).filter fun i => decide (i.val < a.next) := by
    intro x hx
    obtain ⟨p, hp, rfl⟩ := List.mem_map.1 hx
    obtain ⟨i, hi⟩ := hl p hp
    have := h.path_lt hi
    simp [hi, this]
  have := (List.subperm_of_subset hnd hsub).length_le
  rw [length_filter_finRange 511 _ h.le] at this
  simpa using this

/-- The records are no more than the paths that lead to them. -/
theorem TrieShape.le_length {a : Arena} (h : TrieShape a) {l : List Bits} (hl : ∀ p i, a.path p = some i → p ∈ l) :
    a.next ≤ l.length := by
  have hch : ∀ i : NodeIdx, ∃ p, i.val < a.next → a.path p = some i := by
    intro i
    by_cases hi : i.val < a.next
    · obtain ⟨p, hp⟩ := h.reached i hi
      exact ⟨p, fun _ => hp⟩
    · exact ⟨[], fun h => absurd h hi⟩
  choose g hg using hch
  have hnd : (((List.finRange 511).filter fun i => decide (i.val < a.next)).map g).Nodup := by
    rw [List.nodup_map_iff_inj_on ((List.nodup_finRange 511).filter _)]
    intro i hi j hj e
    have h1 := hg i (by simpa using hi)
    have h2 := hg j (by simpa using hj)
    rw [e, h2] at h1
    exact (Option.some.inj h1).symm
  have hsub : (((List.finRange 511).filter fun i => decide (i.val < a.next)).map g) ⊆ l := by
    intro p hp
    obtain ⟨i, hi, rfl⟩ := List.mem_map.1 hp
    exact hl _ i (hg i (by simpa using hi))
  have := (List.subperm_of_subset hnd hsub).length_le
  rw [List.length_map, length_filter_finRange 511 _ h.le] at this
  exact this

/-! ### One record grown (R182) -/

/-- After a record is grown under the cursor one path more leads somewhere. -/
theorem TrieShape.path_grow {a : Arena} (h : TrieShape a) (hroom : a.next < 511) {q : Bits} {cur : NodeIdx} {b : Bool}
    (hq : a.path q = some cur) (hc : a.childAt cur b = none) (r : NodeRec) (p : Bits) :
    (a.grow cur b r).path p = if p = q ++ [b] then some a.nextIdx else a.path p := by
  have hnx := Arena.nextIdx_val hroom
  have hcur := h.path_lt hq
  have hcn : cur ≠ a.nextIdx := fun e => by rw [e] at hcur; omega
  induction p using List.reverseRecOn with
  | nil => simp
  | append_singleton p c ih =>
    rw [Arena.path_snoc, ih, Arena.path_snoc]
    by_cases hp : p = q ++ [b]
    · subst hp
      rw [if_pos rfl, if_neg (by intro e; simpa using congrArg List.length e), Arena.path_snoc, hq]
      simp [Arena.childAt_grow hroom, hc, hcn.symm]
    · rw [if_neg hp]
      cases hj : a.path p with
      | none =>
        rw [if_neg (fun e => by rw [(List.append_inj' e rfl).1, hq] at hj; exact absurd hj (by simp))]
        rfl
      | some j =>
        have hjn : j ≠ a.nextIdx := fun e => by
          have := h.path_lt hj
          rw [e] at this
          omega
        simp only [Option.bind_some, Arena.childAt_grow hroom, if_neg hjn]
        by_cases hpc : p ++ [c] = q ++ [b]
        · obtain ⟨e1, e2⟩ := List.append_inj' hpc rfl
          rw [e1, hq] at hj
          rw [if_pos hpc, if_pos ⟨(Option.some.inj hj).symm, by simpa using e2⟩]
        · rw [if_neg hpc, if_neg]
          rintro ⟨rfl, rfl⟩
          exact hpc (by rw [h.path_inj hj hq])

theorem TrieShape.leafCount_grow {a : Arena} (h : TrieShape a) (hroom : a.next < 511) (cur : NodeIdx) (b : Bool) (r : NodeRec) :
    (a.grow cur b r).leafCount = if r.leaf then a.leafCount + 1 else a.leafCount := by
  have hnx := Arena.nextIdx_val hroom
  have hz : (a.recAt a.nextIdx).leaf = false := by rw [(h.unused _ (by omega)).1]; rfl
  have hp : ∀ i : NodeIdx, i ∈ ((List.finRange 511).filter fun i =>
        decide (i.val < (a.grow cur b r).next) && ((a.grow cur b r).recAt i).leaf) ↔
      (i = a.nextIdx ∧ r.leaf = true) ∨ i ∈ (List.finRange 511).filter fun i => decide (i.val < a.next) && (a.recAt i).leaf := by
    intro i
    simp only [List.mem_filter, List.mem_finRange, true_and, Bool.and_eq_true, decide_eq_true_iff, Arena.grow_next,
      Arena.recAt_grow hroom]
    by_cases e : i = a.nextIdx
    · subst e
      simp [hz, hnx]
    · have : i.val ≠ a.next := fun e' => e ((Arena.eq_nextIdx hroom i).1 e')
      simp only [e, if_false, false_and, false_or]
      constructor
      · rintro ⟨h1, h2⟩
        have h1 : i.val < a.next + 1 := of_decide_eq_true h1
        exact ⟨by omega, h2⟩
      · rintro ⟨h1, h2⟩
        exact ⟨decide_eq_true (show i.val < a.next + 1 by omega), h2⟩
  unfold Arena.leafCount
  by_cases hr : r.leaf = true
  · rw [if_pos hr]
    have : ((List.finRange 511).filter fun i => decide (i.val < (a.grow cur b r).next) && ((a.grow cur b r).recAt i).leaf).Perm
        (a.nextIdx :: (List.finRange 511).filter fun i => decide (i.val < a.next) && (a.recAt i).leaf) := by
      rw [List.perm_ext_iff_of_nodup ((List.nodup_finRange 511).filter _)
        (List.nodup_cons.2 ⟨by simp [hz], (List.nodup_finRange 511).filter _⟩)]
      intro i
      rw [hp i, List.mem_cons]
      simp [hr]
    rw [this.length_eq, List.length_cons]
  · rw [if_neg hr]
    have : ((List.finRange 511).filter fun i => decide (i.val < (a.grow cur b r).next) && ((a.grow cur b r).recAt i).leaf).Perm
        ((List.finRange 511).filter fun i => decide (i.val < a.next) && (a.recAt i).leaf) := by
      rw [List.perm_ext_iff_of_nodup ((List.nodup_finRange 511).filter _) ((List.nodup_finRange 511).filter _)]
      intro i
      rw [hp i]
      simp [hr]
    rw [this.length_eq]

/-- A record grown under a cursor that is no leaf keeps the shape. -/
theorem TrieShape.grow {a : Arena} (h : TrieShape a) (hroom : a.next < 511) {q : Bits} {cur : NodeIdx} {b : Bool}
    (hq : a.path q = some cur) (hl : (a.recAt cur).leaf = false) (hc : a.childAt cur b = none) {r : NodeRec}
    (hr : r.freq = 0#40) : TrieShape (a.grow cur b r) := by
  have hnx := Arena.nextIdx_val hroom
  have hcur := h.path_lt hq
  have hpath := h.path_grow hroom hq hc r
  have hnone : ∀ b', a.childAt a.nextIdx b' = none := (h.unused _ (by omega)).2
  constructor
  · simp
  · simp only [Arena.grow_next]; omega
  · intro i hi
    simp only [Arena.grow_next] at hi
    have h1 : i ≠ a.nextIdx := fun e => by rw [e] at hi; omega
    have h2 : i ≠ cur := fun e => by rw [e] at hi; omega
    refine ⟨by rw [Arena.recAt_grow hroom, if_neg h1]; exact (h.unused i (by omega)).1, fun b' => ?_⟩
    rw [Arena.childAt_grow hroom, if_neg (fun e => h2 e.1), if_neg h1]
    exact (h.unused i (by omega)).2 b'
  · intro i b' c hc'
    rw [Arena.childAt_grow hroom] at hc'
    simp only [Arena.grow_next]
    split at hc'
    · next e =>
      rw [← Option.some.inj hc', e.1]
      omega
    · split at hc'
      · exact absurd hc' (by simp)
      · have := h.child i b' c hc'
        omega
  · intro i b1 j b2 c h1 h2
    rw [Arena.childAt_grow hroom] at h1 h2
    have notNew : ∀ i b, a.childAt i b = some a.nextIdx → False := fun i b e => by
      have := (h.child i b _ e).2
      omega
    split at h1
    · next e1 =>
      split at h2
      · next e2 => exact ⟨e1.1.trans e2.1.symm, e1.2.trans e2.2.symm⟩
      · split at h2
        · exact absurd h2 (by simp)
        · exact absurd (h2.trans h1.symm) (notNew j b2)
    · split at h1
      · exact absurd h1 (by simp)
      · split at h2
        · exact absurd (h1.trans h2.symm) (notNew i b1)
        · split at h2
          · exact absurd h2 (by simp)
          · exact h.uniq i b1 j b2 c h1 h2
  · intro i hi
    simp only [Arena.grow_next] at hi
    by_cases e : i.val = a.next
    · exact ⟨q ++ [b], by rw [hpath, if_pos rfl, (Arena.eq_nextIdx hroom i).1 e]⟩
    · obtain ⟨p, hp⟩ := h.reached i (by omega)
      refine ⟨p, ?_⟩
      rw [hpath, if_neg]
      · exact hp
      · rintro rfl
        rw [Arena.path_snoc, hq] at hp
        exact absurd (hc.symm.trans hp) (by simp)
  · intro i b' hi
    rw [Arena.recAt_grow hroom] at hi
    rw [Arena.childAt_grow hroom]
    by_cases e : i = a.nextIdx
    · rw [if_neg (fun e' => by rw [← e'.1, e] at hcur; omega), if_pos e]
    · rw [if_neg e] at hi
      rw [if_neg e, if_neg]
      · exact h.leaf_links i b' hi
      · rintro ⟨rfl, rfl⟩
        rw [hl] at hi
        exact absurd hi (by simp)
  · intro i
    rw [Arena.recAt_grow hroom]
    split
    · exact hr
    · exact h.freq_zero i
  · rw [h.leafCount_grow hroom, Arena.grow_leaves, h.leaves]

/-! ### The entries inserted so far -/

/-- The trie holds the entries `es` whole and the bits `q` of one more: what leads somewhere, and which records are leaves. -/
structure Holds (a : Arena) (es : List (Sym × Bits)) (q : Bits) : Prop where
  present : ∀ p, (∃ i, a.path p = some i) ↔ p <+: q ∨ ∃ e ∈ es, p <+: e.2
  entry : ∀ e ∈ es, ∃ i, a.path e.2 = some i ∧ (a.recAt i).leaf = true ∧ (a.recAt i).sym = e.1
  leaf : ∀ p i, a.path p = some i → (a.recAt i).leaf = true → ∃ e ∈ es, e.2 = p ∧ e.1 = (a.recAt i).sym

theorem prefix_snoc_iff {p q : Bits} {b : Bool} : p <+: q ++ [b] ↔ p = q ++ [b] ∨ p <+: q := by
  rw [List.prefix_concat_iff]

/-- The cursor follows a link that is there. -/
theorem Holds.follow {a : Arena} {es : List (Sym × Bits)} {q : Bits} {b : Bool} {c : NodeIdx} (h : Holds a es q)
    (hc : a.path (q ++ [b]) = some c) : Holds a es (q ++ [b]) := by
  refine ⟨fun p => ?_, h.entry, h.leaf⟩
  rw [prefix_snoc_iff]
  constructor
  · intro hp
    rcases (h.present p).1 hp with hp | hp
    · exact .inl (.inr hp)
    · exact .inr hp
  · rintro ((rfl | hp) | hp)
    · exact ⟨c, hc⟩
    · exact (h.present p).2 (.inl hp)
    · exact (h.present p).2 (.inr hp)

/-- An internal record is grown and the cursor moves to it. -/
theorem Holds.growInner {a : Arena} {es : List (Sym × Bits)} {q : Bits} {b : Bool} {cur : NodeIdx} (h : Holds a es q)
    (hs : TrieShape a) (hroom : a.next < 511) (hq : a.path q = some cur) (hc : a.childAt cur b = none) :
    Holds (a.grow cur b NodeRec.zero) es (q ++ [b]) := by
  have hnx := Arena.nextIdx_val hroom
  have hpath := hs.path_grow hroom hq hc NodeRec.zero
  have hnone : a.path (q ++ [b]) = none := by rw [Arena.path_snoc, hq]; exact hc
  have hne : ∀ p i, a.path p = some i → p ≠ q ++ [b] ∧ i ≠ a.nextIdx := by
    intro p i hp
    refine ⟨fun e => by rw [e, hnone] at hp; exact absurd hp (by simp), fun e => ?_⟩
    have := hs.path_lt hp
    rw [e] at this
    omega
  constructor
  · intro p
    rw [prefix_snoc_iff, hpath]
    by_cases e : p = q ++ [b]
    · simp [e]
    · rw [if_neg e, h.present p]
      simp [e]
  · intro e he
    obtain ⟨i, hi, h1, h2⟩ := h.entry e he
    refine ⟨i, by rw [hpath, if_neg (hne _ _ hi).1]; exact hi, ?_, ?_⟩ <;>
      rw [Arena.recAt_grow hroom, if_neg (hne _ _ hi).2]
    · exact h1
    · exact h2
  · intro p i hp hi
    rw [hpath] at hp
    split at hp
    · rw [Arena.recAt_grow hroom, if_pos (Option.some.inj hp).symm] at hi
      exact absurd hi (by simp [NodeRec.zero])
    · rw [Arena.recAt_grow hroom, if_neg (hne _ _ hp).2] at hi ⊢
      exact h.leaf p i hp hi

/-- The leaf of the last bit is grown: the entry is in. -/
theorem Holds.growLeaf {a : Arena} {es : List (Sym × Bits)} {q : Bits} {b : Bool} {cur : NodeIdx} (h : Holds a es q)
    (hs : TrieShape a) (hroom : a.next < 511) (hq : a.path q = some cur) (hc : a.childAt cur b = none) (s : Sym) :
    Holds (a.grow cur b (trieLeaf s)) ((s, q ++ [b]) :: es) [] := by
  have hnx := Arena.nextIdx_val hroom
  have hpath := hs.path_grow hroom hq hc (trieLeaf s)
  have hnone : a.path (q ++ [b]) = none := by rw [Arena.path_snoc, hq]; exact hc
  have hne : ∀ p i, a.path p = some i → p ≠ q ++ [b] ∧ i ≠ a.nextIdx := by
    intro p i hp
    refine ⟨fun e => by rw [e, hnone] at hp; exact absurd hp (by simp), fun e => ?_⟩
    have := hs.path_lt hp
    rw [e] at this
    omega
  constructor
  · intro p
    rw [hpath]
    by_cases e : p = q ++ [b]
    · subst e
      simp
    · rw [if_neg e, h.present p]
      simp only [List.mem_cons, exists_eq_or_imp, prefix_snoc_iff, e, false_or, List.prefix_nil]
      constructor
      · rintro (hp | hp)
        · exact .inr (.inl hp)
        · exact .inr (.inr hp)
      · rintro (rfl | hp | hp)
        · exact .inl (List.nil_prefix)
        · exact .inl hp
        · exact .inr hp
  · intro e he
    rcases List.mem_cons.1 he with rfl | he
    · refine ⟨a.nextIdx, by rw [hpath, if_pos rfl], ?_, ?_⟩ <;> rw [Arena.recAt_grow hroom, if_pos rfl] <;> rfl
    · obtain ⟨i, hi, h1, h2⟩ := h.entry e he
      refine ⟨i, by rw [hpath, if_neg (hne _ _ hi).1]; exact hi, ?_, ?_⟩ <;>
        rw [Arena.recAt_grow hroom, if_neg (hne _ _ hi).2]
      · exact h1
      · exact h2
  · intro p i hp hi
    rw [hpath] at hp
    split at hp
    · next e =>
      refine ⟨(s, q ++ [b]), List.mem_cons_self, e.symm, ?_⟩
      rw [Arena.recAt_grow hroom, if_pos (Option.some.inj hp).symm]
      rfl
    · rw [Arena.recAt_grow hroom, if_neg (hne _ _ hp).2] at hi ⊢
      obtain ⟨e, he, h1, h2⟩ := h.leaf p i hp hi
      exact ⟨e, List.mem_cons_of_mem _ he, h1, h2⟩

/-- Two bit sequences of which one is a prefix of the other. -/
def Conflict (p q : Bits) : Prop := p <+: q ∨ q <+: p

/-- Inserting one code: it is in, or there is a conflict with an entry before it, or the paths are more than 511. -/
theorem insertBits_spec (s : Sym) (bits q : Bits) (cur : NodeIdx) (a : Arena) (es : List (Sym × Bits)) (hs : TrieShape a)
    (hh : Holds a es q) (hq : a.path q = some cur) (hb : bits ≠ []) :
    match insertBits s q.length bits cur a with
    | .ok a' => TrieShape a' ∧ Holds a' ((s, q ++ bits) :: es) []
    | .error r =>
      ((∃ j, r = codebookAt s j) ∧ ∃ e ∈ es, Conflict e.2 (q ++ bits)) ∨
      ((∃ j, r = nodeOvfAt s j) ∧ ∀ l : List Bits, (∀ e ∈ es, ∀ p, p <+: e.2 → p ∈ l) → (∀ p, p <+: q ++ bits → p ∈ l) → 512 ≤ l.length) := by
  induction bits generalizing q cur a with
  | nil => exact absurd rfl hb
  | cons b rest ih =>
    simp only [insertBits, Arena.leafAt_eq]
    by_cases hl : (a.recAt cur).leaf = true
    · simp only [hl, if_true]
      refine .inl ⟨⟨_, rfl⟩, ?_⟩
      obtain ⟨e, he, hp, _⟩ := hh.leaf q cur hq hl
      exact ⟨e, he, .inl (hp ▸ List.prefix_append q _)⟩
    · have hl' : (a.recAt cur).leaf = false := by simpa using hl
      have hcons : q ++ b :: rest = (q ++ [b]) ++ rest := by simp
      have hfull : a.next = 511 → a.childAt cur b = none → ∀ l : List Bits, (∀ e ∈ es, ∀ p, p <+: e.2 → p ∈ l) →
          (∀ p, p <+: q ++ b :: rest → p ∈ l) → 512 ≤ l.length := by
        intro hn hc l h1 h2
        have hnone : a.path (q ++ [b]) = none := by rw [Arena.path_snoc, hq]; exact hc
        have hmem : q ++ [b] ∈ l := h2 _ (by rw [hcons]; exact List.prefix_append _ _)
        have := hs.le_length (l := l.erase (q ++ [b])) (by
          intro p i hp
          have hne : p ≠ q ++ [b] := fun e => by rw [e, hnone] at hp; exact absurd hp (by simp)
          refine (List.mem_erase_of_ne hne).2 ?_
          rcases (hh.present p).1 ⟨i, hp⟩ with hp | ⟨e, he, hp⟩
          · exact h2 p (hp.trans (List.prefix_append _ _))
          · exact h1 e he p hp)
        rw [List.length_erase_of_mem hmem] at this
        have := List.length_pos_of_mem hmem
        omega
      simp only [hl', Bool.false_eq_true, if_false]
      by_cases hr : rest = []
      · subst hr
        simp only [List.isEmpty_nil, if_true]
        cases hc : a.childAt cur b with
        | some c =>
          refine .inl ⟨⟨_, rfl⟩, ?_⟩
          have hp : a.path (q ++ [b]) = some c := by rw [Arena.path_snoc, hq]; exact hc
          rcases (hh.present _).1 ⟨c, hp⟩ with h | ⟨e, he, h⟩
          · have := h.length_le
            simp at this
          · exact ⟨e, he, .inr h⟩
        | none =>
          by_cases hn : a.next = 511
          · simp only [hn, if_true]
            exact .inr ⟨⟨_, rfl⟩, hfull hn hc⟩
          · simp only [hn, if_false]
            have hroom : a.next < 511 := lt_of_le_of_ne hs.le hn
            exact ⟨hs.grow hroom hq hl' hc rfl, hh.growLeaf hs hroom hq hc s⟩
      · have he : rest.isEmpty = false := by simpa using hr
        have hlen : q.length + 1 = (q ++ [b]).length := by simp
        simp only [he, Bool.false_eq_true, if_false]
        cases hc : a.childAt cur b with
        | some c =>
          have hp : a.path (q ++ [b]) = some c := by rw [Arena.path_snoc, hq]; exact hc
          have := ih (q ++ [b]) c a hs (hh.follow hp) hp hr
          simp only [hlen]
          simpa using this
        | none =>
          by_cases hn : a.next = 511
          · simp only [hn, if_true]
            exact .inr ⟨⟨_, rfl⟩, hfull hn hc⟩
          · simp only [hn, if_false]
            have hroom : a.next < 511 := lt_of_le_of_ne hs.le hn
            have hp : (a.grow cur b NodeRec.zero).path (q ++ [b]) = some a.nextIdx := by
              rw [hs.path_grow hroom hq hc, if_pos rfl]
            have := ih (q ++ [b]) a.nextIdx _ (hs.grow hroom hq hl' hc rfl) (hh.growInner hs hroom hq hc) hp hr
            simp only [hlen]
            simpa using this

/-- The first bits of a code that lead somewhere are followed, and nothing is made. -/
theorem insertBits_walk (s : Sym) (w rest q : Bits) (cur c : NodeIdx) (a : Arena) (hs : TrieShape a) (hq : a.path q = some cur)
    (hw : a.path (q ++ w) = some c) (hr : rest ≠ []) :
    insertBits s q.length (w ++ rest) cur a = insertBits s (q.length + w.length) rest c a := by
  induction w generalizing q cur with
  | nil =>
    rw [List.append_nil, hq] at hw
    simp [Option.some.inj hw]
  | cons b w ih =>
    have hcons : q ++ b :: w = (q ++ [b]) ++ w := by simp
    rw [hcons] at hw
    obtain ⟨j, hj⟩ := Arena.path_left hw
    have hc : a.childAt cur b = some j := by rw [Arena.path_snoc, hq] at hj; exact hj
    have hl : (a.recAt cur).leaf = false := by
      by_contra hl
      rw [hs.leaf_links cur b (by simpa using hl)] at hc
      exact absurd hc (by simp)
    have he : (w ++ rest).isEmpty = false := by simp [hr]
    have := ih (q ++ [b]) j hj hw
    simp only [List.length_append, List.length_singleton] at this
    simp only [List.cons_append, insertBits, Arena.leafAt_eq, hl, Bool.false_eq_true, if_false, he, hc, this, List.length_cons]
    congr 1
    omega

end Sys2Proof.Machine
end

