-- ==== Sys2Proof/Laws/TrieTree.lean ====
section
/-! SUPPORT. What TRIE does with a whole code table: the trie agrees with it, or the fault says what is wrong (R180 to R187 of
46_trie_codec.md). -/

namespace Sys2Proof.Machine

/-! ### The entries in order -/

/-- The entries of the symbols `ss`, the latest first. -/
def entriesBack (c : CodeTable) (ss : List Sym) : List (Sym × Bits) :=
  ((ss.filter fun s => c.lenOf s != 0).map fun s => (s, c.codeOf s)).reverse

theorem mem_entriesBack (c : CodeTable) (ss : List Sym) (e : Sym × Bits) :
    e ∈ entriesBack c ss ↔ e.1 ∈ ss ∧ c.lenOf e.1 ≠ 0 ∧ e.2 = c.codeOf e.1 := by
  obtain ⟨s, q⟩ := e
  simp only [entriesBack, List.mem_reverse, List.mem_map, List.mem_filter, bne_iff_ne, ne_eq, Prod.mk.injEq]
  constructor
  · rintro ⟨x, ⟨hx, hl⟩, rfl, rfl⟩; exact ⟨hx, hl, rfl⟩
  · rintro ⟨hx, hl, rfl⟩; exact ⟨s, ⟨hx, hl⟩, rfl, rfl⟩

theorem entriesBack_snoc (c : CodeTable) (ss : List Sym) (y : Sym) :
    entriesBack c (ss ++ [y]) = if c.lenOf y = 0 then entriesBack c ss else (y, c.codeOf y) :: entriesBack c ss := by
  by_cases h : c.lenOf y = 0
  · simp [entriesBack, h]
  · simp [entriesBack, h]

theorem length_entriesBack (c : CodeTable) (ss : List Sym) :
    (entriesBack c ss).length = (ss.filter fun s => c.lenOf s != 0).length := by
  simp [entriesBack]

/-- What the arena is after the symbols `ss`: nothing made while no entry came, a trie of the entries after. -/
def TrieOf (c : CodeTable) (ss : List Sym) (a : Arena) : Prop :=
  (entriesBack c ss = [] ∧ a = Arena.clear) ∨
  (entriesBack c ss ≠ [] ∧ TrieShape a ∧ Holds a (entriesBack c ss) [] ∧ a.leaves = (entriesBack c ss).length)

/-- The arena with the root and nothing else. -/
def rootArena : Arena := Arena.clear.push NodeRec.zero LinkPair.none

theorem rootArena_recAt (i : NodeIdx) : rootArena.recAt i = NodeRec.zero := by
  simp [rootArena, Arena.recAt_push]

theorem rootArena_childAt (i : NodeIdx) (b : Bool) : rootArena.childAt i b = none := by
  simp [rootArena, Arena.childAt_push]

theorem rootArena_path {p : Bits} {i : NodeIdx} (h : rootArena.path p = some i) : p = [] ∧ i = 0 := by
  cases p using List.reverseRecOn with
  | nil => exact ⟨rfl, (Option.some.inj h).symm⟩
  | append_singleton p b =>
    rw [Arena.path_snoc] at h
    cases hj : rootArena.path p with
    | none => rw [hj] at h; exact absurd h (by simp)
    | some j =>
      rw [hj] at h
      exact absurd h (by simp [rootArena_childAt])

theorem rootArena_shape : TrieShape rootArena := by
  have hn : rootArena.next = 1 := rfl
  constructor
  · omega
  · omega
  · intro i _; exact ⟨rootArena_recAt i, rootArena_childAt i⟩
  · intro i b c h; simp [rootArena_childAt] at h
  · intro i b j b' c h; simp [rootArena_childAt] at h
  · intro i hi
    rw [hn] at hi
    exact ⟨[], by rw [Arena.path_nil]; congr 1; exact Fin.ext (by show 0 = i.val; omega)⟩
  · intro i b _; exact rootArena_childAt i b
  · intro i; rw [rootArena_recAt]; rfl
  · show rootArena.leafCount = 0
    simp [Arena.leafCount, rootArena_recAt, NodeRec.zero]

theorem rootArena_holds : Holds rootArena [] [] := by
  constructor
  · intro p
    simp only [List.prefix_nil, List.not_mem_nil, false_and, exists_false, or_false]
    constructor
    · rintro ⟨i, h⟩; exact (rootArena_path h).1
    · rintro rfl; exact ⟨0, rfl⟩
  · intro e he; simp at he
  · intro p i _ hi
    rw [rootArena_recAt] at hi
    exact absurd hi (by simp [NodeRec.zero])

/-- With the root made, the arena is a trie of the entries so far. -/
theorem TrieOf.withRoot {c : CodeTable} {ss : List Sym} {a : Arena} (h : TrieOf c ss a) :
    TrieShape a.withTrieRoot ∧ Holds a.withTrieRoot (entriesBack c ss) [] ∧
      a.withTrieRoot.leaves = (entriesBack c ss).length := by
  rcases h with ⟨he, rfl⟩ | ⟨_, hs, hh, hl⟩
  · rw [he]
    exact ⟨rootArena_shape, rootArena_holds, rfl⟩
  · have : a.withTrieRoot = a := by
      have := hs.pos
      simp only [Arena.withTrieRoot]
      rw [if_neg (by omega)]
    rw [this]
    exact ⟨hs, hh, hl⟩

theorem codeOf_ne_nil {c : CodeTable} {s : Sym} (h : c.lenOf s ≠ 0) : c.codeOf s ≠ [] := by
  intro e
  have := congrArg List.length e
  simp at this
  exact h this

theorem entryAt_len_eq_zero (c : CodeTable) (s : Sym) : entryAt c.len s = 0#8 ↔ c.lenOf s = 0 := by
  rw [CodeTable.lenOf, ← BitVec.toNat_inj]
  simp

/-- The leaves made by a sequence of bits: one, at its end. -/
theorem insertBits_leaves (s : Sym) (bits : Bits) (j : Nat) (cur : NodeIdx) (a a' : Arena) (hb : bits ≠ [])
    (h : insertBits s j bits cur a = .ok a') : a'.leaves = a.leaves + 1 := by
  induction bits generalizing j cur a with
  | nil => exact absurd rfl hb
  | cons b rest ih =>
    simp only [insertBits] at h
    split at h
    · exact absurd h (by simp)
    · split at h
      · split at h
        · exact absurd h (by simp)
        · split at h
          · exact absurd h (by simp)
          · rw [← Except.ok.inj h]
            rfl
      · next hr =>
        have hr : rest ≠ [] := by simpa using hr
        split at h
        · exact ih _ _ _ hr h
        · split at h
          · exact absurd h (by simp)
          · exact ih _ _ (a.grow cur b NodeRec.zero) hr h

/-- One symbol: the trie takes its entry, or the fault says why not. -/
theorem insertSym_spec {c : CodeTable} {ss : List Sym} {a : Arena} (h : TrieOf c ss a) (y : Sym) :
    match insertSym c a (y, entryAt c.len y) with
    | .ok a' => TrieOf c (ss ++ [y]) a'
    | .error r => c.lenOf y ≠ 0 ∧
      (((∃ j, r = codebookAt y j) ∧ ∃ x ∈ ss, c.lenOf x ≠ 0 ∧ Conflict (c.codeOf x) (c.codeOf y)) ∨
       ((∃ j, r = nodeOvfAt y j) ∧ 512 ≤ c.trieSizeOf (ss ++ [y]))) := by
  by_cases hl : c.lenOf y = 0
  · have : insertSym c a (y, entryAt c.len y) = .ok a := by simp [insertSym, (entryAt_len_eq_zero c y).2 hl]
    simp only [this, TrieOf, entriesBack_snoc, hl, if_true]
    exact h
  · have hne : entryAt c.len y ≠ 0#8 := fun e => hl ((entryAt_len_eq_zero c y).1 e)
    have : insertSym c a (y, entryAt c.len y) = insertBits y 0 (c.codeOf y) 0 a.withTrieRoot := by simp [insertSym, hne]
    rw [this]
    obtain ⟨hs, hh, hlv⟩ := h.withRoot
    have hspec := insertBits_spec y (c.codeOf y) [] 0 a.withTrieRoot _ hs hh rfl (codeOf_ne_nil hl)
    rw [List.length_nil] at hspec
    cases hi : insertBits y 0 (c.codeOf y) 0 a.withTrieRoot with
    | ok a' =>
      rw [hi] at hspec
      refine .inr ?_
      rw [entriesBack_snoc, if_neg hl]
      refine ⟨by simp, hspec.1, by simpa using hspec.2, ?_⟩
      rw [insertBits_leaves y _ 0 0 _ a' (codeOf_ne_nil hl) hi, hlv, List.length_cons]
    | error r =>
      rw [hi] at hspec
      refine ⟨hl, ?_⟩
      rcases hspec with ⟨hj, e, he, hc⟩ | ⟨hj, hbig⟩
      · rw [mem_entriesBack] at he
        exact .inl ⟨hj, e.1, he.1, he.2.1, by rw [← he.2.2]; simpa using hc⟩
      · refine .inr ⟨hj, hbig _ ?_ ?_⟩
        · intro e he p hp
          rw [mem_entriesBack] at he
          rw [List.mem_dedup, List.mem_flatMap]
          exact ⟨e.1, by simp [he.1], by rw [List.mem_inits, ← he.2.2]; exact hp⟩
        · intro p hp
          rw [List.mem_dedup, List.mem_flatMap]
          exact ⟨y, by simp, by rw [List.mem_inits]; simpa using hp⟩

theorem insertSyms_append (c : CodeTable) (xs ys : List (Sym × Byte)) (a : Arena) :
    insertSyms c (xs ++ ys) a =
      match insertSyms c xs a with
      | .error r => .error r
      | .ok a' => insertSyms c ys a' := by
  induction xs generalizing a with
  | nil => rfl
  | cons x rest ih =>
    simp only [List.cons_append, insertSyms]
    cases insertSym c a x with
    | error r => rfl
    | ok a' => exact ih a'

/-- The symbols `ss` in order: the trie of their entries, or the first fault. -/
theorem insertSyms_spec (c : CodeTable) (ss done : List Sym) (a : Arena) (h : TrieOf c done a) :
    match insertSyms c (ss.map fun s => (s, entryAt c.len s)) a with
    | .ok a' => TrieOf c (done ++ ss) a'
    | .error r => ∃ xs y zs, ss = xs ++ y :: zs ∧ c.lenOf y ≠ 0 ∧
      (((∃ j, r = codebookAt y j) ∧ ∃ x ∈ done ++ xs, c.lenOf x ≠ 0 ∧ Conflict (c.codeOf x) (c.codeOf y)) ∨
       ((∃ j, r = nodeOvfAt y j) ∧ 512 ≤ c.trieSizeOf (done ++ xs ++ [y]))) := by
  induction ss generalizing done a with
  | nil => simpa [insertSyms] using h
  | cons y rest ih =>
    have hy := insertSym_spec h y
    simp only [List.map_cons, insertSyms]
    cases hi : insertSym c a (y, entryAt c.len y) with
    | error r =>
      rw [hi] at hy
      exact ⟨[], y, rest, rfl, hy.1, by simpa using hy.2⟩
    | ok a' =>
      rw [hi] at hy
      have := ih (done ++ [y]) a' hy
      simp only
      cases hr : insertSyms c (rest.map fun s => (s, entryAt c.len s)) a' with
      | ok a2 =>
        rw [hr] at this
        simpa using this
      | error r =>
        rw [hr] at this
        obtain ⟨xs, z, zs, e, h1, h2⟩ := this
        exact ⟨y :: xs, z, zs, by rw [e]; rfl, h1, by simpa using h2⟩

theorem trieOf_nil (c : CodeTable) : TrieOf c [] Arena.clear := .inl ⟨rfl, rfl⟩

theorem trieSizeOf_mono (c : CodeTable) {xs ys : List Sym} (h : xs ⊆ ys) : c.trieSizeOf xs ≤ c.trieSizeOf ys := by
  refine (List.subperm_of_subset (List.nodup_dedup _) ?_).length_le
  intro p hp
  rw [List.mem_dedup, List.mem_flatMap] at hp ⊢
  obtain ⟨s, hs, hp⟩ := hp
  exact ⟨s, h hs, hp⟩

/-! ### A finished trie -/

/-- In a finished trie no entry's code is a prefix of another's. -/
theorem TrieOf.noConflict {c : CodeTable} {ss : List Sym} {a : Arena} (h : TrieOf c ss a) {x y : Sym} (hx : x ∈ ss) (hy : y ∈ ss)
    (hxy : x ≠ y) (hlx : c.lenOf x ≠ 0) (hly : c.lenOf y ≠ 0) : ¬ c.codeOf x <+: c.codeOf y := by
  have mx : (x, c.codeOf x) ∈ entriesBack c ss := (mem_entriesBack c ss _).2 ⟨hx, hlx, rfl⟩
  have my : (y, c.codeOf y) ∈ entriesBack c ss := (mem_entriesBack c ss _).2 ⟨hy, hly, rfl⟩
  rcases h with ⟨he, _⟩ | ⟨_, hs, hh, _⟩
  · rw [he] at mx; exact absurd mx (by simp)
  · rintro ⟨w, hw⟩
    obtain ⟨i, hi, hil, his⟩ := hh.entry _ mx
    obtain ⟨j, hj, _, hjs⟩ := hh.entry _ my
    simp only at hi hj his hjs
    cases w with
    | nil =>
      rw [List.append_nil] at hw
      rw [← hw, hi] at hj
      rw [← Option.some.inj hj, his] at hjs
      exact hxy hjs
    | cons b w =>
      rw [← hw, show c.codeOf x ++ b :: w = (c.codeOf x ++ [b]) ++ w by simp] at hj
      obtain ⟨k, hk⟩ := Arena.path_left hj
      rw [Arena.path_snoc, hi] at hk
      have hk : a.childAt i b = some k := hk
      rw [hs.leaf_links i b hil] at hk
      exact absurd hk (by simp)

theorem codeTable_trieSizeOf (c : CodeTable) (ss : List Sym) :
    c.trieSizeOf ss = ((ss.flatMap fun s => (c.codeOf s).inits).dedup).length := rfl

/-- A finished trie has a record per distinct prefix (R182). -/
theorem TrieOf.next_eq {c : CodeTable} {ss : List Sym} {a : Arena} (h : TrieOf c ss a) (he : entriesBack c ss ≠ []) :
    a.next = c.trieSizeOf ss := by
  rcases h with ⟨h, _⟩ | ⟨_, hs, hh, _⟩
  · exact absurd h he
  · have key : ∀ p, p ∈ (ss.flatMap fun s => (c.codeOf s).inits).dedup ↔ ∃ i, a.path p = some i := by
      intro p
      rw [hh.present, List.mem_dedup, List.mem_flatMap]
      simp only [List.mem_inits, List.prefix_nil]
      constructor
      · rintro ⟨s, hs, hp⟩
        by_cases hl : c.lenOf s = 0
        · have : c.codeOf s = [] := by rw [← List.length_eq_zero_iff]; simpa using hl
          rw [this, List.prefix_nil] at hp
          exact .inl hp
        · exact .inr ⟨(s, c.codeOf s), (mem_entriesBack c ss _).2 ⟨hs, hl, rfl⟩, hp⟩
      · rintro (rfl | ⟨e, he, hp⟩)
        · obtain ⟨e, he⟩ := List.exists_mem_of_ne_nil _ he
          rw [mem_entriesBack] at he
          exact ⟨e.1, he.1, List.nil_prefix⟩
        · rw [mem_entriesBack] at he
          exact ⟨e.1, he.1, he.2.2 ▸ hp⟩
    apply Nat.le_antisymm
    · exact hs.le_length fun p i hp => (key p).2 ⟨i, hp⟩
    · exact hs.length_le (List.nodup_dedup _) fun p hp => (key p).1 hp

/-- A finished trie meets R45 of 10_state.md (R187 of 46_trie_codec.md). -/
theorem TrieOf.tree_inv {c : CodeTable} {ss : List Sym} {a : Arena} (h : TrieOf c ss a) (hnd : ss.Nodup) :
    TreeInv (a.toTree 0) := by
  have hlen : ∀ s, (c.codeOf s).length ≤ 255 := fun s => by rw [CodeTable.length_codeOf]; exact c.lenOf_le s
  rcases h with ⟨_, rfl⟩ | ⟨hne, hs, hh, hl⟩
  · exact Tree.empty_inv
  · have hpos := hs.pos
    have internal : ∀ p i, a.path p = some i → (a.recAt i).leaf = false → ∃ b c, a.childAt i b = some c := by
      intro p i hp hil
      have : ∃ e ∈ entriesBack c ss, p <+: e.2 := by
        rcases (hh.present p).1 ⟨i, hp⟩ with hp | hp
        · obtain ⟨e, he⟩ := List.exists_mem_of_ne_nil _ hne
          exact ⟨e, he, by rw [List.prefix_nil.1 hp]; exact List.nil_prefix⟩
        · exact hp
      obtain ⟨e, he, w, hw⟩ := this
      obtain ⟨j, hj, hjl, _⟩ := hh.entry e he
      cases w with
      | nil =>
        rw [List.append_nil] at hw
        rw [hw, hj] at hp
        rw [Option.some.inj hp, hil] at hjl
        exact absurd hjl (by simp)
      | cons b w =>
        rw [← hw, show p ++ b :: w = (p ++ [b]) ++ w by simp] at hj
        obtain ⟨k, hk⟩ := Arena.path_left hj
        rw [Arena.path_snoc, hp] at hk
        exact ⟨b, k, hk⟩
    have hcount : a.leaves ≤ 256 := by
      rw [hl, entriesBack, List.length_reverse, List.length_map]
      have hnd' : (ss.filter fun s => c.lenOf s != 0).Nodup := hnd.filter _
      have := (List.subperm_of_subset hnd' (l₂ := symbols) fun s _ => mem_symbols s).length_le
      rwa [length_symbols] at this
    have hrl : (a.recAt 0).leaf = false := by
      by_contra hrl
      obtain ⟨e, he, h1, _⟩ := hh.leaf [] 0 rfl (by simpa using hrl)
      rw [mem_entriesBack] at he
      exact codeOf_ne_nil he.2.1 (by rw [← he.2.2, h1])
    apply Arena.toTree_inv hs.le
    · show 0 < a.next
      omega
    · exact hrl
    · rw [hl]
      exact List.length_pos_iff.2 hne
    · exact hcount
    · exact hs.leaves
    · exact hs.unused
    · intro i b x hc
      have := hs.child i b x hc
      refine ⟨this.2, fun e => ?_⟩
      rw [e] at this
      simp at this
    · exact hs.uniq
    · exact hs.leaf_links
    · intro i hi hil
      obtain ⟨p, hp⟩ := hs.reached i hi
      exact internal p i hp hil
    · intro i j hi hj hil hjl he
      obtain ⟨p, hp⟩ := hs.reached i hi
      obtain ⟨q, hq⟩ := hs.reached j hj
      obtain ⟨e1, m1, p1, s1⟩ := hh.leaf p i hp hil
      obtain ⟨e2, m2, p2, s2⟩ := hh.leaf q j hq hjl
      rw [mem_entriesBack] at m1 m2
      have : p = q := by rw [← p1, ← p2, m1.2.2, m2.2.2, s1, s2, he]
      rw [this, hq] at hp
      exact (Option.some.inj hp).symm
    · intro i hi
      exact hs.reached i hi
    · intro p i hp
      rcases (hh.present p).1 ⟨i, hp⟩ with hp | ⟨e, he, hp⟩
      · rw [List.prefix_nil.1 hp]; simp
      · rw [mem_entriesBack] at he
        have := hp.length_le
        rw [he.2.2] at this
        exact this.trans (hlen _)

/-- A finished trie of the whole table agrees with it (R182). -/
theorem TrieOf.agree {c : CodeTable} {a : Arena} (h : TrieOf c symbols a) : Agree (a.toTree 0) c := by
  rcases h with ⟨he, rfl⟩ | ⟨_, hs, hh, _⟩
  · constructor
    · intro s hs
      have : (s, c.codeOf s) ∈ entriesBack c symbols := (mem_entriesBack c _ _).2 ⟨mem_symbols s, hs, rfl⟩
      rw [he] at this
      exact absurd this (by simp)
    · intro h; exact absurd rfl h
  · constructor
    · intro s hl
      obtain ⟨i, h1, h2, h3⟩ := hh.entry _ ((mem_entriesBack c _ (s, c.codeOf s)).2 ⟨mem_symbols s, hl, rfl⟩)
      exact ⟨Arena.nnodes_ne hs.le hs.pos 0, i, h1, ⟨(Arena.used_iff hs.le 0 i).2 (hs.path_lt h1), h2⟩, h3⟩
    · intro _ p i hp hi
      obtain ⟨e, he, h1, h2⟩ := hh.leaf p i hp hi.2
      rw [mem_entriesBack] at he
      rw [← h1, he.2.2, h2]
      rfl

/-! ### The whole table -/

/-- TRIE: a finished trie, or the first fault with its cause. -/
theorem trieOf_spec (c : CodeTable) :
    match trieOf c with
    | .ok t => ∃ a, t = a.toTree 0 ∧ TrieOf c symbols a
    | .error r => ∃ xs y zs, symbols = xs ++ y :: zs ∧ c.lenOf y ≠ 0 ∧
      (((∃ j, r = codebookAt y j) ∧ ∃ x ∈ xs, c.lenOf x ≠ 0 ∧ Conflict (c.codeOf x) (c.codeOf y)) ∨
       ((∃ j, r = nodeOvfAt y j) ∧ 512 ≤ c.trieSizeOf (xs ++ [y]))) := by
  have h := insertSyms_spec c symbols [] Arena.clear (trieOf_nil c)
  rw [trieOf, entriesOf_eq]
  cases hi : insertSyms c (symbols.map fun s => (s, entryAt c.len s)) Arena.clear with
  | ok a =>
    rw [hi] at h
    exact ⟨a, rfl, by simpa using h⟩
  | error r =>
    rw [hi] at h
    simpa using h

/-- The symbols before `y` in the list of all are those below it. -/
theorem symbols_split (y : Sym) : symbols = (symbols.filter fun z => decide (z < y)) ++ y :: symbols.filter fun z => decide (y < z) := by
  obtain ⟨xs, zs, e⟩ := List.append_of_mem (mem_symbols y)
  have hp := symbols_pairwise
  rw [e, List.pairwise_append, List.pairwise_cons] at hp
  obtain ⟨_, ⟨h2, _⟩, h3⟩ := hp
  have hx : ∀ x ∈ xs, x < y := fun x hx => h3 x hx y (by simp)
  have irr : ¬ y < y := by simp
  have asym : ∀ x z : Sym, x < z → ¬ z < x := fun x z h h' => by rw [BitVec.lt_def] at h h'; omega
  have f1 : (symbols.filter fun z => decide (z < y)) = xs := by
    rw [e, List.filter_append, List.filter_cons]
    simp only [irr, decide_false, Bool.false_eq_true, if_false]
    rw [List.filter_eq_self.2 (fun x h => by simpa using hx x h), List.filter_eq_nil_iff.2 (fun z h => by simpa using asym y z (h2 z h)),
      List.append_nil]
  have f2 : (symbols.filter fun z => decide (y < z)) = zs := by
    rw [e, List.filter_append, List.filter_cons]
    simp only [irr, decide_false, Bool.false_eq_true, if_false]
    rw [List.filter_eq_nil_iff.2 (fun x h => by simpa using asym x y (hx x h)), List.filter_eq_self.2 (fun z h => by simpa using h2 z h),
      List.nil_append]
  rw [f1, f2, e]

/-- The entries below `y`, without conflict and with room, are all in when `y` comes. -/
theorem insertSyms_below (c : CodeTable) (y : Sym)
    (hpf : ∀ a b, a < y → b < y → a ≠ b → c.lenOf a ≠ 0 → c.lenOf b ≠ 0 → ¬ c.codeOf a <+: c.codeOf b)
    (hroom : c.trieSizeOf (symbols.filter fun z => decide (z < y)) ≤ 511) :
    ∃ a, insertSyms c ((symbols.filter fun z => decide (z < y)).map fun s => (s, entryAt c.len s)) Arena.clear = .ok a ∧
      TrieOf c (symbols.filter fun z => decide (z < y)) a := by
  have h := insertSyms_spec c (symbols.filter fun z => decide (z < y)) [] Arena.clear (trieOf_nil c)
  cases hi : insertSyms c ((symbols.filter fun z => decide (z < y)).map fun s => (s, entryAt c.len s)) Arena.clear with
  | ok a =>
    rw [hi] at h
    exact ⟨a, rfl, by simpa using h⟩
  | error r =>
    rw [hi] at h
    obtain ⟨xs, z, zs, e, hl, h⟩ := h
    have hnd : (xs ++ z :: zs).Nodup := e ▸ symbols_nodup.filter _
    have hlt : ∀ x ∈ xs ++ z :: zs, x < y := fun x hx => by
      rw [← e, List.mem_filter] at hx
      simpa using hx.2
    exfalso
    rcases h with ⟨_, x, hx, hlx, hc⟩ | ⟨_, hbig⟩
    · rw [List.nil_append] at hx
      have hxz : x ≠ z := by
        rintro rfl
        have := (List.nodup_append.1 hnd).2.2 x hx x (by simp)
        exact this rfl
      have h1 := hlt x (by simp [hx])
      have h2 := hlt z (by simp)
      rcases hc with hc | hc
      · exact hpf x z h1 h2 hxz hlx hl hc
      · exact hpf z x h2 h1 hxz.symm hl hlx hc
    · have := trieSizeOf_mono c (xs := [] ++ xs ++ [z]) (ys := symbols.filter fun z => decide (z < y)) (by
        rw [e]
        intro x hx
        rw [List.nil_append, List.mem_append, List.mem_singleton] at hx
        rw [List.mem_append, List.mem_cons]
        rcases hx with hx | hx
        · exact .inl hx
        · exact .inr (.inl hx))
      omega

/-- TRIE's outcome when the symbol `y` fails after the entries below it went in. -/
theorem trieOf_error_at (c : CodeTable) (y : Sym) (a : Arena) (r : Raised)
    (hb : insertSyms c ((symbols.filter fun z => decide (z < y)).map fun s => (s, entryAt c.len s)) Arena.clear = .ok a)
    (hy : insertSym c a (y, entryAt c.len y) = .error r) : trieOf c = .error r := by
  have : insertSyms c (entriesOf c.len) Arena.clear = .error r := by
    rw [entriesOf_eq, symbols_split y, List.map_append, insertSyms_append, hb, List.map_cons]
    simp only [insertSyms, hy]
  simp only [trieOf, this]

/-- The conflict found where a code passes through a leaf (R184 case a). -/
theorem insertSym_throughLeaf {c : CodeTable} {ss : List Sym} {a : Arena} (h : TrieOf c ss a) {x y : Sym} (hx : x ∈ ss)
    (hlx : c.lenOf x ≠ 0) (hp : c.codeOf x <+: c.codeOf y) (hne : c.codeOf x ≠ c.codeOf y) :
    insertSym c a (y, entryAt c.len y) = .error (codebookAt y (c.lenOf x)) := by
  obtain ⟨w, hw⟩ := hp
  have hw0 : w ≠ [] := by rintro rfl; exact hne (by simpa using hw)
  have hly : c.lenOf y ≠ 0 := by
    rw [← CodeTable.length_codeOf, ← hw, List.length_append, CodeTable.length_codeOf]
    omega
  have hne8 : entryAt c.len y ≠ 0#8 := fun e => hly ((entryAt_len_eq_zero c y).1 e)
  obtain ⟨hs, hh, _⟩ := h.withRoot
  obtain ⟨i, hi, hil, _⟩ := hh.entry _ ((mem_entriesBack c ss (x, c.codeOf x)).2 ⟨hx, hlx, rfl⟩)
  have hwalk := insertBits_walk y (c.codeOf x) w [] 0 i a.withTrieRoot hs rfl (by simpa using hi) hw0
  simp only [List.length_nil, Nat.zero_add, CodeTable.length_codeOf, hw] at hwalk
  simp only [insertSym, hne8, if_false, hwalk]
  cases w with
  | nil => exact absurd rfl hw0
  | cons b w => simp [insertBits, Arena.leafAt_eq, hil]

/-- The conflict found where the last bit's link is taken (R184 case b). -/
theorem insertSym_atLink {c : CodeTable} {ss : List Sym} {a : Arena} (h : TrieOf c ss a) {x y : Sym} (hx : x ∈ ss)
    (hlx : c.lenOf x ≠ 0) (hly : c.lenOf y ≠ 0) (hp : c.codeOf y <+: c.codeOf x) :
    insertSym c a (y, entryAt c.len y) = .error (codebookAt y (c.lenOf y - 1)) := by
  have hne8 : entryAt c.len y ≠ 0#8 := fun e => hly ((entryAt_len_eq_zero c y).1 e)
  obtain ⟨hs, hh, _⟩ := h.withRoot
  obtain ⟨i, hi, _, _⟩ := hh.entry _ ((mem_entriesBack c ss (x, c.codeOf x)).2 ⟨hx, hlx, rfl⟩)
  obtain ⟨v, hv⟩ := hp
  rw [← hv] at hi
  obtain ⟨k, hk⟩ := Arena.path_left hi
  obtain ⟨q, b, hqb⟩ : ∃ q b, c.codeOf y = q ++ [b] :=
    ⟨_, _, (List.dropLast_append_getLast (codeOf_ne_nil hly)).symm⟩
  have hlen : q.length = c.lenOf y - 1 := by
    have := congrArg List.length hqb
    simp at this
    omega
  rw [hqb] at hk
  obtain ⟨j, hj⟩ := Arena.path_left hk
  have hc : a.withTrieRoot.childAt j b = some k := by rw [Arena.path_snoc, hj] at hk; exact hk
  have hl : (a.withTrieRoot.recAt j).leaf = false := by
    by_contra hl
    rw [hs.leaf_links j b (by simpa using hl)] at hc
    exact absurd hc (by simp)
  have hwalk := insertBits_walk y q [b] [] 0 j a.withTrieRoot hs rfl (by simpa using hj) (by simp)
  simp only [List.length_nil, Nat.zero_add, hlen, ← hqb] at hwalk
  simp only [insertSym, hne8, if_false, hwalk]
  simp [insertBits, Arena.leafAt_eq, hl, hc]

end Sys2Proof.Machine
end

