-- ==== Sys2Proof/Laws/Unpack.lean ====
section
/-! SUPPORT. What the decoding loop of UNPACK does along paths of the tree: one leaf's path emits its symbol, a path to an internal
record moves the cursor, and the two faults. -/

namespace Sys2Proof.Machine

/-- Bytes written at consecutive addresses from `n` on. -/
def Memory.writeList (m : Memory) : (n : Nat) → List Byte → Memory
  | _, [] => m
  | n, b :: rest => (m.write n b).writeList (n + 1) rest

theorem Memory.read_writeList_other (m : Memory) (n a : Nat) (bs : List Byte) (h : a < n ∨ n + bs.length ≤ a) :
    (m.writeList n bs).read a = m.read a := by
  induction bs generalizing m n with
  | nil => rfl
  | cons b rest ih =>
    simp only [List.length_cons] at h
    rw [Memory.writeList, ih _ _ (by omega), Memory.read_write_other _ _ (by omega)]

theorem Memory.read_writeList (m : Memory) (n k : Nat) (bs : List Byte) (h : k < bs.length) :
    (m.writeList n bs).read (n + k) = bs[k] := by
  induction bs generalizing m n k with
  | nil => simp at h
  | cons b rest ih =>
    rw [Memory.writeList]
    cases k with
    | zero =>
      rw [Memory.read_writeList_other _ _ _ _ (by omega)]
      simp
    | succ k =>
      have := ih (m.write n b) (n + 1) k (by simpa using h)
      simpa [Nat.add_assoc, Nat.add_comm 1 k] using this

theorem Memory.wf_writeList {m : Memory} (n : Nat) (bs : List Byte) (h : m.wf = true) : (m.writeList n bs).wf = true := by
  induction bs generalizing m n with
  | nil => exact h
  | cons b rest ih => exact ih (n + 1) (Memory.wf_write n b h)

/-- The loop is done once all symbols are out, whatever payload is left (R171, R173 of 45_unpack.md). -/
theorem decodeBits_done (t : Tree) (m : Memory) (count left : Nat) (d : Decoder) (h : count ≤ d.n) :
    decodeBits t m count left d = .ok d := by
  cases left <;> simp [decodeBits, Nat.not_lt.2 h]

/-- A demanded bit with no payload left (R175). -/
theorem decodeBits_short (t : Tree) (m : Memory) (count : Nat) (d : Decoder) (h : d.n < count) :
    decodeBits t m count 0 d = .error (corruptShortAt d.bitpos d.n) := by
  simp [decodeBits, h]

/-- A demanded bit that selects an absent link (R176 case a). -/
theorem decodeBits_path (t : Tree) (m : Memory) (count left : Nat) (d : Decoder) (h : d.n < count)
    (hc : t.childAt d.cur (m.payloadBit d.bitpos) = none) :
    decodeBits t m count (left + 1) d = .error (corruptPathAt d.bitpos d.n) := by
  simp [decodeBits, decodeBit, h, hc]

/-- A path from the cursor to an internal record moves the cursor there. -/
theorem decodeBits_inner {t : Tree} (hp : ∀ i b c, t.childAt i b = some c → (t.nodeAt i).leaf = false) (m : Memory) (count : Nat)
    (q : Bits) (left : Nat) (d : Decoder) (j : NodeIdx) (hf : t.follow d.cur q = some j) (hj : (t.nodeAt j).leaf = false)
    (hn : d.n < count) (hl : q.length ≤ left) (hb : ∀ p (h : p < q.length), m.payloadBit (d.bitpos + p) = q[p]) :
    decodeBits t m count left d =
      decodeBits t m count (left - q.length) { d with bitpos := d.bitpos + q.length, cur := j } := by
  induction q generalizing left d with
  | nil =>
    have : d.cur = j := Option.some.inj hf
    simp [← this]
  | cons b rest ih =>
    obtain ⟨l, rfl⟩ : ∃ l, left = l + 1 := ⟨left - 1, by simp at hl; omega⟩
    rw [Tree.follow_cons] at hf
    have hb0 : m.payloadBit d.bitpos = b := hb 0 (by simp)
    cases hc : t.childAt d.cur b with
    | none => rw [hc] at hf; exact absurd hf (by simp)
    | some c =>
      rw [hc] at hf
      have hcl : (t.nodeAt c).leaf = false := by
        cases rest with
        | nil => rw [show c = j from Option.some.inj hf]; exact hj
        | cons b' rest' =>
          simp only [Option.bind_some, Tree.follow_cons] at hf
          cases hc' : t.childAt c b' with
          | none => rw [hc'] at hf; exact absurd hf (by simp)
          | some c' => exact hp c b' c' hc'
      have step : decodeBits t m count (l + 1) d = decodeBits t m count l { d with bitpos := d.bitpos + 1, cur := c } := by
        simp [decodeBits, decodeBit, hn, hb0, hc, hcl]
      rw [step, ih l { d with bitpos := d.bitpos + 1, cur := c } hf hn (by simpa using hl) (fun p h => by
        have := hb (p + 1) (by simpa using h)
        simpa [Nat.add_assoc, Nat.add_comm 1 p] using this)]
      simp [Nat.add_assoc, Nat.add_comm 1 rest.length]

/-- The path of a leaf emits its symbol and puts the cursor back at the root. -/
theorem decodeBits_leaf {t : Tree} (hp : ∀ i b c, t.childAt i b = some c → (t.nodeAt i).leaf = false) (m : Memory) (count : Nat)
    (q : Bits) (left : Nat) (d : Decoder) (j : NodeIdx) (hf : t.follow d.cur q = some j) (hj : (t.nodeAt j).leaf = true)
    (hd : (t.nodeAt d.cur).leaf = false) (hn : d.n < count) (hl : q.length ≤ left)
    (hb : ∀ p (h : p < q.length), m.payloadBit (d.bitpos + p) = q[p]) :
    decodeBits t m count left d =
      decodeBits t m count (left - q.length)
        { bitpos := d.bitpos + q.length, n := d.n + 1, cur := t.root, raw := d.raw.write d.n (t.nodeAt j).sym } := by
  induction q using List.reverseRecOn with
  | nil =>
    rw [show j = d.cur from (Option.some.inj hf).symm, hd] at hj
    exact absurd hj (by simp)
  | append_singleton q b _ =>
    rw [Tree.follow_snoc] at hf
    cases hi : t.follow d.cur q with
    | none => rw [hi] at hf; exact absurd hf (by simp)
    | some i =>
      rw [hi] at hf
      have hf : t.childAt i b = some j := hf
      simp only [List.length_append, List.length_singleton] at hl hb ⊢
      rw [decodeBits_inner hp m count q left d i hi (hp i b j hf) hn (by omega) (fun p h => by
        rw [hb p (by omega), List.getElem_append_left h])]
      obtain ⟨l, hl'⟩ : ∃ l, left - q.length = l + 1 := ⟨left - q.length - 1, by omega⟩
      have hbq : m.payloadBit (d.bitpos + q.length) = b := by
        rw [hb q.length (by omega)]
        simp
      have e : left - (q.length + 1) = l := by omega
      rw [hl', e]
      simp [decodeBits, decodeBit, hn, hbq, hf, hj, Nat.add_assoc]

/-- The paths of leaves, one after the other (R174). -/
theorem decodeBits_words {t : Tree} (hp : ∀ i b c, t.childAt i b = some c → (t.nodeAt i).leaf = false)
    (hr : (t.nodeAt t.root).leaf = false) (m : Memory) (count : Nat) (ws : List (Bits × NodeIdx))
    (hw : ∀ w ∈ ws, t.follow t.root w.1 = some w.2 ∧ (t.nodeAt w.2).leaf = true) (left : Nat) (d : Decoder) (hd : d.cur = t.root)
    (hn : d.n + ws.length ≤ count) (hl : (ws.flatMap Prod.fst).length ≤ left)
    (hb : ∀ p (h : p < (ws.flatMap Prod.fst).length), m.payloadBit (d.bitpos + p) = (ws.flatMap Prod.fst)[p]) :
    decodeBits t m count left d =
      decodeBits t m count (left - (ws.flatMap Prod.fst).length)
        { bitpos := d.bitpos + (ws.flatMap Prod.fst).length, n := d.n + ws.length, cur := t.root,
          raw := d.raw.writeList d.n (ws.map fun w => (t.nodeAt w.2).sym) } := by
  induction ws generalizing left d with
  | nil => simp [Memory.writeList, ← hd]
  | cons w rest ih =>
    obtain ⟨hf, hj⟩ := hw w List.mem_cons_self
    simp only [List.flatMap_cons, List.length_append, List.length_cons] at hn hl hb ⊢
    rw [decodeBits_leaf hp m count w.1 left d w.2 (hd ▸ hf) hj (hd ▸ hr) (by omega) (by omega) (fun p h => by
      rw [hb p (by omega), List.getElem_append_left h])]
    rw [ih (fun w' h' => hw w' (List.mem_cons_of_mem _ h')) _ _ rfl (by simp; omega) (by omega) (fun p h => by
      have := hb (w.1.length + p) (by omega)
      rw [List.getElem_append_right (by omega)] at this
      simpa [Nat.add_assoc] using this)]
    simp only [Memory.writeList, List.map_cons, Nat.add_assoc, Nat.sub_sub, Nat.add_comm 1 rest.length]

end Sys2Proof.Machine
end

