-- ==== Sys2Proof/Laws/Step.lean ====
section
/-! SUPPORT. Everything a step and a command can do: one inversion lemma per event and per command, which later proofs cite instead of
unfolding the machine. -/

namespace Sys2Proof.Machine

/-! ### The events of a step -/

/-- The state a step works on: the schedule without its head, no response yet. -/
def State.popped (s : State) : State := { s with schedule := s.schedule.tail, response := none }

/-- The engine's turn (R12 of 00_scope.md). -/
theorem step_engine {s : State} (h : s.schedule = [] ∨ s.schedule.head? = some .engine) : step s = engineTurn exec s.popped := by
  unfold step stepWith State.takeEvent State.popped
  rcases h with h | h
  · simp [h]
  · cases hs : s.schedule with
    | nil => simp
    | cons e rest =>
      rw [hs] at h
      simp only [List.head?_cons, Option.some.injEq] at h
      subst h
      rfl

/-- A host read (R61 of 20_memory.md). -/
theorem step_read {s : State} {sp : Space} {ix : Word} {rest : List Event} (h : s.schedule = .read sp ix :: rest) :
    step s = .next { s with schedule := rest, response := some (s.hostRead sp ix) } := by
  unfold step stepWith State.takeEvent
  rw [h]
  rfl

/-- A host write (R62 of 20_memory.md). -/
theorem step_write {s : State} {sp : Space} {ix d : Word} {rest : List Event} (h : s.schedule = .write sp ix d :: rest) :
    step s = .next { s.popped.hostWrite sp ix d with response := some (.write (!s.writeAdmitted sp ix d)) } := by
  unfold step stepWith State.takeEvent State.popped
  rw [h]
  rfl

/-- Hardware reset (R240 of 70_reset_and_hazards.md). -/
theorem step_reset {s : State} {rest : List Event} (h : s.schedule = .reset :: rest) : step s = .next s.popped.hardReset := by
  unfold step stepWith State.takeEvent State.popped
  rw [h]
  rfl

/-- Everything a step can do. -/
theorem step_cases (s : State) :
    ((s.schedule = [] ∨ s.schedule.head? = some .engine) ∧ step s = engineTurn exec s.popped) ∨
    (∃ sp ix rest, s.schedule = .read sp ix :: rest ∧
      step s = .next { s with schedule := rest, response := some (s.hostRead sp ix) }) ∨
    (∃ sp ix d rest, s.schedule = .write sp ix d :: rest ∧
      step s = .next { s.popped.hostWrite sp ix d with response := some (.write (!s.writeAdmitted sp ix d)) }) ∨
    (∃ rest, s.schedule = .reset :: rest ∧ step s = .next s.popped.hardReset) := by
  cases hs : s.schedule with
  | nil => exact .inl ⟨.inl rfl, step_engine (.inl hs)⟩
  | cons e rest =>
    cases e with
    | read sp ix => exact .inr (.inl ⟨sp, ix, rest, rfl, step_read hs⟩)
    | write sp ix d => exact .inr (.inr (.inl ⟨sp, ix, d, rest, rfl, step_write hs⟩))
    | engine => exact .inl ⟨.inr rfl, step_engine (.inr (by rw [hs]; rfl))⟩
    | reset => exact .inr (.inr (.inr ⟨rest, rfl, step_reset hs⟩))

/-- Everything the engine's turn can do (R32 of 10_state.md). -/
theorem engineTurn_cases (s : State) :
    (s.engine ≠ .busy ∧ engineTurn exec s = .next s) ∨
    (s.engine = .busy ∧ ∃ i, s.cmd = encode i ∧ decode s.cmd = .ok i ∧ engineTurn exec s = exec i s) ∨
    (s.engine = .busy ∧ (∃ e, decode s.cmd = .error e) ∧ engineTurn exec s = .next (s.takeFault (illegalWord s.cmd))) := by
  cases he : s.engine with
  | idle => exact .inl ⟨by simp, by simp [engineTurn, he]⟩
  | fault => exact .inl ⟨by simp, by simp [engineTurn, he]⟩
  | busy =>
    cases hd : decode s.cmd with
    | error e => exact .inr (.inr ⟨rfl, ⟨e, rfl⟩, by simp [engineTurn, he, hd]⟩)
    | ok i =>
      refine .inr (.inl ⟨rfl, i, ?_, rfl, by simp [engineTurn, he, hd]⟩)
      have hr : rsvField s.cmd = 0#24 := by
        by_contra h
        simp [decode, h] at hd
      have ho : opcField s.cmd = opcodeOf i := by
        simp only [decode, hr, if_true] at hd
        unfold commandOfOpcode at hd
        split_ifs at hd <;> simp_all <;> subst hd <;> rfl
      have : s.cmd = rsvField s.cmd ++ opcField s.cmd := by
        apply BitVec.eq_of_getLsbD_eq
        intro k hk
        rw [BitVec.getLsbD_append, rsvField, opcField, BitVec.getLsbD_extractLsb', BitVec.getLsbD_extractLsb']
        by_cases h8 : k < 8
        · simp [h8]
        · have e : 8 + (k - 8) = k := by omega
          simp [h8, e, show k - 8 < 24 by omega]
      rw [this, hr, ho]
      rfl

/-! ### Host writes -/

theorem hostWrite_refused {s : State} {sp : Space} {ix d : Word} (h : s.writeAdmitted sp ix d = false) : s.hostWrite sp ix d = s := by
  simp [State.hostWrite, h]

theorem hostWrite_admitted {s : State} {sp : Space} {ix d : Word} (h : s.writeAdmitted sp ix d = true) :
    s.hostWrite sp ix d = s.storeElement sp ix.toNat d := by
  simp [State.hostWrite, h]

/-- When a write is admitted (R64, R67 to R70 of 20_memory.md). -/
theorem writeAdmitted_iff (s : State) (sp : Space) (ix d : Word) :
    s.writeAdmitted sp ix d = true ↔
      ix.toNat < s.elements sp ∧ sp ≠ .node ∧ sp ≠ .link ∧ (sp = .reg → ix = 1#32 ∨ ix = 6#32 ∨ ix = 7#32) ∧
      s.engine ≠ .busy ∧ (s.engine = .fault → sp = .reg ∧ ix = 1#32 ∧ (d = 1#32 ∨ d = 2#32)) := by
  have e1 : encode .srst = 1#32 := rfl
  have e2 : encode .clrf = 2#32 := rfl
  have hx : ∀ n : Nat, n < 2 ^ 32 → (ix.toNat = n ↔ ix = BitVec.ofNat 32 n) := by
    intro n hn
    rw [← BitVec.toNat_inj, BitVec.toNat_ofNat, Nat.mod_eq_of_lt hn]
  have h1 := hx 1 (by omega)
  have h6 := hx 6 (by omega)
  have h7 := hx 7 (by omega)
  cases sp <;> cases he : s.engine <;>
    simp [State.writeAdmitted, State.inRange, hostWritable, faultWrite, he, e1, e2, h1, h6, h7, and_assoc] <;> tauto

/-- What an admitted write can be (R31 of 10_state.md, R62, R65 of 20_memory.md). -/
theorem storeElement_reg_cases {s : State} {ix d : Word} (h : ix = 1#32 ∨ ix = 6#32 ∨ ix = 7#32) :
    (ix = 1#32 ∧ s.storeElement .reg ix.toNat d = s.issue d) ∨
    (ix = 6#32 ∧ s.storeElement .reg ix.toNat d = { s with rlen := d }) ∨
    (ix = 7#32 ∧ s.storeElement .reg ix.toNat d = { s with plen := d }) := by
  rcases h with rfl | rfl | rfl
  · exact .inl ⟨rfl, rfl⟩
  · exact .inr (.inl ⟨rfl, rfl⟩)
  · exact .inr (.inr ⟨rfl, rfl⟩)

/-! ### The commands -/

theorem rlenFault_some {s : State} (h : s.params.rawSize.toNat < s.rlen.toNat) :
    s.rlenFault = some { code := .range, info0 := s.rlen, info1 := 0#32 } := by
  simp [State.rlenFault, BitVec.lt_def, h]

theorem rlenFault_none {s : State} (h : s.rlen.toNat ≤ s.params.rawSize.toNat) : s.rlenFault = none := by
  simp [State.rlenFault, BitVec.lt_def, h]

theorem plenFault_some {s : State} (h : s.params.pkdSize.toNat < s.plen.toNat) :
    s.plenFault = some { code := .range, info0 := s.plen, info1 := 1#32 } := by
  simp [State.plenFault, BitVec.lt_def, h]

theorem plenFault_none {s : State} (h : s.plen.toNat ≤ s.params.pkdSize.toNat) : s.plenFault = none := by
  simp [State.plenFault, BitVec.lt_def, h]

/-- Everything COUNT can do (R120 of 41_count.md). -/
theorem execCount_cases (s : State) :
    (s.params.rawSize.toNat < s.rlen.toNat ∧
      execCount s = .next (s.takeFault { code := .range, info0 := s.rlen, info1 := 0#32 })) ∨
    (s.rlen.toNat ≤ s.params.rawSize.toNat ∧ execCount s = .next (s.withFreq (countBytes s.rawInput)).finish) := by
  rcases Nat.lt_or_ge s.params.rawSize.toNat s.rlen.toNat with h | h
  · exact .inl ⟨h, by simp [execCount, rlenFault_some h]⟩
  · exact .inr ⟨h, by simp [execCount, rlenFault_none h]⟩

/-- The walk of DERIVE succeeds on every tree that meets R45 of 10_state.md. -/
theorem deriveTable_some {t : Tree} (h : TreeInv t) : ∃ c, deriveTable t = some c := by
  unfold deriveTable
  split
  · exact ⟨_, rfl⟩
  · next hn =>
    obtain ⟨l, hl⟩ := leafPaths_some (depth := 255) (i := t.root) [] fun q j hq => h.depth hn q j hq
    exact ⟨_, by rw [walk_eq, hl]; rfl⟩

/-- Everything DERIVE can do (R150 of 43_derive.md). -/
theorem execDerive_cases (s : State) :
    (s.treeOk = false ∧ execDerive s = .next (s.takeFault { code := .state, info0 := 0x12#32, info1 := 0#32 })) ∨
    (s.treeOk = true ∧ ∃ c, deriveTable s.tree = some c ∧ execDerive s = .next (s.withCode c).finish) ∨
    (s.treeOk = true ∧ deriveTable s.tree = none ∧ execDerive s = .fault .walkTooDeep) := by
  cases ht : s.treeOk with
  | false => exact .inl ⟨rfl, by simp [execDerive, State.treeFault, ht]⟩
  | true =>
    cases hd : deriveTable s.tree with
    | some c => exact .inr (.inl ⟨rfl, c, rfl, by simp [execDerive, State.treeFault, ht, hd]⟩)
    | none => exact .inr (.inr ⟨rfl, rfl, by simp [execDerive, State.treeFault, ht, hd]⟩)

/-- Everything PACK can do (R160 of 44_pack.md). -/
theorem execPack_cases (s : State) :
    (s.params.rawSize.toNat < s.rlen.toNat ∧
      execPack s = .next (s.takeFault { code := .range, info0 := s.rlen, info1 := 0#32 })) ∨
    (s.rlen.toNat ≤ s.params.rawSize.toNat ∧ ∃ r, packAll s.code s.params.pkdSize.toNat s.rawInput s.pkd = .error r ∧
      execPack s = .next (s.dropPacked.takeFault r)) ∨
    (s.rlen.toNat ≤ s.params.rawSize.toNat ∧ ∃ h, packAll s.code s.params.pkdSize.toNat s.rawInput s.pkd = .ok h ∧
      execPack s = .next (s.withPacked h.pkd (word32 h.k) (word32 h.total)).finish) := by
  rcases Nat.lt_or_ge s.params.rawSize.toNat s.rlen.toNat with h | h
  · exact .inl ⟨h, by simp [execPack, rlenFault_some h]⟩
  · cases hp : packAll s.code s.params.pkdSize.toNat s.rawInput s.pkd with
    | error r => exact .inr (.inl ⟨h, r, rfl, by simp [execPack, rlenFault_none h, hp]⟩)
    | ok x => exact .inr (.inr ⟨h, x, rfl, by simp [execPack, rlenFault_none h, hp]⟩)

/-- Everything UNPACK can do (R170 of 45_unpack.md, the checks in the order of R212 of 60_exceptions.md). -/
theorem execUnpack_cases (s : State) :
    (∃ r, s.unpackPrecheck = some r ∧ execUnpack s = .next (s.takeFault r)) ∨
    (s.unpackPrecheck = none ∧ ∃ r, unpackAll s.tree s.pkd s.plen.toNat s.rlen.toNat s.raw = .error r ∧
      execUnpack s = .next (s.dropUnpacked.takeFault r)) ∨
    (s.unpackPrecheck = none ∧ ∃ d, unpackAll s.tree s.pkd s.plen.toNat s.rlen.toNat s.raw = .ok d ∧
      execUnpack s = .next (s.withUnpacked d.raw (word32 d.bitpos)).finish) := by
  cases hp : s.unpackPrecheck with
  | some r => exact .inl ⟨r, rfl, by simp [execUnpack, hp]⟩
  | none =>
    cases hu : unpackAll s.tree s.pkd s.plen.toNat s.rlen.toNat s.raw with
    | error r => exact .inr (.inl ⟨rfl, r, rfl, by simp [execUnpack, hp, hu]⟩)
    | ok d => exact .inr (.inr ⟨rfl, d, rfl, by simp [execUnpack, hp, hu]⟩)

/-- When UNPACK passes its checks (R203, R204 of 60_exceptions.md). -/
theorem unpackPrecheck_none_iff (s : State) :
    s.unpackPrecheck = none ↔
      s.rlen.toNat ≤ s.params.rawSize.toNat ∧ s.plen.toNat ≤ s.params.pkdSize.toNat ∧ s.treeOk = true := by
  unfold State.unpackPrecheck
  rcases Nat.lt_or_ge s.params.rawSize.toNat s.rlen.toNat with h | h
  · simp [rlenFault_some h]
    omega
  · rcases Nat.lt_or_ge s.params.pkdSize.toNat s.plen.toNat with h' | h'
    · simp [rlenFault_none h, plenFault_some h']
      omega
    · cases ht : s.treeOk <;> simp [rlenFault_none h, plenFault_none h', State.treeFault, ht, h, h']

/-- Everything TRIE can do (R180 of 46_trie_codec.md). -/
theorem execTrie_cases (s : State) :
    (∃ r, trieOf s.code = .error r ∧ execTrie s = .next (s.dropTree.takeFault r)) ∨
    (∃ t, trieOf s.code = .ok t ∧ execTrie s = .next (s.withTree t).finish) := by
  cases ht : trieOf s.code with
  | error r => exact .inl ⟨r, rfl, by simp [execTrie, ht]⟩
  | ok t => exact .inr ⟨t, rfl, by simp [execTrie, ht]⟩

/-- A bit that fits or not: the shifter writes inside the buffer alone. -/
theorem shiftOut_wf {size i : Nat} {b : Bool} {h h' : Shifter} (he : shiftOut size i b h = .ok h')
    (hw : h.pkd.wf = true ∧ h.pkd.within size = true) : h'.pkd.wf = true ∧ h'.pkd.within size = true := by
  unfold shiftOut at he
  split at he
  · split at he
    · exact absurd he (by simp)
    · next hs =>
      rw [← Except.ok.inj he]
      exact ⟨Memory.wf_write _ _ hw.1, Memory.within_write _ hw.2 (by omega)⟩
  · rw [← Except.ok.inj he]
    exact hw

theorem shiftBits_wf {size i : Nat} {bs : Bits} {h h' : Shifter} (he : shiftBits size i bs h = .ok h')
    (hw : h.pkd.wf = true ∧ h.pkd.within size = true) : h'.pkd.wf = true ∧ h'.pkd.within size = true := by
  induction bs generalizing h with
  | nil => rw [← Except.ok.inj he]; exact hw
  | cons b rest ih =>
    simp only [shiftBits] at he
    cases h1 : shiftOut size i b h with
    | error r => rw [h1] at he; exact absurd he (by simp)
    | ok x => rw [h1] at he; exact ih he (shiftOut_wf h1 hw)

theorem packBytes_wf {c : CodeTable} {size i : Nat} {bs : List Byte} {h h' : Shifter} (he : packBytes c size i bs h = .ok h')
    (hw : h.pkd.wf = true ∧ h.pkd.within size = true) : h'.pkd.wf = true ∧ h'.pkd.within size = true := by
  induction bs generalizing h i with
  | nil => rw [← Except.ok.inj he]; exact hw
  | cons s rest ih =>
    simp only [packBytes] at he
    split at he
    · exact absurd he (by simp)
    · cases h1 : shiftBits size i (c.codeOf s) h with
      | error r => rw [h1] at he; exact absurd he (by simp)
      | ok x => rw [h1] at he; exact ih he (shiftBits_wf h1 hw)

/-- PACK keeps the canonical form of PKD and writes no byte outside it. -/
theorem packAll_wf {c : CodeTable} {size : Nat} {bs : List Byte} {m : Memory} {h : Shifter} (he : packAll c size bs m = .ok h)
    (hw : m.wf = true ∧ m.within size = true) : h.pkd.wf = true ∧ h.pkd.within size = true := by
  unfold packAll at he
  cases h1 : packBytes c size 0 bs (Shifter.start m) with
  | error r => rw [h1] at he; exact absurd he (by simp)
  | ok x =>
    rw [h1] at he
    have hx := packBytes_wf h1 hw
    simp only [flush] at he
    split at he
    · rw [← Except.ok.inj he]; exact hx
    · split at he
      · exact absurd he (by simp)
      · rw [← Except.ok.inj he]
        exact ⟨Memory.wf_write _ _ hx.1, Memory.within_write _ hx.2 (by omega)⟩

/-- The decoder emits below the count and leaves the rest of RAW. -/
theorem decodeBits_raw {t : Tree} {m : Memory} {count left : Nat} {d d' : Decoder} (he : decodeBits t m count left d = .ok d') :
    (∀ a, count ≤ a → d'.raw.read a = d.raw.read a) ∧
    ∀ size, count ≤ size → d.raw.wf = true ∧ d.raw.within size = true → d'.raw.wf = true ∧ d'.raw.within size = true := by
  induction left generalizing d with
  | zero =>
    simp only [decodeBits] at he
    split at he
    · exact absurd he (by simp)
    · rw [← Except.ok.inj he]
      exact ⟨fun _ _ => rfl, fun _ _ h => h⟩
  | succ left ih =>
    simp only [decodeBits] at he
    split at he
    · next hn =>
      cases h1 : decodeBit t (m.payloadBit d.bitpos) d with
      | error r => rw [h1] at he; exact absurd he (by simp)
      | ok x =>
        rw [h1] at he
        obtain ⟨i1, i2⟩ := ih he
        have hx : x.raw = d.raw ∨ ∃ v, x.raw = d.raw.write d.n v := by
          unfold decodeBit at h1
          split at h1
          · exact absurd h1 (by simp)
          · split at h1
            · rw [← Except.ok.inj h1]
              exact .inr ⟨_, rfl⟩
            · rw [← Except.ok.inj h1]
              exact .inl rfl
        rcases hx with hx | ⟨v, hx⟩
        · rw [hx] at i1 i2
          exact ⟨i1, i2⟩
        · rw [hx] at i1 i2
          refine ⟨fun a ha => (i1 a ha).trans (Memory.read_write_other _ _ (by omega)), fun size hs hw => i2 size hs ?_⟩
          exact ⟨Memory.wf_write _ _ hw.1, Memory.within_write _ hw.2 (by omega)⟩
    · rw [← Except.ok.inj he]
      exact ⟨fun _ _ => rfl, fun _ _ h => h⟩

/-- UNPACK keeps RAW from RLEN on, its canonical form and its bounds. -/
theorem unpackAll_raw {t : Tree} {m : Memory} {plen count : Nat} {raw : Memory} {d : Decoder}
    (he : unpackAll t m plen count raw = .ok d) :
    (∀ a, count ≤ a → d.raw.read a = raw.read a) ∧
    ∀ size, count ≤ size → raw.wf = true ∧ raw.within size = true → d.raw.wf = true ∧ d.raw.within size = true := by
  unfold unpackAll at he
  split at he
  · exact absurd he (by simp)
  · exact decodeBits_raw he

end Sys2Proof.Machine
end

