-- ==== Sys2Proof/Laws/Codec.lean ====
section
/-! SUPPORT. How the tree, the code table and the stream fit together: what DERIVE writes, what TRIE leaves, tables that agree with one
tree, the stream as paths. -/

namespace Sys2Proof.Machine

/-- What TRIE leaves when it completes: a tree of R45 of 10_state.md that agrees with the table (R182, R187 of 46_trie_codec.md). -/
theorem trieOf_ok_inv {c : CodeTable} {t : Tree} (h : trieOf c = .ok t) : TreeInv t ∧ Agree t c := by
  have := trieOf_spec c
  rw [h] at this
  obtain ⟨a, rfl, h'⟩ := this
  exact ⟨h'.tree_inv symbols_nodup, h'.agree⟩

/-- A record with a child is no leaf. -/
theorem TreeInv.noLeaf {t : Tree} (hi : TreeInv t) : ∀ i b c, t.childAt i b = some c → (t.nodeAt i).leaf = false :=
  fun _ _ _ hc => (hi.parent_internal hc).2

/-- What the walk of DERIVE writes (R150 to R153 of 43_derive.md). -/
theorem deriveTable_spec {t : Tree} (hi : TreeInv t) : ∃ c, deriveTable t = some c ∧ 
      (t.nnodes ≠ 0#9 → ∀ p i, t.follow t.root p = some i → t.IsLeaf i → c.codeOf (t.nodeAt i).sym = p) ∧
      (∀ x, (∀ i, t.IsLeaf i → (t.nodeAt i).sym ≠ x) → c.lenOf x = 0) ∧
      (∀ x, c.Canonical x) := by
  by_cases hn : t.nnodes = 0#9
  · refine ⟨CodeTable.empty, by simp [deriveTable, hn], fun h => absurd hn h, fun x _ => CodeTable.lenOf_empty x, fun x j _ _ => CodeTable.codebit_empty x j⟩
  · obtain ⟨l, hl⟩ := leafPaths_some (depth := 255) (i := t.root) [] fun q j hq => hi.depth hn q j hq
    have hu : t.Used t.root := (hi.root_used hn).1
    have hmem := fun e => mem_leafPaths (fun i b c hc => (hi.parent_internal hc).2) hl e
    have huniq : ∀ e ∈ l, ∀ e' ∈ l, e.1 = e'.1 → e = e' := by
      intro e he e' he' h
      obtain ⟨q, j, h1, h2, rfl⟩ := (hmem e).1 he
      obtain ⟨q', j', h1', h2', rfl⟩ := (hmem e').1 he'
      have hj := hi.sym_unique j j' ⟨hi.follow_used hu h1, h2⟩ ⟨hi.follow_used hu h1', h2'⟩ h
      subst hj
      rw [hi.path_unique h1 h1']
    refine ⟨storeAll CodeTable.empty l, by simp [deriveTable, hn, walk_eq, hl], fun _ p i hp hil => ?_, fun x hx => ?_, fun x j hj hj' => ?_⟩
    · exact (codeOf_storeAll _ l huniq _ _ ((hmem _).2 ⟨p, i, hp, hil.2, rfl⟩) (hi.depth hn p i hp)).1
    · have := (codeOf_storeAll_other CodeTable.empty l x (by
        intro e he h
        obtain ⟨q, j, h1, h2, rfl⟩ := (hmem e).1 he
        exact hx j ⟨hi.follow_used hu h1, h2⟩ h)).1
      have := congrArg List.length this
      simpa using this
    · by_cases hx : ∃ e ∈ l, e.1 = x
      · obtain ⟨e, he, rfl⟩ := hx
        obtain ⟨q, i, h1, h2, h3⟩ := (hmem e).1 he
        have hlen : e.2.length ≤ 255 := by rw [h3]; exact hi.depth hn q i h1
        obtain ⟨c1, c2⟩ := codeOf_storeAll CodeTable.empty l huniq e.1 e.2 he hlen
        rw [c2 j hj']
        have : (storeAll CodeTable.empty l).lenOf e.1 = e.2.length := by rw [← CodeTable.length_codeOf, c1]
        rw [this] at hj
        simp [hj]
      · have := (codeOf_storeAll_other CodeTable.empty l x (fun e he h => hx ⟨e, he, h⟩)).2 j
        rw [this, CodeTable.codebit_empty]

/-- The derived table agrees with its tree (R155 of 43_derive.md). -/
theorem deriveTable_agree {t : Tree} {c : CodeTable} (hi : TreeInv t) (h : deriveTable t = some c) : Agree t c := by
  obtain ⟨c', h1, h2, h3, h4⟩ := deriveTable_spec hi
  rw [h] at h1
  cases h1
  refine ⟨fun s hs => ?_, h2⟩
  have : ∃ i, t.IsLeaf i ∧ (t.nodeAt i).sym = s := by
    by_contra hno
    exact hs (h3 s fun i hi he => hno ⟨i, hi, he⟩)
  obtain ⟨i, hil, rfl⟩ := this
  have hn : t.nnodes ≠ 0#9 := fun e => Tree.not_used_of_zero e i hil.1
  obtain ⟨p, hp⟩ := hi.reached i hil.1
  exact ⟨hn, i, by rw [h2 hn p i hp hil]; exact hp, hil, rfl⟩

/-- A table that agrees with a tree is prefix-free. -/
theorem Agree.prefixFree {t : Tree} {c : CodeTable} (hi : TreeInv t) (h : Agree t c) : c.PrefixFree := by
  rintro x y hxy hx hy ⟨w, hw⟩
  obtain ⟨hn, i, h1, h2, h3⟩ := h.entry_leaf x hx
  obtain ⟨_, j, h1', h2', h3'⟩ := h.entry_leaf y hy
  rw [← hw, Tree.follow_append, h1] at h1'
  have : w = [] := hi.follow_leaf h2.2 h1'
  subst this
  have : i = j := Option.some.inj h1'
  subst this
  exact hxy (h3.symm.trans h3')

/-- Tables that agree with one tree hold the same codes. -/
theorem Agree.codeOf_eq {t : Tree} {c c' : CodeTable} (h : Agree t c) (h' : Agree t c') (x : Sym) : c.codeOf x = c'.codeOf x := by
  have key : ∀ {c c' : CodeTable}, Agree t c → Agree t c' → c.lenOf x ≠ 0 → c.codeOf x = c'.codeOf x := by
    intro c c' h h' hl
    obtain ⟨hn, i, h1, h2, h3⟩ := h.entry_leaf x hl
    have := h'.leaf_entry hn _ i h1 h2
    rw [h3] at this
    exact this.symm
  by_cases hl : c.lenOf x = 0
  · by_cases hl' : c'.lenOf x = 0
    · rw [List.length_eq_zero_iff.1 (show (c.codeOf x).length = 0 by simpa using hl), List.length_eq_zero_iff.1 (show (c'.codeOf x).length = 0 by simpa using hl')]
    · exact (key h' h hl').symm
  · exact key h h' hl

/-- The stream of bytes with codes is a sequence of paths to their leaves (R174 of 45_unpack.md). -/
theorem Agree.stream_paths {t : Tree} {c : CodeTable} (ha : Agree t c) (bs : List Byte) (hc : ∀ x ∈ bs, c.lenOf x ≠ 0) :
    ∃ ws : List (Bits × NodeIdx), ws.length = bs.length ∧ (∀ w ∈ ws, t.follow t.root w.1 = some w.2 ∧ t.IsLeaf w.2) ∧
      ws.flatMap Prod.fst = stream c bs ∧ ws.map (fun w => (t.nodeAt w.2).sym) = bs := by
  induction bs with
  | nil => exact ⟨[], rfl, by simp, rfl, rfl⟩
  | cons b rest ih =>
    obtain ⟨ws, h1, h2, h3, h4⟩ := ih fun x hx => hc x (List.mem_cons_of_mem _ hx)
    obtain ⟨_, i, e1, e2, e3⟩ := ha.entry_leaf b (hc b (by simp))
    refine ⟨(c.codeOf b, i) :: ws, by simp [h1], ?_, by simp [stream] at h3 ⊢; rw [h3], by simp [e3, h4]⟩
    intro w hw
    rcases List.mem_cons.1 hw with rfl | hw
    · exact ⟨e1, e2⟩
    · exact h2 w hw

/-- The paths of a tree are no more than its records. -/
theorem TreeInv.paths_le {t : Tree} (h : TreeInv t) {l : List Bits} (hl : l.Nodup)
    (hp : ∀ p ∈ l, ∃ i, t.follow t.root p = some i) : l.length ≤ 511 := by
  have hnd : (l.map fun p => (t.follow t.root p).getD 0).Nodup := by
    rw [List.nodup_map_iff_inj_on hl]
    intro p hp' q hq e
    obtain ⟨i, hi⟩ := hp p hp'
    obtain ⟨j, hj⟩ := hp q hq
    rw [hi, hj] at e
    simp only [Option.getD_some] at e
    exact h.path_unique hi (e ▸ hj)
  have hsub : (l.map fun p => (t.follow t.root p).getD 0) ⊆ List.finRange 511 := fun x _ => List.mem_finRange x
  have := (List.subperm_of_subset hnd hsub).length_le
  simpa using this

/-- The trie of a table that agrees with a tree fits the arena (R188(b) of 46_trie_codec.md). -/
theorem Agree.trieSize_le {t : Tree} {c : CodeTable} (hi : TreeInv t) (h : Agree t c) : c.trieSize ≤ 511 := by
  by_cases hn : t.nnodes = 0#9
  · have hz : ∀ s, c.codeOf s = [] := by
      intro s
      rw [← List.length_eq_zero_iff, CodeTable.length_codeOf]
      by_contra hl
      exact (h.entry_leaf s hl).1 hn
    have hsub : (symbols.flatMap fun s => (c.codeOf s).inits).dedup ⊆ [[]] := by
      intro p hp
      rw [List.mem_dedup, List.mem_flatMap] at hp
      obtain ⟨s, _, hp⟩ := hp
      rw [hz s] at hp
      simpa using hp
    have := (List.subperm_of_subset (List.nodup_dedup _) hsub).length_le
    exact this.trans (by simp)
  · refine hi.paths_le (List.nodup_dedup _) fun p hp => ?_
    rw [List.mem_dedup, List.mem_flatMap] at hp
    obtain ⟨s, _, hp⟩ := hp
    rw [List.mem_inits] at hp
    by_cases hl : c.lenOf s = 0
    · have : c.codeOf s = [] := by rw [← List.length_eq_zero_iff]; simpa using hl
      rw [this, List.prefix_nil] at hp
      exact ⟨t.root, by rw [hp]; rfl⟩
    · obtain ⟨w, hw⟩ := hp
      obtain ⟨_, i, h1, _⟩ := h.entry_leaf s hl
      rw [← hw, Tree.follow_append] at h1
      cases hq : t.follow t.root p with
      | none => rw [hq] at h1; exact absurd h1 (by simp)
      | some j => exact ⟨j, rfl⟩

/-- TRIE completes on a prefix-free table whose trie fits (R184, R185 of 46_trie_codec.md). -/
theorem trieOf_ok {c : CodeTable} (hp : c.PrefixFree) (hs : c.trieSize ≤ 511) : ∃ t, trieOf c = .ok t := by
  have h := trieOf_spec c
  cases ht : trieOf c with
  | ok t => exact ⟨t, rfl⟩
  | error r =>
    rw [ht] at h
    obtain ⟨xs, y, zs, e, hl, h⟩ := h
    have hnd := symbols_nodup
    rw [e] at hnd
    exfalso
    rcases h with ⟨_, x, hx, hlx, hc⟩ | ⟨_, hb⟩
    · have hxy : x ≠ y := by
        rintro rfl
        exact (List.nodup_append.1 hnd).2.2 x hx x (by simp) rfl
      rcases hc with hc | hc
      · exact hp x y hxy hlx hl hc
      · exact hp y x hxy.symm hl hlx hc
    · have h1 := trieSizeOf_mono c (xs := xs ++ [y]) (ys := symbols) fun z _ => mem_symbols z
      have h2 : c.trieSize = c.trieSizeOf symbols := rfl
      omega

end Sys2Proof.Machine
end

