-- ==== Sys2Proof/Laws/PerInstr.lean ====
section
/-! SUPPORT. Statements made for each command, one lemma per constructor: the command word's fields and its way back (R90 to R92 of
30_encoding.md). -/

namespace Sys2Proof.Laws.CommandWord

/-- The word of a command has RSV zero, its OPC names the command and no other, and the command is well formed. -/
def Statement (i : Instr) : Prop :=
  rsvField (encode i) = 0#24 ∧ commandOfOpcode (opcField (encode i)) = some i ∧ i.wellFormed = true

theorem nop : Statement .nop := ⟨rfl, rfl, rfl⟩

theorem srst : Statement .srst := ⟨rfl, rfl, rfl⟩

theorem clrf : Statement .clrf := ⟨rfl, rfl, rfl⟩

theorem count : Statement .count := ⟨rfl, rfl, rfl⟩

theorem build : Statement .build := ⟨rfl, rfl, rfl⟩

theorem derive : Statement .derive := ⟨rfl, rfl, rfl⟩

theorem pack : Statement .pack := ⟨rfl, rfl, rfl⟩

theorem unpack : Statement .unpack := ⟨rfl, rfl, rfl⟩

theorem trie : Statement .trie := ⟨rfl, rfl, rfl⟩

end Sys2Proof.Laws.CommandWord
end

