-- ==== Sys2Proof/Laws/Script.lean ====
section
/-! SUPPORT. What the run of a host script does: one event, the accounts it keeps, and how it ends (R261 of
70_reset_and_hazards.md). -/

namespace Sys2Proof.Machine

@[simp] theorem ScriptRun.arrive_state (r : ScriptRun) (t : State) : (r.arrive t).state = t := rfl

@[simp] theorem ScriptRun.arrive_turns (r : ScriptRun) (t : State) : (r.arrive t).turns = r.turns := rfl

@[simp] theorem ScriptRun.noteExpected_state (r : ScriptRun) (d : Directive) : (r.noteExpected d).state = r.state := by
  unfold ScriptRun.noteExpected; split <;> rfl

/-- An event performed is a step of the machine. -/
theorem ScriptRun.perform_some {r r' : ScriptRun} {e : Event} (h : r.perform e = some r') :
    ∃ t, step { r.state with schedule := [e] } = .next t ∧ r' = r.arrive t := by
  unfold ScriptRun.perform at h
  split at h
  · next t ht => exact ⟨t, ht, (Option.some.inj h).symm⟩
  · exact absurd h (by simp)
  · exact absurd h (by simp)

/-- Completion leaves BUSY (R32 of 10_state.md). -/
theorem exec_not_busy {i : Instr} {s t : State} (h : exec i s = .next t) : t.engine ≠ .busy := by
  cases i <;> simp only [exec] at h
  · cases h; simp [State.finish, State.flagsDone]
  · cases h; simp [State.softReset]
  · cases h; simp [State.clearFault, State.flagsDone]
  · rcases execCount_cases s with ⟨_, e⟩ | ⟨_, e⟩ <;> rw [e] at h <;> cases h <;> simp [State.finish, State.takeFault]
  · cases h; simp [State.finish]
  · rcases execDerive_cases s with ⟨_, e⟩ | ⟨_, c, _, e⟩ | ⟨_, _, e⟩ <;> rw [e] at h <;> cases h <;> simp [State.finish, State.takeFault]
  · rcases execPack_cases s with ⟨_, e⟩ | ⟨_, c, _, e⟩ | ⟨_, _, _, e⟩ <;> rw [e] at h <;> cases h <;>
      simp [State.finish, State.takeFault]
  · rcases execUnpack_cases s with ⟨_, _, e⟩ | ⟨_, c, _, e⟩ | ⟨_, _, _, e⟩ <;> rw [e] at h <;> cases h <;>
      simp [State.finish, State.takeFault]
  · rcases execTrie_cases s with ⟨_, _, e⟩ | ⟨t', ht, e⟩ <;> rw [e] at h <;> cases h <;> simp [State.finish, State.takeFault]

/-- After the engine's turn the machine is not BUSY. -/
theorem ScriptRun.perform_engine {r r' : ScriptRun} (h : r.perform .engine = some r') : r'.state.engine ≠ .busy := by
  obtain ⟨t, ht, rfl⟩ := ScriptRun.perform_some h
  rw [step_engine (.inr rfl)] at ht
  rcases engineTurn_cases ({ r.state with schedule := [.engine] } : State).popped with ⟨hb, e⟩ | ⟨_, i, _, _, e⟩ | ⟨_, _, e⟩ <;>
    rw [e] at ht
  · cases ht; exact hb
  · exact exec_not_busy ht
  · cases ht; simp [State.takeFault]

/-- A run that has ended is not BUSY (R261). -/
theorem runScript_rest {ds : List Directive} {r r' : ScriptRun} (h : runScript ds r = .ended r') : r'.state.engine ≠ .busy := by
  induction ds generalizing r with
  | nil =>
    simp only [runScript, finishRun] at h
    split at h
    · split at h
      · exact absurd h (by simp)
      · next he => cases h; exact ScriptRun.perform_engine he
    · next hb => cases h; simpa [State.busyFlag] using hb
  | cons d rest ih =>
    simp only [runScript] at h
    split at h
    · exact ih h
    · next e he =>
      subst h
      unfold Directive.execute at he
      split at he <;> (repeat' split at he) <;> simp at he

/-- The account of faults: none noted, none on record; and what is noted stays noted. -/
structure FaultsNoted (r r' : ScriptRun) : Prop where
  sound : (r.faults = [] → r.state.faultOnRecord = false) → r'.faults = [] → r'.state.faultOnRecord = false
  kept : r'.faults = [] → r.faults = []
  unexpected : (∀ b ∈ r.faults, b = false) → ∀ b ∈ r'.faults, b = false

theorem FaultsNoted.refl (r : ScriptRun) : FaultsNoted r r := ⟨id, id, id⟩

theorem FaultsNoted.trans {a b c : ScriptRun} (h : FaultsNoted a b) (h' : FaultsNoted b c) : FaultsNoted a c :=
  ⟨fun hs => h'.sound (h.sound hs), fun e => h.kept (h'.kept e), fun hs => h'.unexpected (h.unexpected hs)⟩

theorem ScriptRun.perform_noted {r r' : ScriptRun} {e : Event} (h : r.perform e = some r') : FaultsNoted r r' := by
  obtain ⟨t, _, rfl⟩ := ScriptRun.perform_some h
  unfold ScriptRun.arrive
  constructor
  · intro hs hf
    simp only at hf ⊢
    split at hf
    · exact absurd hf (by simp)
    · next hc =>
      have := hs hf
      simpa [this] using hc
  · intro hf
    simp only at hf
    split at hf
    · exact absurd hf (by simp)
    · exact hf
  · intro hs b hb
    simp only at hb
    split at hb
    · rcases List.mem_cons.1 hb with rfl | hb
      · rfl
      · exact hs b hb
    · exact hs b hb

theorem ScriptRun.engineMay_noted {r r' : ScriptRun} (h : r.engineMay = some r') : FaultsNoted r r' := by
  unfold ScriptRun.engineMay at h
  split at h
  · exact ScriptRun.perform_noted h
  · have := ScriptRun.perform_noted h
    exact ⟨this.sound, this.kept, this.unexpected⟩
  · rw [← Option.some.inj h]; exact ⟨id, id, id⟩

theorem ScriptRun.transact_noted {r r' : ScriptRun} {e : Event} (h : r.transact e = some r') : FaultsNoted r r' := by
  obtain ⟨r1, h1, h2⟩ := Option.bind_eq_some_iff.1 h
  exact (ScriptRun.engineMay_noted h1).trans (ScriptRun.perform_noted h2)

theorem waitIdle_noted {ts : List Bool} {r r' : ScriptRun} (h : waitIdle ts r = some r') : FaultsNoted r r' := by
  induction ts generalizing r with
  | nil => exact ScriptRun.transact_noted h
  | cons b rest ih =>
    simp only [waitIdle] at h
    split at h
    · exact absurd h (by simp)
    · next r1 h1 =>
      split at h
      · exact (ScriptRun.transact_noted h1).trans (ih h)
      · rw [← Option.some.inj h]; exact ScriptRun.transact_noted h1

/-- A directive that expects no fault keeps the account. -/
theorem Directive.execute_noted {d : Directive} {r r' : ScriptRun} (hd : d.expectsFault = false) (h : d.execute r = .ok r') :
    FaultsNoted r r' := by
  cases d with
  | wr sp ix v =>
    simp only [Directive.execute] at h
    split at h
    · exact absurd h (by simp)
    · next r1 h1 =>
      split at h
      · cases h; exact ScriptRun.transact_noted h1
      · exact absurd h (by simp)
  | rd sp ix =>
    simp only [Directive.execute] at h
    split at h
    · exact absurd h (by simp)
    · next r1 h1 =>
      split at h
      · cases h; exact ScriptRun.transact_noted h1
      · exact absurd h (by simp)
  | wait =>
    simp only [Directive.execute] at h
    split at h
    · exact absurd h (by simp)
    · next r1 h1 => cases h; exact waitIdle_noted h1
  | expect sp ix mask v =>
    simp only [Directive.execute] at h
    split at h
    · exact absurd h (by simp)
    · next r1 h1 =>
      split at h
      · split at h
        · cases h
          have : r1.noteExpected (.expect sp ix mask v) = r1 := by simp [ScriptRun.noteExpected, hd]
          rw [this]
          exact ScriptRun.transact_noted h1
        · exact absurd h (by simp)
      · exact absurd h (by simp)
  | expectErrWr sp ix v =>
    simp only [Directive.execute] at h
    split at h
    · exact absurd h (by simp)
    · next r1 h1 =>
      split at h
      · cases h; exact ScriptRun.transact_noted h1
      · exact absurd h (by simp)
  | expectErrRd sp ix =>
    simp only [Directive.execute] at h
    split at h
    · exact absurd h (by simp)
    · next r1 h1 =>
      split at h
      · cases h; exact ScriptRun.transact_noted h1
      · exact absurd h (by simp)

/-- A run without a fault expectation keeps the account to its end (R261). -/
theorem runScript_noted {ds : List Directive} {r r' : ScriptRun} (hd : ∀ d ∈ ds, d.expectsFault = false)
    (h : runScript ds r = .ended r') : FaultsNoted r r' := by
  induction ds generalizing r with
  | nil =>
    simp only [runScript, finishRun] at h
    split at h
    · split at h
      · exact absurd h (by simp)
      · next he => cases h; exact ScriptRun.perform_noted he
    · cases h; exact FaultsNoted.refl _
  | cons d rest ih =>
    simp only [runScript] at h
    split at h
    · next r1 h1 =>
      exact (Directive.execute_noted (hd d (by simp)) h1).trans (ih (fun x hx => hd x (by simp [hx])) h)
    · next e he =>
      subst h
      unfold Directive.execute at he
      split at he <;> (repeat' split at he) <;> simp at he

end Sys2Proof.Machine
end

