-- ==== Sys2Proof/Laws/TrieNumber.lean ====
section
/-! SUPPORT. How TRIE numbers its records (R181 of 46_trie_codec.md), and the fault of a 512th record (R185). -/

namespace Sys2Proof.Machine

/-! ### One code -/

/-- What inserting one code does to the numbering: old paths keep their records, new paths get higher ones, longer paths the higher. -/
structure Extends (a a' : Arena) (len : Nat) : Prop where
  old : ∀ p i, a.path p = some i → a'.path p = some i
  fresh : ∀ p i, a.path p = none → a'.path p = some i → a.next ≤ i.val ∧ len < p.length
  rising : ∀ p q i j, a.path p = none → a'.path p = some i → a.path q = none → a'.path q = some j →
    p.length < q.length → i < j

theorem insertBits_extends (s : Sym) (bits q : Bits) (cur : NodeIdx) (a a' : Arena) (hs : TrieShape a) (hq : a.path q = some cur)
    (hb : bits ≠ []) (h : insertBits s q.length bits cur a = .ok a') : Extends a a' q.length := by
  induction bits generalizing q cur a with
  | nil => exact absurd rfl hb
  | cons b rest ih =>
    have hlen : q.length + 1 = (q ++ [b]).length := by simp
    simp only [insertBits, Arena.leafAt_eq] at h
    by_cases hl : (a.recAt cur).leaf = true
    · simp [hl] at h
    have hl' : (a.recAt cur).leaf = false := by simpa using hl
    simp only [hl', Bool.false_eq_true, if_false] at h
    cases hc : a.childAt cur b with
    | some c =>
      by_cases hr : rest = []
      · simp [hr, hc] at h
      have he : rest.isEmpty = false := by simpa using hr
      simp only [he, Bool.false_eq_true, if_false, hc, hlen] at h
      have hp : a.path (q ++ [b]) = some c := by rw [Arena.path_snoc, hq]; exact hc
      obtain ⟨h1, h2, h3⟩ := ih (q ++ [b]) c a hs hp hr h
      exact ⟨h1, fun p i e e' => ⟨(h2 p i e e').1, by have := (h2 p i e e').2; omega⟩, h3⟩
    | none =>
      have hfull : a.next ≠ 511 := by
        intro hn
        by_cases hr : rest = []
        · simp [hr, hc, hn] at h
        · have he : rest.isEmpty = false := by simpa using hr
          simp [he, hc, hn] at h
      have hroom : a.next < 511 := lt_of_le_of_ne hs.le hfull
      have hnx := Arena.nextIdx_val hroom
      have hnone : a.path (q ++ [b]) = none := by rw [Arena.path_snoc, hq]; exact hc
      by_cases hr : rest = []
      · simp only [hr, List.isEmpty_nil, if_true, hc, hfull, if_false] at h
        have h : a.grow cur b (trieLeaf s) = a' := Except.ok.inj h
        subst h
        have hpath := hs.path_grow hroom hq hc (trieLeaf s)
        have new : ∀ p i, a.path p = none → (a.grow cur b (trieLeaf s)).path p = some i → p = q ++ [b] ∧ i = a.nextIdx := by
          intro p i e e'
          rw [hpath] at e'
          split at e'
          · next hp => exact ⟨hp, (Option.some.inj e').symm⟩
          · rw [e] at e'; exact absurd e' (by simp)
        refine ⟨fun p i e => ?_, fun p i e e' => ?_, fun p p' i j e e' d d' hlt => ?_⟩
        · rw [hpath, if_neg]
          · exact e
          · rintro rfl; rw [hnone] at e; exact absurd e (by simp)
        · obtain ⟨rfl, rfl⟩ := new p i e e'
          exact ⟨by omega, by omega⟩
        · obtain ⟨rfl, rfl⟩ := new p i e e'
          obtain ⟨rfl, rfl⟩ := new p' j d d'
          omega
      · have he : rest.isEmpty = false := by simpa using hr
        simp only [he, Bool.false_eq_true, if_false, hc, hfull, hlen] at h
        have hpath := hs.path_grow hroom hq hc NodeRec.zero
        have hp : (a.grow cur b NodeRec.zero).path (q ++ [b]) = some a.nextIdx := by rw [hpath, if_pos rfl]
        obtain ⟨h1, h2, h3⟩ := ih (q ++ [b]) a.nextIdx _ (hs.grow hroom hq hl' hc rfl) hp hr h
        have hnew : a'.path (q ++ [b]) = some a.nextIdx := h1 _ _ hp
        have later : ∀ p i, p ≠ q ++ [b] → a.path p = none → a'.path p = some i → a.next < i.val ∧ q.length + 1 < p.length := by
          intro p i hne e e'
          have := h2 p i (by rw [hpath, if_neg hne]; exact e) e'
          simp only [Arena.grow_next, List.length_append, List.length_singleton] at this
          omega
        refine ⟨fun p i e => ?_, fun p i e e' => ?_, fun p p' i j e e' d d' hlt => ?_⟩
        · apply h1
          rw [hpath, if_neg]
          · exact e
          · rintro rfl; rw [hnone] at e; exact absurd e (by simp)
        · by_cases hpe : p = q ++ [b]
          · subst hpe
            rw [hnew] at e'
            rw [← Option.some.inj e', hnx]
            exact ⟨Nat.le_refl _, by omega⟩
          · have := later p i hpe e e'
            omega
        · by_cases hpe : p = q ++ [b]
          · subst hpe
            have hp' : p' ≠ q ++ [b] := by rintro rfl; omega
            have := later p' j hp' d d'
            rw [hnew] at e'
            rw [← Option.some.inj e', Fin.lt_def, hnx]
            omega
          · have := later p i hpe e e'
            by_cases hpe' : p' = q ++ [b]
            · subst hpe'; omega
            · exact h3 p p' i j (by rw [hpath, if_neg hpe]; exact e) e' (by rw [hpath, if_neg hpe']; exact d) d' hlt

/-! ### All codes -/

/-- `x` is the lowest of the symbols `ss` whose code starts with `p`. -/
structure MadeIn (c : CodeTable) (ss : List Sym) (p : Bits) (x : Sym) : Prop where
  mem : x ∈ ss
  entry : c.lenOf x ≠ 0
  starts : p <+: c.codeOf x
  lowest : ∀ z ∈ ss, c.lenOf z ≠ 0 → p <+: c.codeOf z → x ≤ z

/-- The records are numbered in the order of creation. -/
def Numbered (c : CodeTable) (ss : List Sym) (a : Arena) : Prop :=
  ∀ p q x y i j, MadeIn c ss p x → MadeIn c ss q y → a.path p = some i → a.path q = some j →
    (x < y ∨ (x = y ∧ p.length < q.length)) → i < j

theorem numbered_nil (c : CodeTable) (a : Arena) : Numbered c [] a := by
  intro p q x y i j hp
  exact absurd hp.mem (by simp)

theorem sym_le_or_lt (x y : Sym) : x ≤ y ∨ y < x := by
  rw [BitVec.le_def, BitVec.lt_def]; omega

/-- One symbol keeps the numbering. -/
theorem insertSym_numbered {c : CodeTable} {ss : List Sym} {a a' : Arena} {y : Sym} (h : TrieOf c ss a) (hn : Numbered c ss a)
    (hlt : ∀ x ∈ ss, x < y) (hi : insertSym c a (y, entryAt c.len y) = .ok a') : Numbered c (ss ++ [y]) a' := by
  have irr : ¬ y < y := by simp
  by_cases hl : c.lenOf y = 0
  · have : insertSym c a (y, entryAt c.len y) = .ok a := by simp [insertSym, (entryAt_len_eq_zero c y).2 hl]
    rw [this] at hi
    rw [← Except.ok.inj hi]
    have back : ∀ p x, MadeIn c (ss ++ [y]) p x → MadeIn c ss p x := by
      intro p x hx
      refine ⟨?_, hx.entry, hx.starts, fun z hz => hx.lowest z (by simp [hz])⟩
      rcases List.mem_append.1 hx.mem with hm | hm
      · exact hm
      · rw [List.mem_singleton.1 hm] at hx
        exact absurd hl hx.entry
    intro p q x z i j hp hq
    exact hn p q x z i j (back p x hp) (back q z hq)
  · have hne : entryAt c.len y ≠ 0#8 := fun e => hl ((entryAt_len_eq_zero c y).1 e)
    have : insertSym c a (y, entryAt c.len y) = insertBits y 0 (c.codeOf y) 0 a.withTrieRoot := by simp [insertSym, hne]
    rw [this] at hi
    obtain ⟨hs, hh, _⟩ := h.withRoot
    have hspec := insertBits_spec y (c.codeOf y) [] 0 a.withTrieRoot _ hs hh rfl (codeOf_ne_nil hl)
    rw [List.length_nil, hi] at hspec
    have hs' : TrieShape a' := hspec.1
    have hex := insertBits_extends y (c.codeOf y) [] 0 a.withTrieRoot a' hs rfl (codeOf_ne_nil hl) hi
    -- the paths of the entries before
    have hkept : ∀ p x, x ∈ ss → MadeIn c (ss ++ [y]) p x →
        MadeIn c ss p x ∧ ∀ i, a'.path p = some i → a.path p = some i ∧ i.val < a.withTrieRoot.next ∧ a.withTrieRoot.path p = some i := by
      intro p x hx hm
      refine ⟨⟨hx, hm.entry, hm.starts, fun z hz => hm.lowest z (by simp [hz])⟩, fun i hpi => ?_⟩
      have hmem : (x, c.codeOf x) ∈ entriesBack c ss := (mem_entriesBack c ss _).2 ⟨hx, hm.entry, rfl⟩
      obtain ⟨k, hk⟩ := (hh.present p).2 (.inr ⟨_, hmem, hm.starts⟩)
      have hki : k = i := by
        have := hex.old p k hk
        rw [hpi] at this
        exact (Option.some.inj this).symm
      subst hki
      have haw : a.withTrieRoot = a := by
        rcases h with ⟨he, _⟩ | ⟨_, hs0, _, _⟩
        · rw [he] at hmem; exact absurd hmem (by simp)
        · have := hs0.pos
          simp only [Arena.withTrieRoot]
          rw [if_neg (by omega)]
      exact ⟨haw ▸ hk, hs.path_lt hk, hk⟩
    -- the paths of `y` alone are new, but for the root's
    have hfresh : ∀ p, p ≠ [] → MadeIn c (ss ++ [y]) p y → a.withTrieRoot.path p = none := by
      intro p hp hm
      by_contra hsome
      obtain ⟨k, hk⟩ := Option.ne_none_iff_exists'.1 hsome
      rcases (hh.present p).1 ⟨k, hk⟩ with hp' | ⟨e, he, hpe⟩
      · exact hp (List.prefix_nil.1 hp')
      · rw [mem_entriesBack] at he
        have hle := hm.lowest e.1 (by simp [he.1]) he.2.1 (he.2.2 ▸ hpe)
        have hlt' := hlt _ he.1
        rw [BitVec.le_def] at hle
        rw [BitVec.lt_def] at hlt'
        omega
    intro p q x z i j hp hq hpi hqj hord
    by_cases hq0 : q = []
    · subst hq0
      exfalso
      rcases hord with hxz | ⟨_, hlen⟩
      · have := hq.lowest x hp.mem hp.entry List.nil_prefix
        rw [BitVec.le_def] at this
        rw [BitVec.lt_def] at hxz
        omega
      · simp at hlen
    · by_cases hp0 : p = []
      · subst hp0
        have hi0 : i = 0 := (Option.some.inj hpi).symm
        have hj0 : j ≠ 0 := by
          rintro rfl
          exact hq0 (hs'.path_inj hqj (rfl : a'.path [] = some 0))
        rw [hi0, Fin.lt_def]
        have : j.val ≠ 0 := fun e => hj0 (Fin.ext e)
        show 0 < j.val
        omega
      · rcases List.mem_append.1 hp.mem with hx | hx
        · rcases List.mem_append.1 hq.mem with hz | hz
          · obtain ⟨m1, k1⟩ := hkept p x hx hp
            obtain ⟨m2, k2⟩ := hkept q z hz hq
            exact hn p q x z i j m1 m2 (k1 i hpi).1 (k2 j hqj).1 hord
          · rw [List.mem_singleton.1 hz] at hq
            have h1 := ((hkept p x hx hp).2 i hpi).2.1
            have h2 := (hex.fresh q j (hfresh q hq0 hq) hqj).1
            rw [Fin.lt_def]
            omega
        · have hxy := List.mem_singleton.1 hx
          subst hxy
          rcases List.mem_append.1 hq.mem with hz | hz
          · have hzx := hlt z hz
            exfalso
            rcases hord with h | ⟨h, _⟩
            · rw [BitVec.lt_def] at h hzx; omega
            · rw [h] at hzx; rw [BitVec.lt_def] at hzx; omega
          · have hzx := List.mem_singleton.1 hz
            subst hzx
            rcases hord with h | ⟨_, h⟩
            · exact absurd h irr
            · exact hex.rising p q i j (hfresh p hp0 hp) hpi (hfresh q hq0 hq) hqj h

/-- The symbols in order keep the numbering. -/
theorem insertSyms_numbered (c : CodeTable) (ss done : List Sym) (a a' : Arena) (h : TrieOf c done a) (hn : Numbered c done a)
    (hp : (done ++ ss).Pairwise (· < ·)) (hi : insertSyms c (ss.map fun s => (s, entryAt c.len s)) a = .ok a') :
    Numbered c (done ++ ss) a' := by
  induction ss generalizing done a with
  | nil =>
    rw [← Except.ok.inj hi, List.append_nil]
    exact hn
  | cons y rest ih =>
    simp only [List.map_cons, insertSyms] at hi
    have hy := insertSym_spec h y
    cases he : insertSym c a (y, entryAt c.len y) with
    | error r => rw [he] at hi; exact absurd hi (by simp)
    | ok a1 =>
      rw [he] at hi hy
      have hlt : ∀ x ∈ done, x < y := fun x hx => (List.pairwise_append.1 hp).2.2 x hx y (by simp)
      have := ih (done ++ [y]) a1 hy (insertSym_numbered h hn hlt he) (by simpa using hp) hi
      simpa using this

/-- In the trie of a table the records are numbered in the order of creation (R181). -/
theorem trieOf_numbered {c : CodeTable} {t : Tree} (h : trieOf c = .ok t) :
    ∃ a, t = a.toTree 0 ∧ TrieOf c symbols a ∧ Numbered c symbols a := by
  have hspec := insertSyms_spec c symbols [] Arena.clear (trieOf_nil c)
  rw [trieOf, entriesOf_eq] at h
  cases hi : insertSyms c (symbols.map fun s => (s, entryAt c.len s)) Arena.clear with
  | error r => rw [hi] at h; exact absurd h (by simp)
  | ok a =>
    rw [hi] at h hspec
    refine ⟨a, (Except.ok.inj h).symm, by simpa using hspec, ?_⟩
    have := insertSyms_numbered c symbols [] Arena.clear a (trieOf_nil c) (numbered_nil c _) (by simpa using symbols_pairwise) hi
    simpa using this

/-! ### The fault of a 512th record -/

/-- The bits `w` of a code meet no leaf and all records are theirs or the entries'; one more bit has none left (R185). -/
theorem insertBits_overflow (s : Sym) (w rest : Bits) (b : Bool) (q : Bits) (cur : NodeIdx) (a : Arena) (es : List (Sym × Bits))
    (l : List Bits) (hs : TrieShape a) (hh : Holds a es q) (hq : a.path q = some cur)
    (hleaf : ∀ e ∈ es, ¬ e.2 <+: q ++ w) (hnew : ∀ e ∈ es, ¬ q ++ w ++ [b] <+: e.2)
    (hl : l.Nodup) (hmem : ∀ p, p ∈ l ↔ p <+: q ++ w ∨ ∃ e ∈ es, p <+: e.2) (hlen : l.length = 511) :
    insertBits s q.length (w ++ b :: rest) cur a = .error (nodeOvfAt s (q.length + w.length)) := by
  have inner : (a.recAt cur).leaf = false := by
    by_contra hlf
    obtain ⟨e, he, h1, _⟩ := hh.leaf q cur hq (by simpa using hlf)
    exact hleaf e he (h1 ▸ List.prefix_append _ _)
  induction w generalizing q cur a with
  | nil =>
    simp only [List.append_nil] at hleaf hnew hmem
    have hnext : a.next = 511 := by
      apply Nat.le_antisymm hs.le
      have := hs.length_le hl fun p hp => (hh.present p).2 ((hmem p).1 hp)
      omega
    have hc : a.childAt cur b = none := by
      by_contra hsome
      obtain ⟨k, hk⟩ := Option.ne_none_iff_exists'.1 hsome
      have hp : a.path (q ++ [b]) = some k := by rw [Arena.path_snoc, hq]; exact hk
      rcases (hh.present _).1 ⟨k, hp⟩ with h | ⟨e, he, h⟩
      · have := h.length_le; simp at this
      · exact hnew e he h
    simp only [List.nil_append, insertBits, Arena.leafAt_eq, inner, Bool.false_eq_true, if_false, hc, hnext, if_true, List.length_nil,
      Nat.add_zero]
    split <;> rfl
  | cons d w ih =>
    have hassoc : q ++ d :: w = (q ++ [d]) ++ w := by simp
    have hne : (w ++ b :: rest).isEmpty = false := by simp
    have hcount : q.length + (d :: w).length = (q ++ [d]).length + w.length := by simp; omega
    have hone : q.length + 1 = (q ++ [d]).length := by simp
    rw [hassoc] at hleaf hnew hmem
    rw [hcount]
    simp only [List.cons_append, insertBits, Arena.leafAt_eq, inner, Bool.false_eq_true, if_false, hne, hone]
    cases hc : a.childAt cur d with
    | some k =>
      have hp : a.path (q ++ [d]) = some k := by rw [Arena.path_snoc, hq]; exact hc
      refine ih (q ++ [d]) k a hs (hh.follow hp) hp hleaf hnew hmem ?_
      by_contra hlf
      obtain ⟨e, he, h1, _⟩ := hh.leaf (q ++ [d]) k hp (by simpa using hlf)
      exact hleaf e he (h1 ▸ List.prefix_append _ _)
    | none =>
      have hnone : a.path (q ++ [d]) = none := by rw [Arena.path_snoc, hq]; exact hc
      have hin : q ++ [d] ∈ l := (hmem _).2 (.inl (List.prefix_append _ _))
      have hle := hs.le_length (l := l.erase (q ++ [d])) (by
        intro p i hp
        have hpne : p ≠ q ++ [d] := fun e => by rw [e, hnone] at hp; exact absurd hp (by simp)
        refine (List.mem_erase_of_ne hpne).2 ((hmem p).2 ?_)
        rcases (hh.present p).1 ⟨i, hp⟩ with h | h
        · exact .inl (h.trans (by rw [← hassoc]; exact List.prefix_append _ _))
        · exact .inr h)
      rw [List.length_erase_of_mem hin] at hle
      have hroom : a.next < 511 := by omega
      have hne511 : a.next ≠ 511 := by omega
      have hp : (a.grow cur d NodeRec.zero).path (q ++ [d]) = some a.nextIdx := by rw [hs.path_grow hroom hq hc, if_pos rfl]
      simp only [hne511, if_false]
      refine ih (q ++ [d]) a.nextIdx _ (hs.grow hroom hq inner hc rfl) (hh.growInner hs hroom hq hc) hp hleaf hnew hmem ?_
      rw [Arena.recAt_grow hroom, if_pos rfl]
      rfl

/-- One symbol whose code needs a 512th record at bit `j` (R185). -/
theorem insertSym_overflow {c : CodeTable} {ss : List Sym} {a : Arena} (h : TrieOf c ss a) {y : Sym} {j : Nat} (hj : j < c.lenOf y)
    (hleaf : ∀ x ∈ ss, c.lenOf x ≠ 0 → ¬ c.codeOf x <+: (c.codeOf y).take j)
    (hnew : ∀ x ∈ ss, ¬ (c.codeOf y).take (j + 1) <+: c.codeOf x)
    (hlen : ((ss.flatMap fun z => (c.codeOf z).inits) ++ ((c.codeOf y).take j).inits).dedup.length = 511) :
    insertSym c a (y, entryAt c.len y) = .error (nodeOvfAt y j) := by
  have hly : c.lenOf y ≠ 0 := by omega
  have hne : entryAt c.len y ≠ 0#8 := fun e => hly ((entryAt_len_eq_zero c y).1 e)
  have hjl : j < (c.codeOf y).length := by simpa using hj
  have hsplit : c.codeOf y = (c.codeOf y).take j ++ (c.codeOf y)[j] :: (c.codeOf y).drop (j + 1) := by
    rw [← List.drop_eq_getElem_cons hjl, List.take_append_drop]
  have hsnoc : (c.codeOf y).take (j + 1) = (c.codeOf y).take j ++ [(c.codeOf y)[j]] := by
    rw [List.take_succ_eq_append_getElem hjl]
  obtain ⟨hs, hh, _⟩ := h.withRoot
  have := insertBits_overflow y ((c.codeOf y).take j) ((c.codeOf y).drop (j + 1)) (c.codeOf y)[j] [] 0 a.withTrieRoot
    (entriesBack c ss) _ hs hh rfl
    (fun e he => by
      rw [mem_entriesBack] at he
      rw [List.nil_append, he.2.2]
      exact hleaf e.1 he.1 he.2.1)
    (fun e he => by
      rw [mem_entriesBack] at he
      rw [List.nil_append, he.2.2, ← hsnoc]
      exact hnew e.1 he.1)
    (List.nodup_dedup _)
    (fun p => by
      rw [List.mem_dedup, List.mem_append, List.mem_flatMap, List.nil_append, List.mem_inits]
      constructor
      · rintro (⟨z, hz, hp⟩ | hp)
        · rw [List.mem_inits] at hp
          by_cases hl : c.lenOf z = 0
          · have : c.codeOf z = [] := by rw [← List.length_eq_zero_iff]; simpa using hl
            rw [this, List.prefix_nil] at hp
            exact .inl (hp ▸ List.nil_prefix)
          · exact .inr ⟨(z, c.codeOf z), (mem_entriesBack c ss _).2 ⟨hz, hl, rfl⟩, hp⟩
        · exact .inl hp
      · rintro (hp | ⟨e, he, hp⟩)
        · exact .inr hp
        · rw [mem_entriesBack] at he
          exact .inl ⟨e.1, he.1, by rw [List.mem_inits, ← he.2.2]; exact hp⟩)
    hlen
  rw [← hsplit] at this
  have hjj : ([] : Bits).length + ((c.codeOf y).take j).length = j := by simp; omega
  rw [hjj] at this
  simpa [insertSym, hne] using this

end Sys2Proof.Machine
end

