-- ==== Sys2Proof/Tests/Slice0.lean ====
section
/-! SUPPORT. Tests: well-formedness refuses, words of the spec's encoding decode, one step per command on values of
spec/95_test_vectors.md, and for every statement with hypotheses a state that meets them. -/

namespace Sys2Proof.Tests

open Sys2Proof.Machine

/-! ### Well-formedness refuses what is not -/

theorem test_wf_rawSize_zero : Params.wellFormed { rawSize := 0#32, pkdSize := 1#32 } = false := by decide

theorem test_wf_pkdSize_zero : Params.wellFormed { rawSize := 1#32, pkdSize := 0#32 } = false := by decide

theorem test_wf_pkdSize_large : Params.wellFormed { rawSize := 1#32, pkdSize := 0x20000000#32 } = false := by decide

theorem test_wf_params_limits : Params.wellFormed { rawSize := 0xFFFFFFFF#32, pkdSize := 0x1FFFFFFF#32 } = true := by decide

theorem test_wf_code_empty : codeWellFormed [] = false := by decide

theorem test_wf_code_long : codeWellFormed (List.replicate 256 true) = false := by decide +kernel

theorem test_wf_code_limit : codeWellFormed (List.replicate 255 true) = true := by decide +kernel

/-- No command is ill formed: none has an operand (R96 of 30_encoding.md). -/
theorem test_wf_commands : ∀ i : Instr, i.wellFormed = true := by intro i; cases i <;> rfl

/-! ### Decoding: words written from the table of R91 of 30_encoding.md -/

theorem test_decode_nop : decode 0b00000000_00000000_00000000_00000000#32 = .ok .nop := by decide

theorem test_decode_srst : decode 0b00000000_00000000_00000000_00000001#32 = .ok .srst := by decide

theorem test_decode_clrf : decode 0b00000000_00000000_00000000_00000010#32 = .ok .clrf := by decide

theorem test_decode_count : decode 0b00000000_00000000_00000000_00010000#32 = .ok .count := by decide

theorem test_decode_build : decode 0b00000000_00000000_00000000_00010001#32 = .ok .build := by decide

theorem test_decode_derive : decode 0b00000000_00000000_00000000_00010010#32 = .ok .derive := by decide

theorem test_decode_pack : decode 0b00000000_00000000_00000000_00010011#32 = .ok .pack := by decide

theorem test_decode_unpack : decode 0b00000000_00000000_00000000_00010100#32 = .ok .unpack := by decide

theorem test_decode_trie : decode 0b00000000_00000000_00000000_00010101#32 = .ok .trie := by decide

/-- V-C5: the illegal words. -/
theorem test_decode_illegal :
    decode 0x00000003#32 = .error (.unknownOpcode 0x03#8) ∧ decode 0x00000016#32 = .error (.unknownOpcode 0x16#8) ∧
    decode 0x000000FF#32 = .error (.unknownOpcode 0xFF#8) ∧ decode 0x00000110#32 = .error (.reservedNotZero 1#24) ∧
    decode 0x80000010#32 = .error (.reservedNotZero 0x800000#24) ∧ decode 0xFFFFFFFF#32 = .error (.reservedNotZero 0xFFFFFF#24) := by
  decide

theorem test_encode_roundtrip : ∀ i : Instr, decode (encode i) = .ok i := by intro i; cases i <;> decide

/-- The table's numbering of bits: a word that needs more than 32 bits is no command. -/
theorem test_decodeTableWord : decodeTableWord 32 0x13 = some .pack ∧ decodeTableWord 32 0x113 = none := by decide

/-! ### States the tests start from -/

/-- What a step's next state shows, if there is one. -/
def after (o : Host.Outcome State Fault Refusal) (f : State → α) : Option α :=
  match o with
  | .next t => some (f t)
  | .fault _ => none
  | .refused _ => none

/-- Whether a step gives a next state of which `p` holds. -/
def gives (o : Host.Outcome State Fault Refusal) (p : State → Bool) : Bool :=
  match o with
  | .next t => p t
  | .fault _ => false
  | .refused _ => false

theorem exists_of_gives {o : Host.Outcome State Fault Refusal} {p : State → Bool} (h : gives o p = true) :
    ∃ t, o = .next t ∧ p t = true := by
  cases o with
  | next t => exact ⟨t, rfl, h⟩
  | fault r => exact absurd h (by simp [gives])
  | refused r => exact absurd h (by simp [gives])

/-- A buffer that starts with the given bytes. -/
def bufferOf (bs : List Byte) : Memory := { cells := (List.range bs.length).zip bs, drawn := [], base := 0 }

/-- After reset, with the given input and RLEN its length. -/
def loaded (bs : List Byte) : State := { State.reset with raw := bufferOf bs, rlen := BitVec.ofNat 32 bs.length }

/-- The frequencies of a list of (symbol, count). -/
def freqOf (l : List (Sym × Word)) : Table Word := l.foldl (fun f e => putEntry f e.1 e.2) zeroFreq

/-- The table with the given codes. -/
def tableOf (l : List (Sym × Bits)) : CodeTable := l.foldl (fun c e => c.store e.1 e.2) CodeTable.empty

/-- The tree of 1000 bytes 0x07 (V-B4). -/
@[irreducible] def sevenTree : Tree := buildTree (freqOf [(0x07#8, 1000#32)])

/-- The tree of one A, one B, one C (V-B2). -/
@[irreducible] def abcTree : Tree := buildTree (freqOf [(0x41#8, 1#32), (0x42#8, 1#32), (0x43#8, 1#32)])

/-- The codes of V-B2. -/
def abcTable : CodeTable := tableOf [(0x41#8, [true, false]), (0x42#8, [true, true]), (0x43#8, [false])]

/-- After reset, with a tree. -/
def withSeven : State := { State.reset with treeOk := true, tree := sevenTree }

/-- In FAULT, after the illegal word 3 (V-C5). -/
def inFault : State := { State.reset with cmd := 3#32, engine := .fault, err := { code := 0x01#8, info0 := 3#32, info1 := 0#32 } }

/-- The state with one event to come. -/
def due (e : Event) (s : State) : State := { s with schedule := [e] }

/-! ### One step per command, values of spec/95_test_vectors.md -/

/-- V-C2. -/
theorem test_nop_status : after (step (State.reset.withFetchWord 32 0x00)) (fun t => (t.statusWord, t.cmd)) = some (0x2#32, 0#32) := by
  decide

/-- V-C3 in small: RLEN and STATUS are reset, CMD and RAW stay. -/
theorem test_srst_keeps_raw :
    after (step ((loaded [0x41#8, 0x42#8]).withFetchWord 32 0x01)) (fun t => (t.statusWord, t.cmd, t.rlen, t.raw.read 1)) =
      some (0x2#32, 1#32, 0#32, 0x42#8) := by decide

/-- V-C6: out of FAULT. -/
theorem test_clrf_clears :
    after (step (inFault.withFetchWord 32 0x02)) (fun t => (t.statusWord, t.regRead 3, t.regRead 4, t.cmd)) =
      some (0x2#32, 0#32, 0#32, 2#32) := by decide

/-- V-N3: the counter is cleared first. -/
theorem test_count_clears_first :
    after (exec .count { loaded [0x41#8, 0x42#8] with freq := freqOf [(0x10#8, 99#32)] })
      (fun t => (entryAt t.freq 0x10#8, entryAt t.freq 0x41#8, entryAt t.freq 0x42#8)) = some (0#32, 1#32, 1#32) := by decide

/-- V-N6: RLEN too large. -/
theorem test_count_range :
    after (exec .count { State.reset with rlen := 65537#32 }) (fun t => (t.statusWord, t.regRead 3, t.regRead 4, t.regRead 5)) =
      some (0x4#32, 0x02#32, 65537#32, 0#32) := by decide

/-- V-B2: the tie is broken by index. -/
theorem test_build_abc :
    after (exec .build { State.reset with freq := freqOf [(0x41#8, 1#32), (0x42#8, 1#32), (0x43#8, 1#32)] })
      (fun t => (t.regRead 10, t.regRead 11, t.regRead 12, t.tree.childAt 3 false, t.tree.childAt 3 true, t.tree.childAt 4 false,
        t.tree.childAt 4 true)) = some (3#32, 5#32, 4#32, some 0, some 1, some 2, some 3) := by decide +kernel

/-- V-B4: the synthetic root. -/
theorem test_build_seven :
    after (exec .build { State.reset with freq := freqOf [(0x07#8, 1000#32)] })
      (fun t => (t.regRead 11, t.regRead 12, t.element .link 2, t.element .link 3, t.element .node 0)) =
      some (2#32, 1#32, 0x200#32, 0#32, 0x107#32) := by decide +kernel

/-- V-B2 and V-D1: codes of the tree of A, B, C. -/
theorem test_derive_abc :
    after (exec .derive { State.reset with treeOk := true, tree := abcTree })
      (fun t => (t.code.codeOf 0x41#8, t.code.codeOf 0x42#8, t.code.codeOf 0x43#8, t.code.wordOf 0x42#8 0)) =
      some ([true, false], [true, true], [false], 0xC0000000#32) := by decide +kernel

/-- V-D7: no tree. -/
theorem test_derive_state :
    after (exec .derive State.reset) (fun t => (t.statusWord, t.regRead 3, t.regRead 4)) = some (0x4#32, 0x03#32, 0x12#32) := by
  decide

/-- V-P9. -/
theorem test_pack_abc :
    after (exec .pack { loaded [0x41#8, 0x42#8, 0x43#8] with code := abcTable }) (fun t => (t.pkd.read 0, t.plen, t.pbits)) =
      some (0xB0#8, 1#32, 5#32) := by decide +kernel

/-- V-P14: the flush has no room. -/
theorem test_pack_overflow :
    after (exec .pack { loaded [0x41#8, 0x42#8, 0x43#8, 0x44#8, 0x41#8, 0x42#8, 0x43#8, 0x44#8, 0x41#8] with
      params := { rawSize := 65536#32, pkdSize := 2#32 }
      code := tableOf [(0x41#8, [false, false]), (0x42#8, [false, true]), (0x43#8, [true, false]), (0x44#8, [true, true])] })
      (fun t => (t.regRead 3, t.regRead 4, t.regRead 5)) = some (0x11#32, 9#32, 18#32) := by decide

/-- V-U4: the absent right link of the root. -/
theorem test_unpack_path :
    after (exec .unpack { withSeven with rlen := 8#32, plen := 1#32, pkd := bufferOf [0x20#8] })
      (fun t => (t.statusWord, t.regRead 3, t.regRead 4, t.regRead 5, t.ubits)) = some (0xC#32, 0x20#32, 2#32, 2#32, 0#32) := by decide +kernel

/-- V-P9 read backwards: RAW is "ABC", UBITS 5. -/
theorem test_unpack_abc :
    after (exec .unpack { State.reset with treeOk := true, tree := abcTree, rlen := 3#32, plen := 1#32, pkd := bufferOf [0xB0#8] })
      (fun t => (t.raw.read 0, t.raw.read 1, t.raw.read 2, t.ubits)) = some (0x41#8, 0x42#8, 0x43#8, 5#32) := by decide +kernel

/-- V-T1: allocation order and links. -/
theorem test_trie_abc :
    after (exec .trie { State.reset with code := tableOf [(0x41#8, [false]), (0x42#8, [true, true]), (0x43#8, [true, false])] })
      (fun t => (t.statusWord, t.regRead 11, t.element .link 0, t.element .link 1, t.element .link 4, t.element .link 5,
        t.element .node 4)) = some (0xA#32, 5#32, 0x201#32, 0x202#32, 0x204#32, 0x203#32, 0x141#32) := by decide +kernel

/-- V-T6: a code that passes through a leaf. -/
theorem test_trie_codebook :
    after (exec .trie { State.reset with code := tableOf [(0x41#8, [false]), (0x42#8, [false, true])] })
      (fun t => (t.statusWord, t.regRead 3, t.regRead 4, t.regRead 5, t.regRead 11)) =
      some (0x4#32, 0x30#32, 0x42#32, 1#32, 0#32) := by decide +kernel

/-! ### The engine and the host port -/

/-- V-C5: an illegal word faults at completion. -/
theorem test_illegal_word :
    after (step (due .engine (State.reset.issue 0x110#32))) (fun t => (t.statusWord, t.regRead 3, t.regRead 4, t.regRead 5, t.cmd)) =
      some (0x4#32, 0x01#32, 0x110#32, 0#32, 0x110#32) := by decide

/-- V-C6: in FAULT COUNT is refused. -/
theorem test_fault_refuses_count :
    after (step (due (.write .reg 1#32 0x10#32) inFault)) (fun t => (t.cmd, t.statusWord, t.response)) =
      some (3#32, 0x4#32, some (.write true)) := by decide

/-- V-C7: while BUSY a read of FREQ is refused, of STATUS admitted. -/
theorem test_busy_reads :
    after (step (due (.read .freq 0#32) (State.reset.issue 0x10#32))) State.response = some (some (.read 0#32 true)) ∧
    after (step (due (.read .reg 2#32) (State.reset.issue 0x10#32))) State.response = some (some (.read 0x1#32 false)) := by decide

/-- V-H1: indices out of range. -/
theorem test_out_of_range :
    State.reset.hostRead .reg 15#32 = .read 0#32 true ∧ State.reset.hostRead .node 2044#32 = .read 0#32 true ∧
    State.reset.hostRead .link 1022#32 = .read 0#32 true ∧ State.reset.hostRead .codebits 2048#32 = .read 0#32 true ∧
    State.reset.hostRead .raw 65536#32 = .read 0#32 true ∧ State.reset.writeAdmitted .freq 256#32 1#32 = false := by decide

/-- V-H3: a byte write takes the low bits. -/
theorem test_byte_write :
    after (step (due (.write .raw 3#32 0x1234ABCD#32) State.reset)) (fun t => t.element .raw 3) = some 0xCD#32 ∧
    after (step (due (.write .codelen 5#32 0xFFFFFF07#32) State.reset)) (fun t => t.element .codelen 5) = some 0x07#32 := by decide

/-- V-H5: the writes of LOADCODE 0x42, "11". -/
theorem test_loadcode_writes :
    (loadCode 0x42#8 [true, true]).take 3 =
      [.wr .codelen 0x42#32 2#32, .wr .codebits 0x210#32 0xC0000000#32, .wr .codebits 0x211#32 0#32] := by decide +kernel

/-- V-C1: the constants. -/
theorem test_reset_registers :
    State.reset.regRead 0 = 0x48554631#32 ∧ State.reset.regRead 2 = 0#32 ∧ State.reset.regRead 13 = 0x00010000#32 ∧
    State.reset.regRead 14 = 0x00010000#32 := by decide

/-! ### Witnesses: for each statement with hypotheses, states and operands that meet them -/

/-- A word that is no command's. -/
theorem witness_DecodeReadsEveryWord : ∀ i, (0x03#32 : Word) ≠ encode i := by intro i; cases i <;> decide

theorem witness_StepCompletesTheLatchedCommand :
    ((State.reset.issue 0x10#32).engine = .busy ∧ (State.reset.issue 0x10#32).schedule = [] ∧
      decode (State.reset.issue 0x10#32).cmd = .ok .count) ∧
    ((due .engine (State.reset.issue 3#32)).engine = .busy ∧ (due .engine (State.reset.issue 3#32)).schedule.head? = some .engine ∧
      decode (due .engine (State.reset.issue 3#32)).cmd = .error (.unknownOpcode 3#8)) := by decide

theorem witness_EngineRestsUnlessBusy :
    (State.reset.engine ≠ .busy ∧ State.reset.schedule = []) ∧
    ((due .engine inFault).engine ≠ .busy ∧ (due .engine inFault).schedule.head? = some .engine) := by decide

/-- One step for each of the ways STATE can move, and one where it stays. -/
theorem witness_EngineStateTransitions :
    (∃ t, step State.reset = .next t ∧ t.engine = .idle) ∧
    (∃ t, step (due (.write .reg 1#32 0#32) State.reset) = .next t ∧ t.engine = .busy) ∧
    (∃ t, step (due (.write .reg 1#32 2#32) inFault) = .next t ∧ t.engine = .busy) ∧
    (∃ t, step (State.reset.issue 0#32) = .next t ∧ t.engine = .idle) ∧
    (∃ t, step (State.reset.issue 3#32) = .next t ∧ t.engine = .fault) ∧
    (∃ t, step (due .reset inFault) = .next t ∧ t.engine = .idle) :=
  ⟨⟨_, rfl, rfl⟩, ⟨_, rfl, rfl⟩, ⟨_, rfl, rfl⟩, ⟨_, rfl, rfl⟩, ⟨_, rfl, rfl⟩, ⟨_, rfl, rfl⟩⟩

/-- The tree of V-B4 meets R45 of 10_state.md. -/
theorem sevenTree_inv : TreeInv sevenTree := by
  unfold sevenTree
  exact buildTree_inv _

theorem sevenTree_nonempty : sevenTree.nnodes ≠ 0#9 := by decide +kernel

theorem witness_CompletionEndsBusy :
    TreeInv (withSeven.issue 0x12#32).tree ∧ (withSeven.issue 0x12#32).engine = .busy ∧ (withSeven.issue 0x12#32).schedule = [] :=
  ⟨sevenTree_inv, rfl, rfl⟩

theorem witness_EveryCommandHasANextState : (Instr.derive = .derive → TreeInv withSeven.tree) ∧ (Instr.nop = .derive → TreeInv withSeven.tree) :=
  ⟨fun _ => sevenTree_inv, fun _ => sevenTree_inv⟩

/-- Admitted: STATUS while BUSY, the last byte of PKD in IDLE. Refused: FREQ while BUSY, the byte after the last of RAW. -/
theorem witness_HostReadAnswersAndChangesNothing :
    ((2#32).toNat < (State.reset.issue 0#32).elements .reg) ∧
    ((65535#32).toNat < State.reset.elements .pkd ∧ State.reset.engine ≠ .busy) ∧
    ¬ ((0#32).toNat < (State.reset.issue 0#32).elements .freq ∧
      (Space.freq = .reg ∨ (State.reset.issue 0#32).engine ≠ .busy)) ∧
    ¬ ((65536#32).toNat < State.reset.elements .raw ∧ (Space.raw = .reg ∨ State.reset.engine ≠ .busy)) := by decide

/-- Allowed: RLEN in IDLE, the last word of CODEBITS, CLRF in FAULT. Not allowed: FREQ[256], NODE[0], RLEN in FAULT. -/
theorem witness_HostWriteAdmission :
    State.reset.writeAdmitted .reg 6#32 5#32 = true ∧ State.reset.writeAdmitted .codebits 2047#32 1#32 = true ∧
    inFault.writeAdmitted .reg 1#32 2#32 = true ∧ State.reset.writeAdmitted .freq 256#32 1#32 = false ∧
    State.reset.writeAdmitted .node 0#32 1#32 = false ∧ inFault.writeAdmitted .reg 6#32 5#32 = false := by decide

/-- A write to a byte, and another byte and another space that are read as before. -/
theorem witness_WriteReadsBackAndNothingElseChanges :
    ∃ t, (due (.write .raw 65535#32 0x1CD#32) State.reset).schedule = [.write .raw 65535#32 0x1CD#32] ∧
      State.reset.engine = .idle ∧ (65535#32).toNat < State.reset.elements .raw ∧ Space.raw ≠ .node ∧ Space.raw ≠ .link ∧
      step (due (.write .raw 65535#32 0x1CD#32) State.reset) = .next t ∧ (65534#32).toNat < State.reset.elements .raw ∧
      (65535#32).toNat < State.reset.elements .pkd :=
  ⟨_, rfl, rfl, by decide, by decide, by decide, rfl, by decide, by decide⟩

/-- A write to RLEN, the register clause. -/
theorem witness_WriteReadsBack_register :
    ∃ t, (6#32).toNat < State.reset.elements .reg ∧ step (due (.write .reg 6#32 0xFFFFFFFF#32) State.reset) = .next t ∧
      t.rlen = 0xFFFFFFFF#32 := ⟨_, by decide, rfl, rfl⟩

theorem witness_IssueByWritingCmd :
    ((due (.write .reg 1#32 3#32) State.reset).schedule = [.write .reg 1#32 3#32] ∧ State.reset.engine = .idle) ∧
    ((due (.write .reg 1#32 1#32) inFault).schedule = [.write .reg 1#32 1#32] ∧ inFault.engine = .fault) ∧
    ((due (.write .reg 1#32 0#32) inFault).schedule = [.write .reg 1#32 0#32] ∧ inFault.engine = .fault ∧ (0#32 : Word) ≠ 1#32 ∧
      (0#32 : Word) ≠ 2#32) ∧
    ((due (.write .reg 1#32 1#32) (State.reset.issue 0#32)).engine = .busy) := by decide

theorem witness_NothingChangesWhileBusy :
    (due (.write .raw 0#32 0#32) (State.reset.issue 0x10#32)).engine = .busy ∧
    (due (.read .reg 2#32) (State.reset.issue 0x10#32)).engine = .busy ∧
    Event.write .raw 0#32 0#32 ≠ .engine ∧ Event.write .raw 0#32 0#32 ≠ .reset ∧
    Event.read .reg 2#32 ≠ .engine ∧ Event.read .reg 2#32 ≠ .reset := by decide

/-- Reset while BUSY (R240 of 70_reset_and_hazards.md). -/
theorem witness_HardwareResetEffect : (due .reset (State.reset.issue 0x10#32)).schedule = [.reset] := rfl

/-- The instance with the largest admissible parameters. -/
theorem witness_ResetMeetsTheInvariant : Params.wellFormed { rawSize := 0xFFFFFFFF#32, pkdSize := 0x1FFFFFFF#32 } = true := by decide

/-- A state in FAULT, with a step. -/
theorem witness_StepKeepsProtocol : inFault.ProtocolInv ∧ ∃ t, step inFault = .next t :=
  ⟨⟨fun h => absurd h (by decide), fun _ => ⟨.illegal, rfl⟩, .inr ⟨.illegal, rfl⟩, fun _ => .inl rfl, fun h => absurd h (by decide)⟩,
    ⟨_, rfl⟩⟩

/-- A state with written bytes, about to write one more. -/
theorem witness_StepKeepsBuffers :
    (due (.write .raw 65535#32 1#32) (loaded [1#8, 2#8])).BufferInv ∧
    ∃ t, step (due (.write .raw 65535#32 1#32) (loaded [1#8, 2#8])) = .next t :=
  ⟨⟨by decide, by decide, by decide, by decide⟩, ⟨_, rfl⟩⟩

/-- A state with a tree, about to complete BUILD. -/
theorem witness_StepKeepsTreeInvariant :
    TreeInv (withSeven.issue 0x11#32).tree ∧ (withSeven.issue 0x11#32).TreeOkInv ∧ ∃ t, step (withSeven.issue 0x11#32) = .next t :=
  ⟨sevenTree_inv, fun h => absurd h (by decide), ⟨_, rfl⟩⟩

theorem witness_FaultIsSticky :
    (∃ t, inFault.engine = .fault ∧ step inFault = .next t ∧ inFault.schedule.head? ≠ some .reset) ∧
    (∃ t, step (due (.write .reg 1#32 2#32) inFault) = .next t ∧ (due (.write .reg 1#32 2#32) inFault).schedule.head? ≠ some .reset) :=
  ⟨⟨_, rfl, rfl, by decide⟩, ⟨_, rfl, by decide⟩⟩

theorem witness_LengthsOutOfRangeFault :
    ({ State.reset with rlen := 65537#32 } : State).params.rawSize.toNat < ({ State.reset with rlen := 65537#32 } : State).rlen.toNat ∧
    ({ State.reset with plen := 65537#32 } : State).rlen.toNat ≤ State.reset.params.rawSize.toNat ∧
    State.reset.params.pkdSize.toNat < ({ State.reset with plen := 65537#32 } : State).plen.toNat := by decide

theorem witness_MissingTreeFaults :
    State.reset.treeOk = false ∧ State.reset.rlen.toNat ≤ State.reset.params.rawSize.toNat ∧
    State.reset.plen.toNat ≤ State.reset.params.pkdSize.toNat := by decide

/-- Every command has a next state from reset: COUNT, BUILD, PACK, TRIE in IDLE, DERIVE and UNPACK in FAULT for want of a tree. -/
theorem witness_CommandsWriteOnlyTheirResults : ∀ i, ∃ t, exec i State.reset = .next t := by
  intro i
  cases i <;> exact ⟨_, rfl⟩

theorem witness_CommandsWriteOnly_idle : ∃ t, exec .count State.reset = .next t ∧ t.engine = .idle := ⟨_, rfl, rfl⟩

/-- RLEN at its limit, RAW_SIZE (V-N5). -/
theorem witness_CountCountsTheBytes :
    ({ State.reset with rlen := 65536#32 } : State).rlen.toNat ≤ State.reset.params.rawSize.toNat := by decide

theorem witness_BuildAllocatesTheRecords :
    (presentSymbols (freqOf [(0x41#8, 1#32), (0x42#8, 1#32), (0x43#8, 1#32)])).length = 3 := by decide +kernel

theorem witness_BuildOfNothing : ∀ x, entryAt State.reset.freq x = 0#32 := fun x => entryAt_replicate _ x

theorem witness_BuildOfOneSymbolAddsARoot : ∀ y, entryAt (freqOf [(0x07#8, 1000#32)]) y ≠ 0#32 ↔ y = 0x07#8 := by
  intro y
  by_cases h : y = 0x07#8
  · subst h
    decide
  · simp [freqOf, entryAt_putEntry, h, zeroFreq]

/-- Two leaves pending of the table of A, B, C. -/
theorem witness_RoundMergesTheTwoLeastKeys :
    (leafIndices 3).Nodup ∧ 2 ≤ (leafIndices 3).length ∧
    (addLeaves (freqOf [(0x41#8, 1#32), (0x42#8, 1#32), (0x43#8, 1#32)])).next < 511 := by decide +kernel

theorem witness_BuildMergesGreedily :
    2 ≤ (presentSymbols (freqOf [(0x41#8, 1#32), (0x42#8, 1#32), (0x43#8, 1#32)])).length ∧
    3 ≤ (4 : NodeIdx).val ∧ (4 : NodeIdx).val < abcTree.nnodes.toNat := by decide +kernel

theorem witness_BuildConservesFrequency :
    2 ≤ (presentSymbols (freqOf [(0x41#8, 1#32), (0x42#8, 1#32), (0x43#8, 1#32)])).length ∧ abcTree.nnodes ≠ 0#9 ∧
    (4 : NodeIdx).val < abcTree.nnodes.toNat ∧ (abcTree.nodeAt 4).leaf = false := by decide +kernel

/-- The path [0] of the tree of V-B4 leads to the leaf. -/
theorem sevenTree_path : sevenTree.follow sevenTree.root [false] = some 0 ∧ sevenTree.IsLeaf 0 := by
  unfold Tree.IsLeaf Tree.Used
  decide +kernel

theorem witness_DeriveWritesThePaths :
    withSeven.treeOk = true ∧ TreeInv withSeven.tree ∧ withSeven.tree.nnodes ≠ 0#9 ∧
    withSeven.tree.follow withSeven.tree.root [false] = some 0 ∧ withSeven.tree.IsLeaf 0 :=
  ⟨rfl, sevenTree_inv, sevenTree_nonempty, sevenTree_path.1, sevenTree_path.2⟩

/-- The codes DERIVE gives the tree of V-B4. -/
@[irreducible] def sevenTable : CodeTable := (deriveTable sevenTree).getD CodeTable.empty

theorem sevenTable_eq : deriveTable sevenTree = some sevenTable := by
  obtain ⟨c, hc⟩ := deriveTable_some sevenTree_inv
  unfold sevenTable
  rw [hc]
  rfl

theorem sevenTable_code : sevenTable.codeOf 0x07#8 = [false] ∧ sevenTable.lenOf 0x07#8 = 1 := by decide +kernel

theorem sevenTable_agree : Agree sevenTree sevenTable := deriveTable_agree sevenTree_inv sevenTable_eq

theorem witness_DerivedTableIsPrefixFree : ∃ t, withSeven.treeOk = true ∧ TreeInv withSeven.tree ∧ exec .derive withSeven = .next t := by
  obtain ⟨t, ht⟩ : ∃ t, execDerive withSeven = .next t := by
    rcases execDerive_cases withSeven with ⟨h, _⟩ | ⟨_, c, _, h⟩ | ⟨_, h, _⟩
    · exact absurd h (by decide)
    · exact ⟨_, h⟩
    · rw [show withSeven.tree = sevenTree from rfl, sevenTable_eq] at h
      exact absurd h (by simp)
  exact ⟨t, rfl, sevenTree_inv, ht⟩

/-- A record that is its own left child: R45 of 10_state.md rules it out. -/
def loopTree : Tree := { Tree.empty with link := Vector.replicate 511 { left := some 0, right := none }, nnodes := 1#9 }

theorem loopTree_follow (k : Nat) : loopTree.follow 0 (List.replicate k false) = some 0 := by
  induction k with
  | zero => rfl
  | succ k ih =>
    rw [List.replicate_succ, Tree.follow_cons, show loopTree.childAt 0 false = some 0 by
      simp [Tree.childAt, loopTree, LinkPair.child]]
    exact ih

theorem witness_DeriveStopsBelowLevel255 :
    loopTree.nnodes ≠ 0#9 ∧ (List.replicate 256 false).length = 256 ∧
    (∀ k, k < 256 → ∃ i, loopTree.follow loopTree.root ((List.replicate 256 false).take k) = some i ∧ (loopTree.nodeAt i).leaf = false) ∧
    ∃ i, loopTree.follow loopTree.root (List.replicate 256 false) = some i := by
  refine ⟨by decide, List.length_replicate, fun k hk => ⟨0, ?_, by simp [loopTree, Tree.nodeAt, Tree.empty, NodeRec.zero]⟩, ⟨0, loopTree_follow 256⟩⟩
  rw [List.take_replicate, Nat.min_eq_left (by omega)]
  exact loopTree_follow k

/-- A code of 255 bits, the longest an entry can have. -/
theorem witness_StoredCodeReadsBack : (List.replicate 255 true).length ≤ 255 ∧ (0x08#8 : Sym) ≠ 0x07#8 :=
  ⟨List.length_replicate.le, by decide⟩

/-- One byte 0x07 with its code. -/
def packSeven : State := { loaded [0x07#8] with treeOk := true, tree := sevenTree, code := sevenTable }

theorem packSeven_codes : ∀ k, k < packSeven.rlen.toNat → packSeven.code.lenOf (packSeven.raw.read k) ≠ 0 := by
  intro k hk
  have hr : packSeven.rlen.toNat = 1 := rfl
  have : k = 0 := by omega
  subst this
  show sevenTable.lenOf 0x07#8 ≠ 0
  rw [sevenTable_code.2]
  decide

theorem packSeven_stream : stream packSeven.code packSeven.rawInput = [false] := by
  show [0x07#8].flatMap sevenTable.codeOf = [false]
  simp [sevenTable_code.1]

theorem witness_PackWritesTheStream :
    packSeven.params.wellFormed = true ∧ packSeven.rlen.toNat ≤ packSeven.params.rawSize.toNat ∧
    (∀ k, k < packSeven.rlen.toNat → packSeven.code.lenOf (packSeven.raw.read k) ≠ 0) ∧
    ceil8 (stream packSeven.code packSeven.rawInput).length ≤ packSeven.params.pkdSize.toNat := by
  refine ⟨by decide, by decide, packSeven_codes, ?_⟩
  rw [packSeven_stream]
  decide

/-- RLEN = 0: the empty payload (R166 item a of 44_pack.md). -/
theorem witness_PackWritesTheStream_empty :
    State.reset.params.wellFormed = true ∧ State.reset.rlen.toNat ≤ State.reset.params.rawSize.toNat ∧
    ceil8 (stream State.reset.code State.reset.rawInput).length ≤ State.reset.params.pkdSize.toNat := by decide

/-- One byte, no code. -/
theorem witness_PackFaultsOnAMissingCode :
    (loaded [0x44#8]).rlen.toNat ≤ (loaded [0x44#8]).params.rawSize.toNat ∧ 0 < (loaded [0x44#8]).rlen.toNat ∧
    (loaded [0x44#8]).code.lenOf ((loaded [0x44#8]).raw.read 0) = 0 ∧
    (stream (loaded [0x44#8]).code ((loaded [0x44#8]).raw.firstBytes 0)).length / 8 ≤ (loaded [0x44#8]).params.pkdSize.toNat := by
  decide

/-- A code of 16 bits and one byte of PKD: the byte at index 1 has no room. -/
def fullPkd : State :=
  { loaded [0x41#8] with
    params := { rawSize := 65536#32, pkdSize := 1#32 }
    code := tableOf [(0x41#8, List.replicate 16 true)] }

theorem witness_PackFaultsOnOverflow_byte :
    fullPkd.params.wellFormed = true ∧ fullPkd.rlen.toNat ≤ fullPkd.params.rawSize.toNat ∧ 0 < fullPkd.rlen.toNat ∧
    (∀ k, k ≤ 0 → fullPkd.code.lenOf (fullPkd.raw.read k) ≠ 0) ∧
    (stream fullPkd.code (fullPkd.raw.firstBytes 0)).length / 8 ≤ fullPkd.params.pkdSize.toNat ∧
    fullPkd.params.pkdSize.toNat < (stream fullPkd.code (fullPkd.raw.firstBytes (0 + 1))).length / 8 ∧
    fullPkd.params.pkdSize.toNat + 1 < 2 ^ 29 := by decide +kernel

/-- The same with a code of 9 bits: the flush has no room. -/
def fullFlush : State := { fullPkd with code := tableOf [(0x41#8, List.replicate 9 true)] }

theorem witness_PackFaultsOnOverflow_flush :
    fullFlush.params.wellFormed = true ∧ fullFlush.rlen.toNat ≤ fullFlush.params.rawSize.toNat ∧
    (∀ k, k < fullFlush.rlen.toNat → fullFlush.code.lenOf (fullFlush.raw.read k) ≠ 0) ∧
    (stream fullFlush.code fullFlush.rawInput).length / 8 = fullFlush.params.pkdSize.toNat ∧
    (stream fullFlush.code fullFlush.rawInput).length % 8 ≠ 0 := by decide +kernel

/-- The table of V-B4 with junk beyond the code (V-D8). -/
def junkTable : CodeTable := (CodeTable.empty.store 0x07#8 [false]).putWord 0x07#8 0 0x7FFFFFFF#32

theorem witness_BitsBeyondTheLengthAreIgnored :
    (∀ x, junkTable.codeOf x = (CodeTable.empty.store 0x07#8 [false]).codeOf x) ∧
    (∃ t, exec .pack { loaded [0x07#8] with code := CodeTable.empty.store 0x07#8 [false] } = .next t ∧ (t.plen == 1#32) = true) ∧
    ∃ t, exec .trie { State.reset with code := CodeTable.empty.store 0x07#8 [false] } = .next t ∧ t.treeOk = true := by
  refine ⟨fun x => ?_, exists_of_gives (by decide +kernel), exists_of_gives (by decide +kernel)⟩
  by_cases h : x = 0x07#8
  · subst h
    decide +kernel
  · have hw : ∀ w, junkTable.wordOf x w = (CodeTable.empty.store 0x07#8 [false]).wordOf x w := fun w => by
      simp [junkTable, CodeTable.putWord, CodeTable.wordOf, entryAt_putEntry, h]
    have hl : junkTable.lenOf x = (CodeTable.empty.store 0x07#8 [false]).lenOf x := by
      simp only [junkTable, CodeTable.putWord, CodeTable.lenOf]
    have hb : junkTable.codebit x = (CodeTable.empty.store 0x07#8 [false]).codebit x := by
      funext j
      rw [CodeTable.codebit, CodeTable.codebit, hw]
    rw [CodeTable.codeOf, CodeTable.codeOf, hb, hl]

/-- One symbol asked of one byte of zeros (V-U2 in small). -/
def unpackSeven : State := { withSeven with rlen := 1#32, plen := 1#32, pkd := bufferOf [0x00#8] }

theorem witness_UnpackDecodesThePaths :
    unpackSeven.params.wellFormed = true ∧ unpackSeven.rlen.toNat ≤ unpackSeven.params.rawSize.toNat ∧
    unpackSeven.plen.toNat ≤ unpackSeven.params.pkdSize.toNat ∧ unpackSeven.treeOk = true ∧ TreeInv unpackSeven.tree ∧
    [([false], (0 : NodeIdx))].length = unpackSeven.rlen.toNat ∧
    (∀ w ∈ [([false], (0 : NodeIdx))], unpackSeven.tree.follow unpackSeven.tree.root w.1 = some w.2 ∧ unpackSeven.tree.IsLeaf w.2) ∧
    ([([false], (0 : NodeIdx))].flatMap Prod.fst).length ≤ 8 * unpackSeven.plen.toNat ∧
    unpackSeven.pkd.StartsWith ([([false], (0 : NodeIdx))].flatMap Prod.fst) := by
  refine ⟨by decide, by decide, by decide, rfl, sevenTree_inv, by decide, ?_, by decide, by unfold Memory.StartsWith; decide⟩
  intro w hw
  rw [List.mem_singleton.1 hw]
  exact sevenTree_path

/-- The first bit selects the absent right link of the root, and the empty tree (V-U9). -/
theorem witness_UnpackFaultsOnAMissingChild :
    (TreeInv sevenTree ∧ sevenTree.nnodes ≠ 0#9 ∧ ([] : List (Bits × NodeIdx)).length < unpackSeven.rlen.toNat ∧
      sevenTree.follow sevenTree.root [] = some 1 ∧ (sevenTree.nodeAt 1).leaf = false ∧ sevenTree.childAt 1 true = none ∧
      ([] ++ [] ++ [true] : Bits).length ≤ 8 * unpackSeven.plen.toNat ∧ (bufferOf [0x80#8]).StartsWith ([] ++ [] ++ [true])) ∧
    (TreeInv Tree.empty ∧ Tree.empty.nnodes = 0#9 ∧ 0 < unpackSeven.rlen.toNat) := by
  refine ⟨⟨sevenTree_inv, sevenTree_nonempty, by decide, by decide +kernel, by decide +kernel, by decide +kernel, by decide, ?_⟩,
    Tree.empty_inv, rfl, by decide⟩
  unfold Memory.StartsWith
  decide

/-- No payload bytes at all (V-U8 in small). -/
theorem witness_UnpackFaultsOnAShortPayload :
    TreeInv sevenTree ∧ sevenTree.nnodes ≠ 0#9 ∧ ([] : List (Bits × NodeIdx)).length < unpackSeven.rlen.toNat ∧
    sevenTree.follow sevenTree.root [] = some 1 ∧ (sevenTree.nodeAt 1).leaf = false ∧
    ([] ++ [] : Bits).length = 8 * (0#32).toNat ∧ (bufferOf []).StartsWith ([] ++ []) := by
  refine ⟨sevenTree_inv, sevenTree_nonempty, by decide, by decide +kernel, by decide +kernel, by decide, ?_⟩
  unfold Memory.StartsWith
  decide

/-- A payload whose padding bits are all ones. -/
theorem witness_UnpackReadsNoPadding :
    ∃ t, exec .unpack unpackSeven = .next t ∧ decide (t.engine = .idle ∧
      ∀ p, p < t.ubits.toNat → ((bufferOf [0x7F#8]).read (p / 8)).getLsbD (7 - p % 8) = (unpackSeven.pkd.read (p / 8)).getLsbD (7 - p % 8)) = true :=
  exists_of_gives (by decide +kernel)

/-- The records of `0` and `1` in the trie of V-T1 are made for 0x41 and 0x42. -/
theorem witness_TrieBuilds_numbering :
    let c := tableOf [(0x41#8, [false]), (0x42#8, [true, true]), (0x43#8, [true, false])]
    c.MadeFor [false] 0x41#8 ∧ c.MadeFor [true] 0x42#8 := by
  refine ⟨⟨by decide +kernel, by decide +kernel, ?_⟩, by decide +kernel, by decide +kernel, ?_⟩ <;> decide +kernel

theorem witness_TrieBuildsTheDecodeTrie : sevenTable.PrefixFree ∧ sevenTable.trieSize ≤ 511 ∧ sevenTable.lenOf 0x07#8 ≠ 0 :=
  ⟨sevenTable_agree.prefixFree sevenTree_inv, sevenTable_agree.trieSize_le sevenTree_inv, by rw [sevenTable_code.2]; decide⟩

/-- V-T6: not prefix-free. -/
theorem witness_TrieRefusesABadTable : ¬ (tableOf [(0x41#8, [false]), (0x42#8, [false, true])]).PrefixFree := by
  intro h
  exact h 0x41#8 0x42#8 (by decide) (by decide +kernel) (by decide +kernel) (by decide +kernel)

/-- The table of V-T9: prefix-free, and its trie needs a 512th record. -/
@[irreducible] def deepTable : CodeTable :=
  tableOf [(0x00#8, List.replicate 255 false), (0x01#8, true :: List.replicate 254 false), (0x02#8, false :: true :: List.replicate 253 false)]

theorem deepTable_codeOf :
    deepTable.codeOf 0x00#8 = List.replicate 255 false ∧ deepTable.codeOf 0x01#8 = true :: List.replicate 254 false ∧
    deepTable.codeOf 0x02#8 = false :: true :: List.replicate 253 false := by decide +kernel

/-- The distinct prefixes of the codes of 0 and 1 in V-T9. -/
def deepPaths : List Bits := (List.range 256).map (List.replicate · false) ++ (List.range 255).map fun n => true :: List.replicate n false

theorem deepPaths_nodup : deepPaths.Nodup := by
  refine List.Nodup.append ?_ ?_ ?_
  · exact List.Nodup.map (fun a b h => by simpa using congrArg List.length h) List.nodup_range
  · exact List.Nodup.map (fun a b h => by simpa using congrArg List.length h) List.nodup_range
  · intro p hp hq
    obtain ⟨m, _, rfl⟩ := List.mem_map.1 hp
    obtain ⟨n, _, h⟩ := List.mem_map.1 hq
    cases m <;> simp [List.replicate_succ] at h

theorem mem_deepPaths (p : Bits) : p ∈ deepPaths ↔ p <+: deepTable.codeOf 0x00#8 ∨ p <+: deepTable.codeOf 0x01#8 := by
  rw [deepTable_codeOf.1, deepTable_codeOf.2.1]
  simp only [deepPaths, List.mem_append, List.mem_map, List.mem_range]
  constructor
  · rintro (⟨n, hn, rfl⟩ | ⟨n, hn, rfl⟩)
    · exact .inl (List.prefix_replicate_iff.2 ⟨by simp; omega, by simp⟩)
    · exact .inr ((List.cons_prefix_cons).2 ⟨rfl, List.prefix_replicate_iff.2 ⟨by simp; omega, by simp⟩⟩)
  · rintro (h | h)
    · obtain ⟨h1, h2⟩ := List.prefix_replicate_iff.1 h
      exact .inl ⟨p.length, by omega, h2.symm⟩
    · cases p with
      | nil => exact .inl ⟨0, by omega, rfl⟩
      | cons b p =>
        obtain ⟨rfl, hp⟩ := List.cons_prefix_cons.1 h
        obtain ⟨h1, h2⟩ := List.prefix_replicate_iff.1 hp
        exact .inr ⟨p.length, by omega, by rw [← h2]⟩

/-- A list of prefixes of those codes, all of them in it, has 511 distinct ones. -/
theorem deep_dedup {l : List Bits} (h : ∀ p, p ∈ l ↔ p <+: deepTable.codeOf 0x00#8 ∨ p <+: deepTable.codeOf 0x01#8) :
    l.dedup.length = 511 := by
  have : l.dedup.Perm deepPaths := (List.perm_ext_iff_of_nodup l.nodup_dedup deepPaths_nodup).2 fun p => by
    rw [List.mem_dedup, h, mem_deepPaths]
  rw [this.length_eq]
  simp [deepPaths]

/-- The symbols below 2. -/
theorem below2 : (symbols.filter fun z => decide (z < 0x02#8)) = [0x00#8, 0x01#8] := by decide +kernel

theorem deepTable_entries : ∀ x : Sym, deepTable.lenOf x ≠ 0 → x = 0x00#8 ∨ x = 0x01#8 ∨ x = 0x02#8 := by decide +kernel

theorem deepTable_codes :
    ¬ deepTable.codeOf 0x00#8 <+: deepTable.codeOf 0x01#8 ∧ ¬ deepTable.codeOf 0x00#8 <+: deepTable.codeOf 0x02#8 ∧
    ¬ deepTable.codeOf 0x01#8 <+: deepTable.codeOf 0x00#8 ∧ ¬ deepTable.codeOf 0x01#8 <+: deepTable.codeOf 0x02#8 ∧
    ¬ deepTable.codeOf 0x02#8 <+: deepTable.codeOf 0x00#8 ∧ ¬ deepTable.codeOf 0x02#8 <+: deepTable.codeOf 0x01#8 := by decide +kernel

theorem deepTable_prefixFree : deepTable.PrefixFree := by
  intro a b hne ha hb
  obtain ⟨h1, h2, h3, h4, h5, h6⟩ := deepTable_codes
  rcases deepTable_entries a ha with rfl | rfl | rfl <;> rcases deepTable_entries b hb with rfl | rfl | rfl <;>
    first | exact absurd rfl hne | assumption

/-- V-T9: the lower entries and the bits before bit 1 take all records. -/
theorem witness_TrieReportsTheConflict_overflow :
    deepTable.lenOf 0x02#8 ≠ 0 ∧
    (∀ a b, a < 0x02#8 → b < 0x02#8 → a ≠ b → deepTable.lenOf a ≠ 0 → deepTable.lenOf b ≠ 0 →
      ¬ deepTable.codeOf a <+: deepTable.codeOf b) ∧
    deepTable.trieSizeOf (symbols.filter fun z => decide (z < 0x02#8)) ≤ 511 ∧ 1 < deepTable.lenOf 0x02#8 ∧
    (∀ x : Sym, x < 0x02#8 → deepTable.lenOf x ≠ 0 → ¬ deepTable.codeOf x <+: (deepTable.codeOf 0x02#8).take 1) ∧
    (∀ x : Sym, x < 0x02#8 → ¬ (deepTable.codeOf 0x02#8).take 2 <+: deepTable.codeOf x) ∧
    (((symbols.filter fun z => decide (z < 0x02#8)).flatMap fun z => (deepTable.codeOf z).inits) ++
      ((deepTable.codeOf 0x02#8).take 1).inits).dedup.length = 511 := by
  refine ⟨by decide +kernel, fun a b _ _ hne => deepTable_prefixFree a b hne, (deep_dedup fun p => by simp [below2]).le,
    by decide +kernel, by decide +kernel, by decide +kernel, deep_dedup fun p => ?_⟩
  rw [below2, deepTable_codeOf.1, deepTable_codeOf.2.2]
  simp only [List.mem_append, List.mem_flatMap, List.mem_cons, List.not_mem_nil, or_false, exists_eq_or_imp, exists_eq_left,
    List.mem_inits, deepTable_codeOf.1]
  refine ⟨fun h => ?_, .inl⟩
  rcases h with h | h
  · exact h
  · exact .inl (h.trans ⟨List.replicate 254 false, rfl⟩)

/-- V-T9: E_NODE_OVF with symbol 2 and bit 1. -/
theorem test_trie_overflow : trieOf deepTable = .error { code := .nodeOvf, info0 := 2#32, info1 := 1#32 } := by
  obtain ⟨_, hp, hs, hj, hleaf, hnew, hlen⟩ := witness_TrieReportsTheConflict_overflow
  obtain ⟨a, h1, h2⟩ := insertSyms_below deepTable 0x02#8 hp hs
  have hm : ∀ x : Sym, x ∈ (symbols.filter fun z => decide (z < 0x02#8)) → x < 0x02#8 := fun x hx => by simpa using hx
  have h := insertSym_overflow h2 hj (fun x hx => hleaf x (hm x hx)) (fun x hx => hnew x (hm x hx)) hlen
  rw [trieOf_error_at deepTable 0x02#8 a _ h1 h, nodeOvfAt, word32_eq (by decide)]
  rfl

theorem witness_TrieRefusesABadTable_size : deepTable.PrefixFree ∧ 511 < deepTable.trieSize := by
  refine ⟨deepTable_prefixFree, ?_⟩
  by_contra h
  obtain ⟨t, ht⟩ := trieOf_ok deepTable_prefixFree (Nat.le_of_not_lt h)
  rw [test_trie_overflow] at ht
  exact absurd ht (by simp)

/-- TRIE in FAULT, the premise of the last clause: V-T6. -/
theorem witness_TrieRefusesABadTable_fault :
    ∃ t, exec .trie { State.reset with code := tableOf [(0x41#8, [false]), (0x42#8, [false, true])] } = .next t ∧
      decide (t.engine = .fault) = true := exists_of_gives (by decide +kernel)

/-- Below 0x42 the tables of V-T6 and V-T7 have one entry. -/
theorem oneBelow (c : CodeTable) (h : ∀ x : Sym, x < 0x42#8 → c.lenOf x ≠ 0 → x = 0x41#8) :
    ∀ a b, a < 0x42#8 → b < 0x42#8 → a ≠ b → c.lenOf a ≠ 0 → c.lenOf b ≠ 0 → ¬ c.codeOf a <+: c.codeOf b := by
  intro a b ha hb hne hla hlb
  exact absurd ((h a ha hla).trans (h b hb hlb).symm) hne

/-- V-T6: case (a), a code through a leaf. -/
theorem witness_TrieReportsTheConflict_leaf :
    let c := tableOf [(0x41#8, [false]), (0x42#8, [false, true])]
    (0x41#8 : Sym) < 0x42#8 ∧ c.lenOf 0x41#8 ≠ 0 ∧ c.lenOf 0x42#8 ≠ 0 ∧ (∀ x : Sym, x < 0x42#8 → c.lenOf x ≠ 0 → x = 0x41#8) ∧
    c.trieSizeOf (symbols.filter fun z => decide (z < 0x42#8)) ≤ 511 ∧ c.codeOf 0x41#8 <+: c.codeOf 0x42#8 ∧
    c.codeOf 0x41#8 ≠ c.codeOf 0x42#8 := by decide +kernel

/-- V-T7 and V-T8: case (b), the link of the last bit is there. -/
theorem witness_TrieReportsTheConflict_link :
    let c := tableOf [(0x41#8, [false, true]), (0x42#8, [false])]
    (0x41#8 : Sym) < 0x42#8 ∧ c.lenOf 0x41#8 ≠ 0 ∧ c.lenOf 0x42#8 ≠ 0 ∧ (∀ x : Sym, x < 0x42#8 → c.lenOf x ≠ 0 → x = 0x41#8) ∧
    c.trieSizeOf (symbols.filter fun z => decide (z < 0x42#8)) ≤ 511 ∧ c.codeOf 0x42#8 <+: c.codeOf 0x41#8 := by decide +kernel

theorem witness_DeriveInvertsTrie :
    ∃ t, exec .trie { State.reset with code := CodeTable.empty.store 0x07#8 [false] } = .next t ∧
      decide (t.engine = .idle) = true := exists_of_gives (by decide +kernel)

theorem witness_UnpackInvertsPack :
    ∃ t, packSeven.params.wellFormed = true ∧ packSeven.treeOk = true ∧ TreeInv packSeven.tree ∧ Agree packSeven.tree packSeven.code ∧
      exec .pack packSeven = .next t ∧ t.engine = .idle := by
  obtain ⟨h, hp, _⟩ := packAll_ok packSeven.code packSeven.params.pkdSize.toNat packSeven.rawInput packSeven.pkd (by
    intro x hx
    have : x = 0x07#8 := by
      have e : packSeven.rawInput = [0x07#8] := rfl
      rw [e] at hx
      simpa using hx
    subst this
    show sevenTable.lenOf 0x07#8 ≠ 0
    rw [sevenTable_code.2]
    decide) (by rw [packSeven_stream]; decide)
  rcases execPack_cases packSeven with ⟨hr, _⟩ | ⟨_, r, e, _⟩ | ⟨_, x, _, e⟩
  · exact absurd hr (by decide)
  · rw [hp] at e
    exact absurd e (by simp)
  · exact ⟨_, by decide, rfl, sevenTree_inv, sevenTable_agree, e, rfl⟩

/-- One byte, and its packed form fits. -/
theorem witness_DecompressInvertsCompress :
    (loaded [0x07#8]).params.wellFormed = true ∧ (loaded [0x07#8]).rlen.toNat ≤ (loaded [0x07#8]).params.rawSize.toNat ∧
    ceil8 (stream packSeven.code packSeven.rawInput).length ≤ (loaded [0x07#8]).params.pkdSize.toNat := by
  refine ⟨by decide, by decide, ?_⟩
  rw [packSeven_stream]
  decide

/-- The commands one after the other. -/
def execAll : List Instr → State → Option State
  | [], s => some s
  | i :: rest, s =>
    match exec i s with
    | .next t => execAll rest t
    | .fault _ => none
    | .refused _ => none

/-- COMPRESS of one byte, and another instance, of one byte each, with the codes, the payload, PLEN and RLEN. -/
theorem witness_DecompressInvertsCompress_instance :
    ∃ s4 u : State, execAll [.count, .build, .derive, .pack] (loaded [0x07#8]) = some s4 ∧ s4.engine = .idle ∧
      u.params ≠ s4.params ∧ u.params.wellFormed = true ∧ (∀ x, u.code.codeOf x = s4.code.codeOf x) ∧
      (∀ k, k < s4.plen.toNat → u.pkd.read k = s4.pkd.read k) ∧ u.plen = s4.plen ∧ u.rlen = s4.rlen ∧
      u.rlen.toNat ≤ u.params.rawSize.toNat ∧ u.plen.toNat ≤ u.params.pkdSize.toNat := by
  have h : (execAll [.count, .build, .derive, .pack] (loaded [0x07#8])).any (fun t =>
      decide (t.engine = .idle ∧ t.plen = 1#32 ∧ t.rlen = 1#32 ∧ ({ rawSize := 1#32, pkdSize := 1#32 } : Params) ≠ t.params)) = true := by
    decide +kernel
  obtain ⟨s4, h1, h2⟩ := (Option.any_eq_true _ _).1 h
  obtain ⟨e1, e2, e3, e4⟩ := of_decide_eq_true h2
  refine ⟨s4, { s4 with params := { rawSize := 1#32, pkdSize := 1#32 }, treeOk := false, tree := Tree.empty, raw := bufferOf [] },
    h1, e1, e4, (by decide : Params.wellFormed { rawSize := 1#32, pkdSize := 1#32 } = true), fun _ => rfl, fun _ _ => rfl, rfl, rfl, ?_, ?_⟩
  · simp [e3]
  · simp [e2]

theorem witness_RunEndsWithTheEngineAtRest : withSeven.engine = .idle ∧ TreeInv withSeven.tree := ⟨rfl, sevenTree_inv⟩

/-- What of the end of a run can be compared, if it ended. -/
def endOf (ds : List Directive) (turns : List Bool) : Option (Word × List Word × List Bool × Bool) :=
  match runScript ds (ScriptRun.start State.reset turns) with
  | .ended r => some (r.state.statusWord, r.reads, r.faults, (ScriptEnd.ended r).endedWell)
  | .refused _ => none
  | .mismatch _ => none
  | .stopped => none

/-- A script that ends in CMD, the engine not yet at its turn: the completion owed is taken. -/
theorem witness_EndedRunIsAtRest : endOf [cmd .nop] [false] = some (0x2#32, [], [], true) := by decide

/-- Without a fault expectation: an illegal word has not ended well, NOP has. -/
theorem witness_EndedWellMeansNoFault :
    [cmdw 3#32, .wait].all (fun d => !d.expectsFault) = true ∧ endOf [cmdw 3#32, .wait] [] = some (0x4#32, [0x4#32], [false], false) ∧
    endOf [cmd .nop, .wait] [] = some (0x2#32, [0x2#32], [], true) := by decide

/-- An illegal word, with ERR expected to be 1. -/
theorem test_expected_fault :
    endOf [cmdw 3#32, .wait, expectEq .reg errIx 1#32] [] = some (0x4#32, [1#32, 0x4#32], [true], true) := by decide

/-- A read after CMD is answered or refused as the engine had its turn before it or not (R12, R69 of 20_memory.md). -/
theorem test_read_after_issue :
    endOf [cmd .nop, .rd .freq 0#32] [false, true] = some (0x2#32, [0#32], [], true) ∧
    endOf [cmd .nop, .rd .freq 0#32] [false, false] = none := by decide

/-- The shortest and the longest code. -/
theorem witness_LoadCodeLoadsTheCode :
    State.reset.engine = .idle ∧ codeWellFormed [true] = true ∧ codeWellFormed (List.replicate 255 true) = true := by decide +kernel

end Sys2Proof.Tests
end

section
/-! SUPPORT. The engine's turn outside BUSY (R12 of 00_scope.md, R32 of 10_state.md). -/

namespace Sys2Proof.Machine

/-- With the engine not BUSY its turn enables nothing. -/
theorem engineTurn_of_not_busy {s : State} (hb : s.engine ≠ .busy) : engineTurn exec s = .next s := by
  obtain ⟨-, hnext⟩ | ⟨hbusy, -⟩ | ⟨hbusy, -⟩ := engineTurn_cases s
  · exact hnext
  · exact absurd hbusy hb
  · exact absurd hbusy hb

/-- Settles O4: the step is the engine's turn on the state off the schedule, and taking an event off the schedule leaves STATE as it is. -/
theorem engineRestsUnlessBusy : Obligations.EngineRestsUnlessBusy := by
  intro s hb hturn
  have hpopped : s.popped.engine ≠ .busy := hb
  calc step s = engineTurn exec s.popped := step_engine hturn
    _ = .next s.popped := engineTurn_of_not_busy hpopped

end Sys2Proof.Machine
end

section
/-! SUPPORT. What a command leaves when it completes and what a step leads to, each said once as an inductive relation; the frame of a
host write. -/

namespace Sys2Proof.Machine

/-- The states in which a command can leave the machine (R32 of 10_state.md; R217, R218 of 60_exceptions.md). -/
inductive Completes (s : State) : Instr → State → Prop
  | nop : Completes s .nop s.finish
  | srst : Completes s .srst s.softReset
  | clrf : Completes s .clrf s.clearFault
  /-- A pre-check failed: nothing but the flags and the fault record changes. -/
  | precheck (i : Instr) (r : Raised) : Completes s i (s.takeFault r)
  | counted : Completes s .count (s.withFreq (countBytes s.rawInput)).finish
  | built : Completes s .build (s.withTree (buildTree s.freq)).finish
  | derived (c : CodeTable) (hc : deriveTable s.tree = some c) : Completes s .derive (s.withCode c).finish
  | packFault (r : Raised) : Completes s .pack (s.dropPacked.takeFault r)
  | packed (h : Shifter) (hp : packAll s.code s.params.pkdSize.toNat s.rawInput s.pkd = .ok h) :
      Completes s .pack (s.withPacked h.pkd (word32 h.k) (word32 h.total)).finish
  | unpackFault (r : Raised) : Completes s .unpack (s.dropUnpacked.takeFault r)
  | unpacked (d : Decoder) (hr : s.rlen.toNat ≤ s.params.rawSize.toNat)
      (hu : unpackAll s.tree s.pkd s.plen.toNat s.rlen.toNat s.raw = .ok d) :
      Completes s .unpack (s.withUnpacked d.raw (word32 d.bitpos)).finish
  | trieFault (r : Raised) : Completes s .trie (s.dropTree.takeFault r)
  | trieBuilt (t : Tree) (ht : trieOf s.code = .ok t) : Completes s .trie (s.withTree t).finish

/-- Every next state of a command is one of these. -/
theorem exec_completes {i : Instr} {s t : State} (h : exec i s = .next t) : Completes s i t := by
  cases i with
  | nop => cases h; exact .nop
  | srst => cases h; exact .srst
  | clrf => cases h; exact .clrf
  | build => cases h; exact .built
  | count =>
    obtain ⟨-, e⟩ | ⟨-, e⟩ := execCount_cases s <;> cases e.symm.trans h
    · exact .precheck _ _
    · exact .counted
  | derive =>
    obtain ⟨-, e⟩ | ⟨-, c, hc, e⟩ | ⟨-, -, e⟩ := execDerive_cases s <;> cases e.symm.trans h
    · exact .precheck _ _
    · exact .derived c hc
  | pack =>
    obtain ⟨-, e⟩ | ⟨-, r, -, e⟩ | ⟨-, x, hp, e⟩ := execPack_cases s <;> cases e.symm.trans h
    · exact .precheck _ _
    · exact .packFault r
    · exact .packed x hp
  | unpack =>
    obtain ⟨r, -, e⟩ | ⟨-, r, -, e⟩ | ⟨hc, d, hu, e⟩ := execUnpack_cases s <;> cases e.symm.trans h
    · exact .precheck _ _
    · exact .unpackFault r
    · exact .unpacked d ((unpackPrecheck_none_iff s).1 hc).1 hu
  | trie =>
    obtain ⟨r, -, e⟩ | ⟨u, hu, e⟩ := execTrie_cases s <;> cases e.symm.trans h
    · exact .trieFault r
    · exact .trieBuilt u hu

/-- Every command has a next state, DERIVE on the trees of R45 of 10_state.md (R227, R229 of 60_exceptions.md). -/
theorem exec_has_next (i : Instr) (s : State) (hi : i = .derive → TreeInv s.tree) : ∃ t, exec i s = .next t := by
  cases i with
  | nop => exact ⟨_, rfl⟩
  | srst => exact ⟨_, rfl⟩
  | clrf => exact ⟨_, rfl⟩
  | build => exact ⟨_, rfl⟩
  | count => obtain ⟨-, e⟩ | ⟨-, e⟩ := execCount_cases s <;> exact ⟨_, e⟩
  | derive =>
    obtain ⟨-, e⟩ | ⟨-, c, -, e⟩ | ⟨-, hnone, -⟩ := execDerive_cases s
    · exact ⟨_, e⟩
    · exact ⟨_, e⟩
    · obtain ⟨c, hc⟩ := deriveTable_some (hi rfl)
      exact absurd (hnone.symm.trans hc) (by simp)
  | pack => obtain ⟨-, e⟩ | ⟨-, _, -, e⟩ | ⟨-, _, -, e⟩ := execPack_cases s <;> exact ⟨_, e⟩
  | unpack => obtain ⟨_, -, e⟩ | ⟨-, _, -, e⟩ | ⟨-, _, -, e⟩ := execUnpack_cases s <;> exact ⟨_, e⟩
  | trie => obtain ⟨_, -, e⟩ | ⟨_, -, e⟩ := execTrie_cases s <;> exact ⟨_, e⟩

/-- Completion leaves IDLE with DONE = 1 or FAULT with DONE = 0, and CMD as it was. -/
theorem Completes.flags {i : Instr} {s t : State} (h : Completes s i t) :
    ((t.engine = .idle ∧ t.done = true) ∨ (t.engine = .fault ∧ t.done = false)) ∧ t.cmd = s.cmd := by
  cases h with
  | precheck | packFault | unpackFault | trieFault => exact ⟨.inr ⟨rfl, rfl⟩, rfl⟩
  | nop | srst | clrf | counted | built | derived | packed | unpacked | trieBuilt => exact ⟨.inl ⟨rfl, rfl⟩, rfl⟩

/-! ### Host writes -/

/-- A host write leaves the fault record, the tree with its flag, and the sizes. -/
theorem storeElement_frame (s : State) (sp : Space) (i : Nat) (d : Word) :
    (s.storeElement sp i d).err = s.err ∧ (s.storeElement sp i d).tree = s.tree ∧
      (s.storeElement sp i d).treeOk = s.treeOk ∧ (s.storeElement sp i d).params = s.params := by
  cases sp with
  | reg => simp only [State.storeElement]; split_ifs <;> exact ⟨rfl, rfl, rfl, rfl⟩
  | freq | node | link | codelen | codebits | raw | pkd => exact ⟨rfl, rfl, rfl, rfl⟩

/-- A write to another element than CMD leaves STATE and DONE. -/
theorem storeElement_flags {sp : Space} {i : Nat} (h : ¬ (sp = .reg ∧ i = 1)) (s : State) (d : Word) :
    (s.storeElement sp i d).engine = s.engine ∧ (s.storeElement sp i d).done = s.done := by
  cases sp with
  | reg =>
    have hi : i ≠ 1 := fun e => h ⟨rfl, e⟩
    simp only [State.storeElement, if_neg hi]
    split_ifs <;> exact ⟨rfl, rfl⟩
  | freq | node | link | codelen | codebits | raw | pkd => exact ⟨rfl, rfl⟩

/-- A write below the size of its buffer keeps the buffers' form and bounds. -/
theorem State.BufferInv.storeElement {s : State} (h : s.BufferInv) {sp : Space} {i : Nat} (hi : i < s.elements sp) (d : Word) :
    (s.storeElement sp i d).BufferInv := by
  obtain ⟨h1, h2, h3, h4⟩ := h
  cases sp with
  | reg => simp only [State.storeElement]; split_ifs <;> exact ⟨h1, h2, h3, h4⟩
  | raw => exact ⟨Memory.wf_write _ _ h1, h2, Memory.within_write _ h3 hi, h4⟩
  | pkd => exact ⟨h1, Memory.wf_write _ _ h2, h3, Memory.within_write _ h4 hi⟩
  | freq | node | link | codelen | codebits => exact ⟨h1, h2, h3, h4⟩

/-! ### The step -/

/-- The state after a transaction of the host: `t` with its answer. -/
def State.answered (r : Response) (t : State) : State := { t with response := some r }

/-- The states a step leads to, by the event that came next (R12 of 00_scope.md; R30 to R32 of 10_state.md). -/
inductive StepsTo (s : State) : State → Prop
  /-- The engine's turn outside BUSY. -/
  | rests (hb : s.engine ≠ .busy) : StepsTo s s.popped
  | completes {i : Instr} {t : State} (turn : s.schedule = [] ∨ s.schedule.head? = some .engine) (busy : s.engine = .busy)
      (hd : decode s.cmd = .ok i) (hc : Completes s.popped i t) : StepsTo s t
  | illegal (turn : s.schedule = [] ∨ s.schedule.head? = some .engine) (busy : s.engine = .busy) :
      StepsTo s (s.popped.takeFault (illegalWord s.cmd))
  /-- A read, or a write refused. -/
  | answers (r : Response) : StepsTo s (s.popped.answered r)
  | issues (r : Response) (w : Word) (head : s.schedule.head? = some (.write .reg 1#32 w)) (hb : s.engine ≠ .busy)
      (hf : s.engine = .fault → w = 1#32 ∨ w = 2#32) : StepsTo s ((s.popped.issue w).answered r)
  | stores (r : Response) (sp : Space) (i : Nat) (d : Word) (idle : s.engine = .idle) (hi : i < s.elements sp)
      (hcmd : ¬ (sp = .reg ∧ i = 1)) : StepsTo s ((s.popped.storeElement sp i d).answered r)
  | resets (head : s.schedule.head? = some .reset) : StepsTo s s.popped.hardReset

/-- An admitted write issues a command or, in IDLE, stores an element. -/
theorem stepsTo_of_admitted {s : State} {sp : Space} {ix d : Word} (r : Response)
    (head : s.schedule.head? = some (.write sp ix d)) (ha : s.writeAdmitted sp ix d = true) :
    StepsTo s ((s.popped.storeElement sp ix.toNat d).answered r) := by
  obtain ⟨hrange, -, -, -, hb, hf⟩ := (writeAdmitted_iff s sp ix d).1 ha
  by_cases hcmd : sp = .reg ∧ ix.toNat = 1
  · obtain ⟨rfl, h1⟩ := hcmd
    obtain rfl : ix = 1#32 := BitVec.eq_of_toNat_eq h1
    exact .issues r d head hb fun h => (hf h).2.2
  · have idle : s.engine = .idle := by
      cases he : s.engine with
      | idle => rfl
      | busy => exact absurd he hb
      | fault =>
        obtain ⟨hsp, rfl, -⟩ := hf he
        exact absurd ⟨hsp, rfl⟩ hcmd
    exact .stores r sp ix.toNat d idle hrange hcmd

/-- Every next state of a step is one of these. -/
theorem step_stepsTo {s t : State} (h : step s = .next t) : StepsTo s t := by
  obtain ⟨turn, e⟩ | ⟨sp, ix, rest, hs, e⟩ | ⟨sp, ix, d, rest, hs, e⟩ | ⟨rest, hs, e⟩ := step_cases s
  · obtain ⟨hb, e'⟩ | ⟨busy, i, -, hd, e'⟩ | ⟨busy, -, e'⟩ := engineTurn_cases s.popped
    · cases (e.trans e').symm.trans h
      exact .rests hb
    · exact .completes turn busy hd (exec_completes (e'.symm.trans (e.symm.trans h)))
    · cases (e.trans e').symm.trans h
      exact .illegal turn busy
  · obtain rfl : rest = s.schedule.tail := by simp [hs]
    cases e.symm.trans h
    exact .answers _
  · cases e.symm.trans h
    cases ha : s.writeAdmitted sp ix d with
    | false =>
      rw [hostWrite_refused (s := s.popped) ha]
      exact .answers _
    | true =>
      rw [hostWrite_admitted (s := s.popped) ha]
      exact stepsTo_of_admitted _ (by simp [hs]) ha
  · cases e.symm.trans h
    exact .resets (by simp [hs])

end Sys2Proof.Machine
end

section
/-! SUPPORT. The flags and the fault record stay coherent (R24 to R26 of 10_state.md). -/

namespace Sys2Proof.Machine

/-- The invariant speaks of STATE, DONE, ERR with its details, and CMD alone. -/
theorem State.ProtocolInv.congr {s t : State} (h : s.ProtocolInv) (he : t.engine = s.engine) (hd : t.done = s.done)
    (hr : t.err = s.err) (hc : t.cmd = s.cmd) : t.ProtocolInv := by
  obtain ⟨h1, h2, h3, h4, h5⟩ := h
  constructor <;> simpa only [State.clearing, he, hd, hr, hc]

/-- Outside FAULT, with no fault on record and DONE only in IDLE. -/
theorem State.ProtocolInv.of_no_record {s : State} (hr : s.err = FaultRecord.none) (hf : s.engine ≠ .fault)
    (hd : s.done = true → s.engine = .idle) : s.ProtocolInv := by
  constructor
  case done_idle => exact hd
  case fault_code => exact fun h => absurd h hf
  case code_zero_or_fault => exact .inl (by rw [hr]; rfl)
  case no_fault_code => exact fun h => absurd (by rw [hr]; rfl) h
  case info_zero => exact fun _ => by rw [hr]; exact ⟨rfl, rfl⟩

theorem FaultCode.number_ne_zero (c : FaultCode) : c.number ≠ 0#8 := by cases c <;> decide

/-- Taking a fault puts one of the nine codes on record (R215 of 60_exceptions.md). -/
theorem State.protocolInv_takeFault (r : Raised) (s : State) : (s.takeFault r).ProtocolInv := by
  have hcode : IsFaultNumber (s.takeFault r).err.code := ⟨r.code, rfl⟩
  constructor
  case done_idle => simp
  case fault_code => exact fun _ => hcode
  case code_zero_or_fault => exact .inr hcode
  case no_fault_code => exact fun _ => .inl rfl
  case info_zero => exact fun h => absurd h r.code.number_ne_zero

theorem State.ProtocolInv.err_eq_none {s : State} (h : s.ProtocolInv) (hz : s.err.code = 0#8) : s.err = FaultRecord.none := by
  obtain ⟨h0, h1⟩ := h.info_zero hz
  cases he : s.err
  simp_all [FaultRecord.none]

theorem State.ProtocolInv.no_record_of_idle {s : State} (h : s.ProtocolInv) (idle : s.engine = .idle) :
    s.err = FaultRecord.none := by
  refine h.err_eq_none (by_contra fun hne => ?_)
  obtain hf | ⟨hb, -⟩ := h.no_fault_code hne
  · simp [idle] at hf
  · simp [idle] at hb

/-- While a command other than SRST and CLRF is in progress no fault is on record: after a fault only those two are accepted. -/
theorem State.ProtocolInv.no_record_of_busy {s : State} (h : s.ProtocolInv) (busy : s.engine = .busy) {i : Instr}
    (hd : decode s.cmd = .ok i) (h1 : i ≠ .srst) (h2 : i ≠ .clrf) : s.err = FaultRecord.none := by
  refine h.err_eq_none (by_contra fun hne => ?_)
  obtain hf | ⟨-, hc | hc⟩ := h.no_fault_code hne
  · simp [busy] at hf
  · rw [hc] at hd
    exact h1 (Except.ok.inj hd).symm
  · rw [hc] at hd
    exact h2 (Except.ok.inj hd).symm

/-- Completion of the decoded command keeps the invariant. -/
theorem State.ProtocolInv.completes {s t : State} (h : s.ProtocolInv) (busy : s.engine = .busy) {i : Instr}
    (hd : decode s.cmd = .ok i) (hc : Completes s i t) : t.ProtocolInv := by
  cases hc with
  | precheck | packFault | unpackFault | trieFault => exact State.protocolInv_takeFault _ _
  | srst | clrf => exact .of_no_record rfl (by simp) fun _ => by simp
  | nop | counted | built | derived | packed | unpacked | trieBuilt =>
    have hr := h.no_record_of_busy busy hd (by decide) (by decide)
    exact .of_no_record (by simpa using hr) (by simp) fun _ => by simp

/-- Issue keeps the invariant: in FAULT the word accepted is that of SRST or CLRF (R31 of 10_state.md). -/
theorem State.ProtocolInv.issue {s : State} (h : s.ProtocolInv) {w : Word} (hb : s.engine ≠ .busy)
    (hf : s.engine = .fault → w = 1#32 ∨ w = 2#32) : (s.issue w).ProtocolInv := by
  cases he : s.engine with
  | busy => exact absurd he hb
  | idle => exact .of_no_record (h.no_record_of_idle he) (by simp) (by simp)
  | fault =>
    constructor
    case done_idle => simp
    case fault_code => simp
    case code_zero_or_fault => exact h.code_zero_or_fault
    case no_fault_code => exact fun _ => .inr ⟨rfl, hf he⟩
    case info_zero => exact h.info_zero

/-- Settles O20: each event of a step keeps the flags and the fault record coherent. -/
theorem stepKeepsProtocol : Obligations.StepKeepsProtocol := by
  intro s t h hstep
  have hpopped : s.popped.ProtocolInv := h.congr rfl rfl rfl rfl
  cases step_stepsTo hstep with
  | rests => exact hpopped
  | completes _ busy hd hc => exact hpopped.completes busy hd hc
  | illegal => exact State.protocolInv_takeFault _ _
  | answers r => exact hpopped.congr rfl rfl rfl rfl
  | issues r w _ hb hf => exact (hpopped.issue hb hf).congr rfl rfl rfl rfl
  | stores r sp i d idle _ hcmd =>
    obtain ⟨he, -⟩ := storeElement_flags hcmd s.popped d
    have hidle : ((s.popped.storeElement sp i d).answered r).engine = .idle := he.trans idle
    obtain ⟨herr, -⟩ := storeElement_frame s.popped sp i d
    exact .of_no_record (herr.trans (h.no_record_of_idle idle)) (by simp [hidle]) fun _ => hidle
  | resets => exact .of_no_record rfl (by simp) (by simp)

end Sys2Proof.Machine
end

section
/-! SUPPORT. The buffers stay inside their sizes and in canonical form (R50, R51 of 10_state.md). -/

namespace Sys2Proof.Machine

/-- The invariant buffer by buffer. -/
theorem State.bufferInv_iff (s : State) :
    s.BufferInv ↔ (s.raw.wf = true ∧ s.raw.within s.params.rawSize.toNat = true) ∧
      (s.pkd.wf = true ∧ s.pkd.within s.params.pkdSize.toNat = true) :=
  ⟨fun ⟨h1, h2, h3, h4⟩ => ⟨⟨h1, h3⟩, h2, h4⟩, fun ⟨⟨h1, h3⟩, h2, h4⟩ => ⟨h1, h2, h3, h4⟩⟩

/-- It speaks of the two buffers and their sizes alone. -/
theorem State.BufferInv.congr {s t : State} (h : s.BufferInv) (hr : t.raw = s.raw) (hk : t.pkd = s.pkd)
    (hp : t.params = s.params) : t.BufferInv := by
  rw [State.bufferInv_iff] at h ⊢
  rwa [hr, hk, hp]

theorem Completes.params {i : Instr} {s t : State} (h : Completes s i t) : t.params = s.params := by
  cases h <;> rfl

/-- Completion of a command keeps the invariant: PACK writes below PKD_SIZE, UNPACK below RLEN, which is in range. -/
theorem State.BufferInv.completes {s t : State} (h : s.BufferInv) {i : Instr} (hc : Completes s i t) : t.BufferInv := by
  obtain ⟨hraw, hpkd⟩ := s.bufferInv_iff.1 h
  cases hc with
  | packed x hp => exact (State.bufferInv_iff _).2 ⟨hraw, packAll_wf hp hpkd⟩
  | packFault r => exact (State.bufferInv_iff _).2 ⟨hraw, Memory.wf_ofDraw _, Memory.within_ofDraw _ _⟩
  | unpacked d hr hu => exact (State.bufferInv_iff _).2 ⟨(unpackAll_raw hu).2 _ hr hraw, hpkd⟩
  | unpackFault r =>
    exact (State.bufferInv_iff _).2 ⟨⟨Memory.wf_redrawBelow _ _ hraw.1, Memory.within_redrawBelow _ _ hraw.2⟩, hpkd⟩
  | nop | srst | clrf | precheck | counted | built | derived | trieFault | trieBuilt => exact h.congr rfl rfl rfl

theorem State.bufferInv_resetWith (p : Params) (k : Nat) : (State.resetWith p k).BufferInv := ⟨rfl, rfl, rfl, rfl⟩

/-- Settles O21: each event of a step keeps the buffers, and none touches the sizes. -/
theorem stepKeepsBuffers : Obligations.StepKeepsBuffers := by
  intro s t h hstep
  have hpopped : s.popped.BufferInv := h.congr rfl rfl rfl
  cases step_stepsTo hstep with
  | rests => exact ⟨hpopped, rfl⟩
  | completes _ _ _ hc => exact ⟨hpopped.completes hc, hc.params⟩
  | illegal => exact ⟨hpopped.congr rfl rfl rfl, rfl⟩
  | answers r => exact ⟨hpopped.congr rfl rfl rfl, rfl⟩
  | issues r w => exact ⟨hpopped.congr rfl rfl rfl, rfl⟩
  | stores r sp i d _ hi _ =>
    have hstore : (s.popped.storeElement sp i d).BufferInv := hpopped.storeElement hi d
    obtain ⟨-, -, -, hparams⟩ := storeElement_frame s.popped sp i d
    exact ⟨hstore.congr rfl rfl rfl, hparams⟩
  | resets => exact ⟨(State.bufferInv_resetWith s.params s.draws).congr rfl rfl rfl, rfl⟩

end Sys2Proof.Machine
end

section
/-! SUPPORT. The tree invariant (R45 of 10_state.md). -/

namespace Sys2Proof.Machine

/-- Completion of a command keeps the tree, clears it with TREE_OK = 0, or makes a new one with TREE_OK = 1, which meets R45. -/
theorem Completes.tree_cases {i : Instr} {s t : State} (h : Completes s i t) :
    (t.tree = s.tree ∧ t.treeOk = s.treeOk) ∨ t.tree = Tree.empty ∨ (TreeInv t.tree ∧ t.treeOk = true) := by
  cases h with
  | srst | trieFault => exact .inr (.inl rfl)
  | built => exact .inr (.inr ⟨buildTree_inv _, rfl⟩)
  | trieBuilt u hu => exact .inr (.inr ⟨(trieOf_ok_inv hu).1, rfl⟩)
  | nop | clrf | precheck | counted | derived | packFault | packed | unpackFault | unpacked => exact .inl ⟨rfl, rfl⟩

/-- So does every step. -/
theorem StepsTo.tree_cases {s t : State} (h : StepsTo s t) :
    (t.tree = s.tree ∧ t.treeOk = s.treeOk) ∨ t.tree = Tree.empty ∨ (TreeInv t.tree ∧ t.treeOk = true) := by
  cases h with
  | completes _ _ _ hc => exact hc.tree_cases
  | stores r sp i d =>
    obtain ⟨-, htree, hok, -⟩ := storeElement_frame s.popped sp i d
    exact .inl ⟨htree, hok⟩
  | resets => exact .inr (.inl rfl)
  | rests | illegal | answers | issues => exact .inl ⟨rfl, rfl⟩

/-- Settles O22: a step keeps the tree, clears it, or makes one that BUILD's and TRIE's own laws show to meet R45. -/
theorem stepKeepsTreeInvariant : Obligations.StepKeepsTreeInvariant := by
  intro s t htree hok hstep
  obtain ⟨hkept, hflag⟩ | hclear | ⟨hnew, hflag⟩ := (step_stepsTo hstep).tree_cases
  · exact ⟨hkept ▸ htree, fun hz => hkept.trans (hok (hflag ▸ hz))⟩
  · exact ⟨hclear ▸ Tree.empty_inv, fun _ => hclear⟩
  · exact ⟨hnew, fun hz => absurd (hflag.symm.trans hz) (by simp)⟩

end Sys2Proof.Machine
end

section
/-! SUPPORT. The engine: its state's transitions, the end of BUSY, issue, the command it completes (R30 to R33 of 10_state.md). -/

namespace Sys2Proof.Machine

/-- Settles O6: of the events of a step only issue, completion and hardware reset change STATE. -/
theorem engineStateTransitions : Obligations.EngineStateTransitions := by
  intro s t hstep
  cases step_stepsTo hstep with
  | rests | answers => exact .inl rfl
  | completes turn busy _ hc =>
    obtain ⟨⟨he, -⟩ | ⟨he, -⟩, -⟩ := hc.flags <;> exact .inr (.inr (.inl ⟨turn, busy, by simp [he]⟩))
  | illegal turn busy => exact .inr (.inr (.inl ⟨turn, busy, by simp⟩))
  | issues r w head hb => exact .inr (.inl ⟨⟨w, head⟩, hb, rfl⟩)
  | stores r sp i d _ _ hcmd => exact .inl (storeElement_flags hcmd s.popped d).1
  | resets head => exact .inr (.inr (.inr ⟨head, rfl⟩))

/-- Settles O3: the engine's turn on the state off the schedule, by the decoding of CMD. -/
theorem stepCompletesTheLatchedCommand : Obligations.StepCompletesTheLatchedCommand := by
  intro s busy turn
  have hturn : step s = engineTurn exec s.popped := step_engine turn
  have hbusy : s.popped.engine = .busy := busy
  have hcmd : s.popped.cmd = s.cmd := rfl
  constructor
  · intro i hd
    calc step s = engineTurn exec s.popped := hturn
      _ = exec i s.popped := by simp [engineTurn, hbusy, hcmd, hd]
  · intro e hd
    calc step s = engineTurn exec s.popped := hturn
      _ = .next (s.popped.takeFault (illegalWord s.cmd)) := by simp [engineTurn, hbusy, hcmd, hd]

/-- Settles O7: the decoded command has a next state, since the tree is one DERIVE can walk, and an illegal word is a fault. -/
theorem completionEndsBusy : Obligations.CompletionEndsBusy := by
  intro s htree busy turn
  obtain ⟨hlegal, hillegal⟩ := stepCompletesTheLatchedCommand s busy turn
  cases hd : decode s.cmd with
  | ok i =>
    obtain ⟨t, ht⟩ := exec_has_next i s.popped fun _ => htree
    obtain ⟨hflags, hcmd⟩ := (exec_completes ht).flags
    exact ⟨t, (hlegal i hd).trans ht, hflags, hcmd⟩
  | error e => exact ⟨_, hillegal e hd, .inr ⟨rfl, rfl⟩, rfl⟩

/-- The decoder gives every command back from its word (R92 of 30_encoding.md). -/
theorem decode_encode_eq (i : Instr) : decode (encode i) = .ok i := by cases i <;> rfl

/-- Settles O5: the placed state is BUSY on the command's word with the engine's turn next. -/
theorem placedWordRunsNext : Obligations.PlacedWordRunsNext := by
  intro s i
  have hword : BitVec.ofNat 32 ((encode i).toNat % 2 ^ 32) = encode i := by
    rw [Nat.mod_eq_of_lt (encode i).isLt, BitVec.ofNat_toNat, BitVec.setWidth_eq]
  have hcmd : (s.withFetchWord 32 (encode i).toNat).cmd = encode i := hword
  obtain ⟨hlegal, -⟩ := stepCompletesTheLatchedCommand (s.withFetchWord 32 (encode i).toNat) rfl (.inr rfl)
  rw [hlegal i (by rw [hcmd, decode_encode_eq])]
  simp only [State.withFetchWord, hword]
  rfl

/-- A refused write answers err 1 and leaves everything else (R63 of 20_memory.md). -/
theorem step_write_refused {s : State} {sp : Space} {ix d : Word} {rest : List Event} (hs : s.schedule = .write sp ix d :: rest)
    (ha : s.writeAdmitted sp ix d = false) : step s = .next { s with schedule := rest, response := some (.write true) } := by
  rw [step_write hs, hostWrite_refused (s := s.popped) ha, ha]
  simp [State.popped, hs]

/-- When a write to CMD is admitted (R31 of 10_state.md). -/
theorem writeAdmitted_cmd_iff (s : State) (w : Word) :
    s.writeAdmitted .reg 1#32 w = true ↔ s.engine ≠ .busy ∧ (s.engine = .fault → w = 1#32 ∨ w = 2#32) := by
  simp [writeAdmitted_iff, State.elements]

/-- Settles O12: an admitted write to CMD is issue, any other is refused. -/
theorem issueByWritingCmd : Obligations.IssueByWritingCmd := by
  intro s w rest hs
  constructor
  · intro hallowed
    have ha : s.writeAdmitted .reg 1#32 w = true := by
      rw [writeAdmitted_cmd_iff]
      obtain he | ⟨he, hw⟩ := hallowed
      · simp [he]
      · simpa [he] using hw
    have hstore : s.popped.hostWrite .reg 1#32 w = s.popped.issue w := hostWrite_admitted ha
    rw [step_write hs, hstore, ha]
    simp [State.popped, State.issue, State.flagsIssue, hs]
  · intro hforbidden
    refine step_write_refused hs (Bool.eq_false_iff.2 fun ha => ?_)
    obtain ⟨hb, hf⟩ := (writeAdmitted_cmd_iff s w).1 ha
    obtain he | ⟨he, h1, h2⟩ := hforbidden
    · exact hb he
    · exact (hf he).elim h1 h2

/-- Settles O13: a read changes nothing, and in BUSY no write is admitted. -/
theorem nothingChangesWhileBusy : Obligations.NothingChangesWhileBusy := by
  intro s e rest busy hs hengine hreset
  cases e with
  | read sp ix => exact ⟨_, step_read hs⟩
  | write sp ix d =>
    have ha : s.writeAdmitted sp ix d = false := by simp [State.writeAdmitted, busy]
    exact ⟨_, step_write_refused hs ha⟩
  | engine => exact absurd rfl hengine
  | reset => exact absurd rfl hreset

end Sys2Proof.Machine
end

section
/-! SUPPORT. The registers as the host reads them (R21 to R29, R36, R37 of 10_state.md). -/

namespace Sys2Proof.Machine

/-- STATUS as a number: a power of two per flag. -/
theorem State.toNat_statusWord (s : State) :
    s.statusWord.toNat = s.busyFlag.toNat + 2 * s.done.toNat + 4 * s.faultFlag.toNat + 8 * s.treeOk.toNat := by
  unfold State.statusWord
  cases s.busyFlag <;> cases s.done <;> cases s.faultFlag <;> cases s.treeOk <;> rfl

/-- Bits 0 to 3 of STATUS are its flags, and the number leaves no bit above (R24). -/
theorem State.getLsbD_statusWord (s : State) (b : Nat) :
    s.statusWord.getLsbD b =
      (b == 0 && s.busyFlag || b == 1 && s.done || b == 2 && s.faultFlag || b == 3 && s.treeOk) := by
  match b with
  | 0 | 1 | 2 | 3 =>
    unfold State.statusWord
    cases s.busyFlag <;> cases s.done <;> cases s.faultFlag <;> cases s.treeOk <;> rfl
  | b + 4 =>
    have hlt : s.statusWord.toNat < 2 ^ (b + 4) := by
      have hpow : 2 ^ 4 ≤ 2 ^ (b + 4) := Nat.pow_le_pow_right (by decide) (by omega)
      have h0 := s.busyFlag.toNat_le
      have h1 := s.done.toNat_le
      have h2 := s.faultFlag.toNat_le
      have h3 := s.treeOk.toNat_le
      rw [State.toNat_statusWord]
      omega
    rw [BitVec.getLsbD, Nat.testBit_lt_two_pow hlt]
    simp

/-- Settles O14: each bit of STATUS is its flag. -/
theorem statusBits : Obligations.StatusBits := by
  intro s
  simp only [State.regRead, State.getLsbD_statusWord]
  refine ⟨by simp [State.busyFlag], by simp, by simp [State.faultFlag], by simp, fun b hb => ?_⟩
  have h : b ≠ 0 ∧ b ≠ 1 ∧ b ≠ 2 ∧ b ≠ 3 := by omega
  simp [h]

/-- Settles O15: register by register; the narrow ones keep their value when zero-extended. -/
theorem registersReadTheirFields : Obligations.RegistersReadTheirFields := by
  intro s
  refine ⟨rfl, rfl, rfl, ?status, ?code, rfl, rfl, rfl, rfl, rfl, rfl, ?nleaf, ?nnodes, ?root, rfl, rfl⟩
  case status =>
    show s.statusWord.toNat = _
    rw [State.toNat_statusWord]
    cases he : s.engine <;> cases s.done <;> cases s.treeOk <;> simp [State.busyFlag, State.faultFlag, he]
  case code => exact BitVec.toNat_setWidth_of_le (by decide)
  case nleaf => exact BitVec.toNat_setWidth_of_le (by decide)
  case nnodes => exact BitVec.toNat_setWidth_of_le (by decide)
  case root =>
    have hlt : s.tree.root.val < 2 ^ 32 := by omega
    exact (BitVec.toNat_ofNat _ _).trans (Nat.mod_eq_of_lt hlt)

end Sys2Proof.Machine
end

section
/-! SUPPORT. The machine's invariant right after reset (R57 of 10_state.md). -/

namespace Sys2Proof.Machine

/-- Settles O19: no fault on record, empty buffers, no tree. -/
theorem resetMeetsTheInvariant : Obligations.ResetMeetsTheInvariant := by
  have hreset : ∀ p k, p.wellFormed = true → (State.resetWith p k).Inv := fun p k hp =>
    { params := hp
      protocol := .of_no_record rfl (by simp [State.resetWith]) (by simp [State.resetWith])
      buffers := State.bufferInv_resetWith p k
      treeOk := fun _ => rfl
      tree := Tree.empty_inv }
  exact ⟨hreset, hreset Config.resetParams 0 (by decide)⟩

end Sys2Proof.Machine
end

section
/-! SUPPORT. The model's own stop of DERIVE (log entry 10; R45 of 10_state.md). -/

namespace Sys2Proof.Machine

/-- Settles O39: the leaves below the root cannot all be listed when a path of 256 links leads through internal records. -/
theorem deriveStopsBelowLevel255 : Obligations.DeriveStopsBelowLevel255 := by
  intro s p hok hn hlen hinner hend
  have hpaths : leafPaths s.tree 255 s.tree.root [] = none :=
    leafPaths_none [] p hlen (fun k hk => hinner k (by omega)) hend
  have hstop : deriveTable s.tree = none := by simp [deriveTable, hn, walk_eq, hpaths]
  obtain ⟨hz, -⟩ | ⟨-, c, hc, -⟩ | ⟨-, -, e⟩ := execDerive_cases s
  · exact absurd (hok.symm.trans hz) (by simp)
  · exact absurd (hstop.symm.trans hc) (by simp)
  · exact e

end Sys2Proof.Machine
end

section
/-! SUPPORT. PACK and TRIE read the codes of the table alone (R48 of 10_state.md). -/

namespace Sys2Proof.Machine

section SameCodes

variable {c c' : CodeTable}

theorem CodeTable.lenOf_congr (h : ∀ x, c.codeOf x = c'.codeOf x) (x : Sym) : c.lenOf x = c'.lenOf x := by
  rw [← CodeTable.length_codeOf, h, CodeTable.length_codeOf]

/-- Tables of the same codes have the same CODELEN. -/
theorem CodeTable.len_congr (h : ∀ x, c.codeOf x = c'.codeOf x) : c.len = c'.len :=
  table_ext fun x => BitVec.eq_of_toNat_eq (CodeTable.lenOf_congr h x)

theorem packBytes_congr (h : ∀ x, c.codeOf x = c'.codeOf x) (size i : Nat) (bs : List Byte) (sh : Shifter) :
    packBytes c size i bs sh = packBytes c' size i bs sh := by
  induction bs generalizing i sh with
  | nil => rfl
  | cons b rest ih => simp only [packBytes, h, CodeTable.lenOf_congr h, ih]

theorem packAll_congr (h : ∀ x, c.codeOf x = c'.codeOf x) (size : Nat) (input : List Byte) (m : Memory) :
    packAll c size input m = packAll c' size input m := by
  simp only [packAll, packBytes_congr h]

theorem insertSyms_congr (h : ∀ x, c.codeOf x = c'.codeOf x) (es : List (Sym × Byte)) (a : Arena) :
    insertSyms c es a = insertSyms c' es a := by
  induction es generalizing a with
  | nil => rfl
  | cons e rest ih => simp only [insertSyms, insertSym, h, ih]

theorem trieOf_congr (h : ∀ x, c.codeOf x = c'.codeOf x) : trieOf c = trieOf c' := by
  simp only [trieOf, CodeTable.len_congr h, insertSyms_congr h]

/-- PACK after an exchange of the table for one of the same codes. -/
theorem execPack_withCode {s t : State} (h : ∀ x, c.codeOf x = s.code.codeOf x) (hs : execPack s = .next t) :
    execPack (s.withCode c) = .next (t.withCode c) := by
  have hall : packAll (s.withCode c).code (s.withCode c).params.pkdSize.toNat (s.withCode c).rawInput (s.withCode c).pkd =
      packAll s.code s.params.pkdSize.toNat s.rawInput s.pkd := packAll_congr h _ _ _
  have hrange : (s.withCode c).rlenFault = s.rlenFault := rfl
  unfold execPack at hs ⊢
  rw [hall, hrange]
  split at hs
  · cases hs; rfl
  · split at hs <;> cases hs <;> rfl

/-- TRIE after an exchange of the table for one of the same codes. -/
theorem execTrie_withCode {s t : State} (h : ∀ x, c.codeOf x = s.code.codeOf x) (hs : execTrie s = .next t) :
    execTrie (s.withCode c) = .next (t.withCode c) := by
  have htrie : trieOf (s.withCode c).code = trieOf s.code := trieOf_congr h
  unfold execTrie at hs ⊢
  rw [htrie]
  split at hs <;> cases hs <;> rfl

end SameCodes

/-- Settles O44: PACK and TRIE depend on the codes, and write no code. -/
theorem bitsBeyondTheLengthAreIgnored : Obligations.BitsBeyondTheLengthAreIgnored := by
  intro s t c i hi h hs
  obtain rfl | rfl := hi
  · exact execPack_withCode h hs
  · exact execTrie_withCode h hs

end Sys2Proof.Machine
end

section
/-! SUPPORT. The host port's transactions: the answer of a read, the admission and the effect of a write, the views of the storages
(R60 to R77 of 20_memory.md). -/

namespace Sys2Proof.Machine

/-! ### Admission -/

theorem readAdmitted_iff (s : State) (sp : Space) (ix : Word) :
    s.readAdmitted sp ix = true ↔ ix.toNat < s.elements sp ∧ (sp = .reg ∨ s.engine ≠ .busy) := by
  simp [State.readAdmitted, State.inRange, State.busyFlag]

/-- Settles O9: the answer is chosen by admission, and the step keeps only the answer. -/
theorem hostReadAnswersAndChangesNothing : Obligations.HostReadAnswersAndChangesNothing := by
  intro s sp ix rest hs
  rw [step_read hs, ← readAdmitted_iff]
  constructor
  · intro hadmitted
    rw [State.hostRead, if_pos hadmitted]
  · intro hrefused
    rw [State.hostRead, if_neg hrefused]

/-- Settles O10: the condition is that of `writeAdmitted_iff`, and a refusal keeps only the answer. -/
theorem hostWriteAdmission : Obligations.HostWriteAdmission := by
  intro s sp ix d rest hs allowed
  have hiff : s.writeAdmitted sp ix d = true ↔ allowed := writeAdmitted_iff s sp ix d
  constructor
  · intro hallowed
    exact ⟨_, step_write hs, by simp [hiff.2 hallowed]⟩
  · intro hforbidden
    exact step_write_refused hs (Bool.eq_false_iff.2 fun ha => hforbidden (hiff.1 ha))

/-! ### Views -/

/-- Index 8x + w of CODEBITS is word `w` of symbol `x` (R76). -/
theorem codebits_index (x : Sym) {w : Nat} (hw : w < 8) :
    BitVec.ofNat 8 ((8 * x.toNat + w) / 8) = x ∧ (8 * x.toNat + w) % 8 = w := by
  have hsym : (8 * x.toNat + w) / 8 = x.toNat := by omega
  rw [hsym, BitVec.ofNat_toNat, BitVec.setWidth_eq]
  exact ⟨rfl, by omega⟩

theorem State.element_codebits (s : State) (x : Sym) {w : Nat} (hw : w < 8) :
    s.element .codebits (8 * x.toNat + w) = s.code.wordOf x w := by
  obtain ⟨hsym, hword⟩ := codebits_index x hw
  rw [State.element, hsym, hword]

/-- Settles O16: an index is its entry's number, in CODEBITS with the word's number below it. -/
theorem tableAndBufferViews : Obligations.TableAndBufferViews := by
  intro s
  refine ⟨⟨rfl, rfl, rfl, rfl, rfl⟩, fun x => ⟨?freq, ?codelen, fun w hw => s.element_codebits x hw⟩, fun a => ⟨?raw, ?pkd⟩⟩
  case freq => simp [State.element]
  case codelen =>
    simp only [State.element, BitVec.ofNat_toNat, BitVec.setWidth_eq]
    exact BitVec.toNat_setWidth_of_le (by decide)
  case raw => exact BitVec.toNat_setWidth_of_le (by decide)
  case pkd => exact BitVec.toNat_setWidth_of_le (by decide)

/-- Word `k` of record `i` is at 4i + k (R74). -/
theorem State.element_node (s : State) (i : NodeIdx) {k : Nat} (hk : k < 4) :
    s.element .node (4 * i.val + k) = (s.tree.nodeAt i).view k := by
  have hrec : (4 * i.val + k) / 4 = i.val := by omega
  have hword : (4 * i.val + k) % 4 = k := by omega
  simp [State.element, hrec, hword]

/-- Link `b` of record `i` is at 2i + b (R75). -/
theorem State.element_link (s : State) (i : NodeIdx) (b : Bool) :
    s.element .link (2 * i.val + b.toNat) = (linkView (s.tree.childAt i b)).setWidth 32 := by
  have hb := b.toNat_lt
  have hrec : (2 * i.val + b.toNat) / 2 = i.val := by omega
  have hside : (2 * i.val + b.toNat) % 2 = b.toNat := by omega
  have hbool : (b.toNat == 1) = b := by cases b <;> rfl
  simp [State.element, hrec, hside, hbool]

/-- The fields of a view as a sum: the upper ones count in units of the lower one's size. -/
theorem toNat_append_eq_add {m n : Nat} (x : BitVec m) (y : BitVec n) : (x ++ y).toNat = 2 ^ n * x.toNat + y.toNat := by
  rw [BitVec.toNat_append, ← Nat.shiftLeft_add_eq_or_of_lt y.isLt, Nat.shiftLeft_eq, Nat.mul_comm]

theorem NodeRec.toNat_view_leaf_sym (r : NodeRec) : (r.view 0).toNat = (if r.leaf then 256 else 0) + r.sym.toNat := by
  have hflag : (0#23 ++ BitVec.ofBool r.leaf).toNat = r.leaf.toNat := by
    rw [toNat_append_eq_add, BitVec.toNat_ofBool]
    simp
  calc (r.view 0).toNat = 2 ^ 8 * (0#23 ++ BitVec.ofBool r.leaf).toNat + r.sym.toNat := toNat_append_eq_add _ _
    _ = (if r.leaf then 256 else 0) + r.sym.toNat := by rw [hflag]; cases r.leaf <;> rfl

theorem NodeRec.toNat_view_freq (r : NodeRec) : (r.view 1).toNat + 2 ^ 32 * (r.view 2).toNat = r.freq.toNat := by
  have hlow : (r.view 1).toNat = r.freq.toNat % 2 ^ 32 := BitVec.extractLsb'_toNat 0 32 r.freq
  have hhigh : (r.view 2).toNat = r.freq.toNat / 2 ^ 32 := by
    calc (r.view 2).toNat = 2 ^ 8 * (0#24).toNat + (r.freq.extractLsb' 32 8).toNat := toNat_append_eq_add _ _
      _ = r.freq.toNat >>> 32 % 2 ^ 8 := by rw [BitVec.extractLsb'_toNat, BitVec.toNat_zero, Nat.mul_zero, Nat.zero_add]
      _ = r.freq.toNat / 2 ^ 32 := by
        have hlt := r.freq.isLt
        rw [Nat.shiftRight_eq_div_pow]
        omega
  rw [hlow, hhigh]
  exact Nat.mod_add_div _ _

theorem toNat_linkView_some (c : NodeIdx) : (linkView (some c)).toNat = 512 + c.val := by
  have hlt : c.val < 2 ^ 9 := by omega
  have hchild : (BitVec.ofNat 9 c.val).toNat = c.val := (BitVec.toNat_ofNat _ _).trans (Nat.mod_eq_of_lt hlt)
  calc (linkView (some c)).toNat = 2 ^ 9 * (1#1).toNat + (BitVec.ofNat 9 c.val).toNat := toNat_append_eq_add _ _
    _ = 512 + c.val := by rw [hchild]; rfl

/-- Settles O17: word by word and link by link. -/
theorem nodeAndLinkViews : Obligations.NodeAndLinkViews := by
  intro s i b r
  refine ⟨rfl, rfl, ?leaf, ?freq, ?rest, ?link⟩
  case leaf => exact (congrArg BitVec.toNat (s.element_node i (k := 0) (by decide))).trans r.toNat_view_leaf_sym
  case freq =>
    rw [s.element_node i (k := 1) (by decide), s.element_node i (k := 2) (by decide)]
    exact r.toNat_view_freq
  case rest => exact s.element_node i (k := 3) (by decide)
  case link =>
    rw [s.element_link, BitVec.toNat_setWidth_of_le (by decide)]
    cases s.tree.childAt i b with
    | none => rfl
    | some c => exact toNat_linkView_some c

end Sys2Proof.Machine
end

section
/-! SUPPORT. A host write to a data element: what every element reads afterwards (R62, R65, R68 of 20_memory.md). -/

namespace Sys2Proof.Machine

/-- A code word read after one write to CODEBITS. -/
theorem CodeTable.wordOf_putWord (c : CodeTable) (x y : Sym) {w : Nat} (hw : w < 8) (v : Nat) (d : Word) :
    (c.putWord x w d).wordOf y v = if y = x ∧ v = w then d else c.wordOf y v := by
  by_cases hy : y = x
  · subst hy
    by_cases hv : v = w
    · subst hv
      simp [CodeTable.wordOf, CodeTable.putWord, hw]
    · simp [CodeTable.wordOf, CodeTable.putWord, hv, Ne.symm hv]
  · simp [CodeTable.wordOf, CodeTable.putWord, entryAt_putEntry_other _ _ hy, hy]

/-- Indices below 256 are the symbols' numbers. -/
theorem symbol_eq_iff {i j : Nat} (hi : i < 256) (hj : j < 256) : BitVec.ofNat 8 j = BitVec.ofNat 8 i ↔ j = i := by
  rw [← BitVec.toNat_inj, BitVec.toNat_ofNat, BitVec.toNat_ofNat, Nat.mod_eq_of_lt hi, Nat.mod_eq_of_lt hj]

/-- The elements a host write stores into: the writable ones (R64) but for CMD. -/
structure DataElement (s : State) (sp : Space) (i : Nat) : Prop where
  inRange : i < s.elements sp
  not_node : sp ≠ .node
  not_link : sp ≠ .link
  register : sp = .reg → i = 6 ∨ i = 7

/-- What of the data an element keeps: a byte the low eight bits (R65). -/
def keptBits : Space → Word → Word
  | .codelen, d | .raw, d | .pkd, d => (d.setWidth 8).setWidth 32
  | .reg, d | .freq, d | .node, d | .link, d | .codebits, d => d

theorem keptBits_eq (sp : Space) (d : Word) :
    keptBits sp d = if sp = .codelen ∨ sp = .raw ∨ sp = .pkd then d &&& 0xFF#32 else d := by
  have hbyte : (d.setWidth 8).setWidth 32 = d &&& 0xFF#32 := by
    apply BitVec.eq_of_toNat_eq
    rw [BitVec.toNat_setWidth_of_le (by decide), BitVec.toNat_setWidth, BitVec.toNat_and]
    exact (Nat.and_two_pow_sub_one_eq_mod d.toNat 8).symm
  cases sp with
  | codelen | raw | pkd => exact hbyte
  | reg | freq | node | link | codebits => rfl

/-- The registers after a write to RLEN. -/
theorem State.regRead_with_rlen (s : State) (d : Word) (n : Nat) :
    ({ s with rlen := d } : State).regRead n = if n = 6 then d else s.regRead n := by
  match n with
  | 0 | 1 | 2 | 3 | 4 | 5 | 6 | 7 | 8 | 9 | 10 | 11 | 12 | 13 | 14 | _ + 15 => rfl

/-- The registers after a write to PLEN. -/
theorem State.regRead_with_plen (s : State) (d : Word) (n : Nat) :
    ({ s with plen := d } : State).regRead n = if n = 7 then d else s.regRead n := by
  match n with
  | 0 | 1 | 2 | 3 | 4 | 5 | 6 | 7 | 8 | 9 | 10 | 11 | 12 | 13 | 14 | _ + 15 => rfl

/-- The elements of a space after a write to one of them. -/
theorem element_storeElement_same_space {s : State} {sp : Space} {i j : Nat} (h : DataElement s sp i) (hj : j < s.elements sp)
    (d : Word) : (s.storeElement sp i d).element sp j = if j = i then keptBits sp d else s.element sp j := by
  obtain ⟨hi, hnode, hlink, hreg⟩ := h
  cases sp with
  | reg =>
    obtain rfl | rfl := hreg rfl
    · exact s.regRead_with_rlen d j
    · exact s.regRead_with_plen d j
  | freq => simp only [State.storeElement, State.element, entryAt_putEntry, symbol_eq_iff hi hj, keptBits]
  | node => exact absurd rfl hnode
  | link => exact absurd rfl hlink
  | codelen =>
    simp only [State.storeElement, State.element, entryAt_putEntry, symbol_eq_iff hi hj, keptBits]
    split_ifs <;> rfl
  | codebits =>
    have hi' : i < 2048 := hi
    have hj' : j < 2048 := hj
    have hplace : (j / 8 = i / 8 ∧ j % 8 = i % 8) ↔ j = i := by omega
    simp only [State.storeElement, State.element, keptBits, CodeTable.wordOf_putWord _ _ _ (Nat.mod_lt i (by decide)),
      symbol_eq_iff (show i / 8 < 256 by omega) (show j / 8 < 256 by omega), hplace]
  | raw | pkd =>
    simp only [State.storeElement, State.element, Memory.read_write, keptBits]
    split_ifs <;> rfl

/-- A write leaves the elements of the other spaces. -/
theorem element_storeElement_other_space {sp sp' : Space} {i : Nat} (s : State) (d : Word) (j : Nat) (h : sp' ≠ sp) :
    (s.storeElement sp i d).element sp' j = s.element sp' j := by
  cases sp with
  | reg =>
    cases sp' with
    | reg => exact absurd rfl h
    | freq | node | link | codelen | codebits | raw | pkd => simp only [State.storeElement]; split_ifs <;> rfl
  | node | link => rfl
  | freq | codelen | codebits | raw | pkd =>
    -- Another space reads another field; what is left is the space itself.
    cases sp' <;> try rfl
    exact absurd rfl h

/-- The elements do not depend on the model's own fields. -/
theorem element_answered (s : State) (r : Response) (sp : Space) (i : Nat) :
    (s.answered r).element sp i = s.element sp i := by
  cases sp <;> rfl

theorem element_popped (s : State) (sp : Space) (i : Nat) : s.popped.element sp i = s.element sp i := by
  cases sp <;> rfl

/-- A write to a data element is admitted in IDLE. -/
theorem DataElement.writeAdmitted {s : State} {sp : Space} {ix : Word} (h : DataElement s sp ix.toNat) (idle : s.engine = .idle)
    (d : Word) : s.writeAdmitted sp ix d = true := by
  obtain ⟨hrange, hnode, hlink, hreg⟩ := h
  refine (writeAdmitted_iff s sp ix d).2 ⟨hrange, hnode, hlink, fun hsp => .inr ?_, by simp [idle], by simp [idle]⟩
  exact (hreg hsp).imp (fun h6 => BitVec.eq_of_toNat_eq h6) fun h7 => BitVec.eq_of_toNat_eq h7

theorem DataElement.ne_cmd {s : State} {sp : Space} {i : Nat} (h : DataElement s sp i) : ¬ (sp = .reg ∧ i = 1) := by
  rintro ⟨hsp, h1⟩
  obtain h6 | h7 := h.register hsp <;> omega

/-- The step of such a write: the store, with err 0. -/
theorem DataElement.step_write {s : State} {sp : Space} {ix d : Word} {rest : List Event} (h : DataElement s sp ix.toNat)
    (idle : s.engine = .idle) (hs : s.schedule = .write sp ix d :: rest) :
    step s = .next ((s.popped.storeElement sp ix.toNat d).answered (.write false)) := by
  have ha := h.writeAdmitted idle d
  rw [Machine.step_write hs, hostWrite_admitted (s := s.popped) ha, ha]
  rfl

/-- Settles O11: in the write's own space by `element_storeElement_same_space`, in the others by the frame. -/
theorem writeReadsBackAndNothingElseChanges : Obligations.WriteReadsBackAndNothingElseChanges := by
  intro s t sp ix d rest hs idle hrange hnode hlink hreg hstep
  have hdata : DataElement s sp ix.toNat :=
    ⟨hrange, hnode, hlink, fun hsp => (hreg hsp).imp (fun h6 => by rw [h6]; rfl) fun h7 => by rw [h7]; rfl⟩
  have hpopped : DataElement s.popped sp ix.toNat := ⟨hrange, hnode, hlink, hdata.register⟩
  cases (hdata.step_write idle hs).symm.trans hstep
  obtain ⟨-, -, -, hparams⟩ := storeElement_frame s.popped sp ix.toNat d
  obtain ⟨hengine, -⟩ := storeElement_flags hdata.ne_cmd s.popped d
  refine ⟨?stored, fun sp' ix' hrange' hother => ?kept, hengine.trans idle, hparams⟩
  case stored => rw [element_answered, element_storeElement_same_space hpopped hrange, if_pos rfl, keptBits_eq]
  case kept =>
    rw [element_answered, ← element_popped s]
    by_cases hsp : sp' = sp
    · subst hsp
      have hix : ix'.toNat ≠ ix.toNat := fun e => (hother.resolve_left (by simp)) (BitVec.eq_of_toNat_eq e)
      rw [element_storeElement_same_space hpopped hrange', if_neg hix]
    · exact element_storeElement_other_space s.popped d _ hsp

end Sys2Proof.Machine
end

section
/-! SUPPORT. Writes to data elements in a script's run, and the nine of LOADCODE (R76 of 20_memory.md, R104 of 30_encoding.md). -/

namespace Sys2Proof.Machine

/-- The state without the model's own event and response: what the block itself holds. -/
def State.hardware (s : State) : State := { s with schedule := [], response := none }

theorem State.hardware_storeElement (s : State) (sp : Space) (i : Nat) (d : Word) :
    (s.storeElement sp i d).hardware = s.hardware.storeElement sp i d := by
  cases sp with
  | reg => simp only [State.storeElement]; split_ifs <;> rfl
  | freq | node | link | codelen | codebits | raw | pkd => rfl

/-- Whether an element is one of data depends on the sizes of the buffers alone. -/
theorem DataElement.congr {s t : State} {sp : Space} {i : Nat} (h : DataElement s sp i) (hp : t.params = s.params) :
    DataElement t sp i := by
  have helements : t.elements sp = s.elements sp := by
    cases sp <;> simp only [State.elements, hp]
  exact ⟨helements ▸ h.inRange, h.not_node, h.not_link, h.register⟩

/-! ### One write of a script -/

/-- Outside BUSY the engine's turn changes nothing of the block (R12 of 00_scope.md, R32 of 10_state.md). -/
theorem ScriptRun.perform_engine_of_not_busy {r : ScriptRun} (hb : r.state.engine ≠ .busy) :
    r.perform .engine = some (r.arrive r.state.hardware) := by
  have hstep : step { r.state with schedule := [.engine] } = .next r.state.hardware :=
    engineRestsUnlessBusy { r.state with schedule := [.engine] } hb (.inr rfl)
  simp only [ScriptRun.perform, hstep]

/-- So it does not matter whether the turn is taken. -/
theorem ScriptRun.engineMay_of_not_busy {r : ScriptRun} (hb : r.state.engine ≠ .busy) :
    ∃ r', r.engineMay = some r' ∧ r'.state.hardware = r.state.hardware := by
  unfold ScriptRun.engineMay
  split
  · exact ⟨_, ScriptRun.perform_engine_of_not_busy hb, rfl⟩
  · exact ⟨_, ScriptRun.perform_engine_of_not_busy hb, rfl⟩
  · exact ⟨_, rfl, rfl⟩

/-- The host's write to a data element, performed in IDLE. -/
theorem ScriptRun.perform_write {r : ScriptRun} {sp : Space} {ix : Word} (idle : r.state.engine = .idle)
    (h : DataElement r.state sp ix.toNat) (v : Word) :
    r.perform (.write sp ix v) =
      some (r.arrive ((r.state.hardware.storeElement sp ix.toNat v).answered (.write false))) := by
  have hstep : step { r.state with schedule := [.write sp ix v] } =
      .next ((r.state.hardware.storeElement sp ix.toNat v).answered (.write false)) :=
    DataElement.step_write (h.congr rfl) idle rfl
  simp only [ScriptRun.perform, hstep]

/-- A write directive to a data element, executed in IDLE: it stores, and the script goes on. -/
theorem runScript_wr {r : ScriptRun} {sp : Space} {ix : Word} (idle : r.state.engine = .idle)
    (h : DataElement r.state sp ix.toNat) (v : Word) (ds : List Directive) :
    ∃ r', runScript (.wr sp ix v :: ds) r = runScript ds r' ∧
      r'.state.hardware = r.state.hardware.storeElement sp ix.toNat v := by
  obtain ⟨r1, hmay, hkept⟩ := ScriptRun.engineMay_of_not_busy (r := r) (by simp [idle])
  have idle1 : r1.state.engine = .idle := (congrArg State.engine hkept :).trans idle
  have hdata1 : DataElement r1.state sp ix.toNat := h.congr (congrArg State.params hkept :)
  have htransact : r.transact (.write sp ix v) =
      some (r1.arrive ((r1.state.hardware.storeElement sp ix.toNat v).answered (.write false))) := by
    rw [ScriptRun.transact, hmay]
    exact ScriptRun.perform_write idle1 hdata1 v
  refine ⟨r1.arrive ((r1.state.hardware.storeElement sp ix.toNat v).answered (.write false)), ?run, ?stored⟩
  case run => simp [runScript, Directive.execute, htransact, State.answered]
  case stored =>
    calc (r1.state.hardware.storeElement sp ix.toNat v).hardware
        = r1.state.hardware.storeElement sp ix.toNat v := State.hardware_storeElement _ _ _ _
      _ = r.state.hardware.storeElement sp ix.toNat v := by rw [hkept]

/-! ### LOADCODE -/

/-- The table after the words `ws` of the image of `c` are written to the entry of `x`. -/
def CodeTable.putImage (t : CodeTable) (x : Sym) (c : Bits) (ws : List Nat) : CodeTable :=
  ws.foldl (fun t w => t.putWord x w (imageWord c w)) t

theorem CodeTable.wordOf_putImage (t : CodeTable) (x y : Sym) (c : Bits) (ws : List Nat) (hws : ∀ w ∈ ws, w < 8) (v : Nat) :
    (t.putImage x c ws).wordOf y v = if y = x ∧ v ∈ ws then imageWord c v else t.wordOf y v := by
  induction ws generalizing t with
  | nil => simp [CodeTable.putImage]
  | cons w ws ih =>
    have hw : w < 8 := hws w (by simp)
    have hrest := ih (t.putWord x w (imageWord c w)) fun u hu => hws u (List.mem_cons_of_mem _ hu)
    rw [CodeTable.putImage, List.foldl_cons, ← CodeTable.putImage, hrest, CodeTable.wordOf_putWord t x y hw]
    by_cases hv : v = w
    · subst hv
      by_cases hy : y = x <;> simp [hy]
    · simp [hv]

theorem CodeTable.len_putImage (t : CodeTable) (x : Sym) (c : Bits) (ws : List Nat) : (t.putImage x c ws).len = t.len := by
  induction ws generalizing t with
  | nil => rfl
  | cons w ws ih => exact ih (t.putWord x w (imageWord c w))

/-- The code of a symbol is read from its length and its eight words. -/
theorem CodeTable.codeOf_eq_of_words {t u : CodeTable} {y : Sym} (hlen : t.lenOf y = u.lenOf y)
    (hwords : ∀ w, w < 8 → t.wordOf y w = u.wordOf y w) : t.codeOf y = u.codeOf y := by
  have hle := u.lenOf_le y
  rw [CodeTable.codeOf, CodeTable.codeOf, hlen]
  refine List.map_congr_left fun j hj => ?_
  have hj' : j < u.lenOf y := List.mem_range.1 hj
  rw [CodeTable.codebit, CodeTable.codebit, hwords (j / 32) (by omega)]

/-- A length and all eight image words written one by one give the codes of the table that the code ROM writer would store
(R152 of 43_derive.md). -/
theorem CodeTable.codeOf_putImage (t : CodeTable) (x y : Sym) (c : Bits) :
    (({ t with len := putEntry t.len x (BitVec.ofNat 8 c.length) } : CodeTable).putImage x c (List.range 8)).codeOf y =
      (t.store x c).codeOf y := by
  refine CodeTable.codeOf_eq_of_words ?len fun w hw => ?word
  case len => rw [CodeTable.lenOf, CodeTable.len_putImage]; rfl
  case word =>
    rw [CodeTable.wordOf_putImage _ _ _ _ _ (fun u hu => List.mem_range.1 hu)]
    by_cases hy : y = x
    · rw [if_pos ⟨hy, List.mem_range.2 hw⟩, hy, CodeTable.wordOf_store_same t x c w hw]
    · rw [if_neg fun h => hy h.1, CodeTable.wordOf_store_other t c w hy]
      rfl

theorem State.storeElement_codelen (s : State) (x : Sym) (d : Word) :
    s.storeElement .codelen x.toNat d = s.withCode { s.code with len := putEntry s.code.len x (d.setWidth 8) } := by
  rw [State.storeElement, BitVec.ofNat_toNat, BitVec.setWidth_eq]
  rfl

theorem State.storeElement_codebits (s : State) (x : Sym) {w : Nat} (hw : w < 8) (d : Word) :
    s.storeElement .codebits (8 * x.toNat + w) d = s.withCode (s.code.putWord x w d) := by
  obtain ⟨hsym, hword⟩ := codebits_index x hw
  rw [State.storeElement, hsym, hword]
  rfl

/-- The directives of LOADCODE that write the words `ws` of the image. -/
def wordWrites (x : Sym) (c : Bits) (ws : List Nat) : List Directive :=
  ws.map fun w => .wr .codebits (BitVec.ofNat 32 (8 * x.toNat + w)) (imageWord c w)

theorem loadCode_eq (x : Sym) (c : Bits) :
    loadCode x c = .wr .codelen (x.setWidth 32) (BitVec.ofNat 32 c.length) :: wordWrites x c (List.range 8) := rfl

/-- The writes of words of a code in IDLE, one after the other, to the end of the script. -/
theorem runScript_words (x : Sym) (c : Bits) (ws : List Nat) (hws : ∀ w ∈ ws, w < 8) {r : ScriptRun}
    (idle : r.state.engine = .idle) :
    ∃ r', runScript (wordWrites x c ws) r = .ended r' ∧
      r'.state.hardware = r.state.hardware.withCode (r.state.code.putImage x c ws) := by
  induction ws generalizing r with
  | nil => exact ⟨r, by simp [wordWrites, runScript, finishRun, State.busyFlag, idle], rfl⟩
  | cons w ws ih =>
    have hw : w < 8 := hws w (by simp)
    have hindex : (BitVec.ofNat 32 (8 * x.toNat + w)).toNat = 8 * x.toNat + w := by
      rw [BitVec.toNat_ofNat]
      omega
    have hdata : DataElement r.state .codebits (BitVec.ofNat 32 (8 * x.toNat + w)).toNat :=
      { inRange := by rw [hindex]; show _ < 2048; omega
        not_node := by simp
        not_link := by simp
        register := by simp }
    obtain ⟨r1, hrun, hstored⟩ := runScript_wr idle hdata (imageWord c w) (wordWrites x c ws)
    rw [hindex, State.storeElement_codebits _ x hw] at hstored
    have idle1 : r1.state.engine = .idle := (congrArg State.engine hstored :).trans idle
    have hcode1 : r1.state.code = r.state.code.putWord x w (imageWord c w) := (congrArg State.code hstored :)
    obtain ⟨r2, hend, hrest⟩ := ih (fun u hu => hws u (List.mem_cons_of_mem _ hu)) idle1
    rw [hstored, hcode1] at hrest
    exact ⟨r2, hrun.trans hend, hrest⟩

/-- LOADCODE in IDLE changes nothing of the block but the code table, in which it writes a length and the word image. -/
theorem runScript_loadCode (x : Sym) (c : Bits) {r : ScriptRun} (idle : r.state.engine = .idle) :
    ∃ r', runScript (loadCode x c) r = .ended r' ∧
      r'.state.hardware = r.state.hardware.withCode
        (({ r.state.code with len := putEntry r.state.code.len x (BitVec.ofNat 8 c.length) } : CodeTable).putImage x c
          (List.range 8)) := by
  have hindex : (x.setWidth 32).toNat = x.toNat := BitVec.toNat_setWidth_of_le (by decide)
  have hlow : (BitVec.ofNat 32 c.length).setWidth 8 = BitVec.ofNat 8 c.length := BitVec.setWidth_ofNat_of_le (by decide) _
  have hdata : DataElement r.state .codelen (x.setWidth 32).toNat :=
    { inRange := by rw [hindex]; exact x.isLt
      not_node := by simp
      not_link := by simp
      register := by simp }
  obtain ⟨r1, hrun, hstored⟩ := runScript_wr idle hdata (BitVec.ofNat 32 c.length) (wordWrites x c (List.range 8))
  rw [← loadCode_eq] at hrun
  rw [hindex, State.storeElement_codelen, hlow] at hstored
  have idle1 : r1.state.engine = .idle := (congrArg State.engine hstored :).trans idle
  obtain ⟨r2, hend, hrest⟩ := runScript_words x c (List.range 8) (fun w hw => List.mem_range.1 hw) idle1
  rw [hstored, show r1.state.code = _ from (congrArg State.code hstored :)] at hrest
  exact ⟨r2, hrun.trans hend, hrest⟩

/-- Settles O58: the table LOADCODE leaves has the codes of the ROM writer's store, and the rest of the block is as before. -/
theorem loadCodeLoadsTheCode : Obligations.LoadCodeLoadsTheCode := by
  intro s turns x c idle hc
  have hlen : c.length ≤ 255 := by
    simp only [codeWellFormed, Bool.and_eq_true, decide_eq_true_eq] at hc
    exact hc.2
  obtain ⟨r, hrun, hleft⟩ := runScript_loadCode x c (r := ScriptRun.start s turns) idle
  have hcodes : ∀ y, r.state.code.codeOf y = (s.code.store x c).codeOf y := fun y => by
    rw [show r.state.code = _ from (congrArg State.code hleft :)]
    exact CodeTable.codeOf_putImage s.code x y c
  refine ⟨r, hrun, (hcodes x).trans (codeOf_store_same s.code x c hlen),
    fun y hy => (hcodes y).trans (CodeTable.codeOf_store_other s.code c hy), ?engine, ?tree, ?freq, ?raw, ?pkd⟩
  case engine => exact (congrArg State.engine hleft :).trans idle
  case tree => exact (congrArg State.tree hleft :)
  case freq => exact (congrArg State.freq hleft :)
  case raw => exact (congrArg State.raw hleft :)
  case pkd => exact (congrArg State.pkd hleft :)

end Sys2Proof.Machine
end

section
/-! SUPPORT. The decoder and the encoder of the command word (R90 to R93 of 30_encoding.md). -/

namespace Sys2Proof.Machine

/-- The opcode map read in both directions is the same map (R91). -/
theorem commandOfOpcode_eq_some_iff (opc : BitVec 8) (i : Instr) : commandOfOpcode opc = some i ↔ opc = opcodeOf i := by
  constructor
  · intro h
    unfold commandOfOpcode at h
    split_ifs at h with h1 h2 h3 h4 h5 h6 h7 h8 h9 <;> cases h <;> assumption
  · rintro rfl
    cases i <;> rfl

/-- A word is its two fields, RSV above OPC (R90). -/
theorem rsvField_append_opcField (w : Word) : rsvField w ++ opcField w = w :=
  BitVec.extractLsb'_append_extractLsb' (w := 24) (len := 8)

theorem decode_eq_ok_iff_fields (w : Word) (i : Instr) :
    decode w = .ok i ↔ rsvField w = 0#24 ∧ opcField w = opcodeOf i := by
  rw [← commandOfOpcode_eq_some_iff]
  unfold decode
  split
  · next hrsv => cases commandOfOpcode (opcField w) <;> simp [hrsv]
  · next hrsv => simp [hrsv]

/-- RSV is bits 31:8 (R90). -/
theorem rsvField_eq_zero_iff (w : Word) : rsvField w = 0#24 ↔ ∀ b, 8 ≤ b → w.getLsbD b = false := by
  constructor
  · intro h b hb
    obtain ⟨k, rfl⟩ := Nat.exists_eq_add_of_le hb
    by_cases hk : k < 24
    · simpa [rsvField, hk] using congrArg (·.getLsbD k) h
    · exact BitVec.getLsbD_of_ge w _ (by omega)
  · intro h
    refine BitVec.eq_of_getLsbD_eq fun k _ => ?_
    simp [rsvField, h (8 + k) (by omega)]

/-- OPC is bits 7:0 (R90). -/
theorem opcField_eq_setWidth (w : Word) : opcField w = w.setWidth 8 := by
  refine BitVec.eq_of_getLsbD_eq fun k _ => ?_
  simp [opcField]

/-- The encoder's word is the one word the decoder reads as the command (R92). -/
theorem decode_eq_ok_iff_encode (w : Word) (i : Instr) : decode w = .ok i ↔ w = encode i := by
  constructor
  · intro h
    obtain ⟨hrsv, hopc⟩ := (decode_eq_ok_iff_fields w i).1 h
    rw [← rsvField_append_opcField w, hrsv, hopc, encode]
  · rintro rfl
    exact decode_encode_eq i

/-- Settles O2: by the fields of the word, by its encoder, and by the decoder's totality. -/
theorem decodeReadsEveryWord : Obligations.DecodeReadsEveryWord := by
  intro w
  refine ⟨fun i => ?fields, fun i => decode_eq_ok_iff_encode w i, fun hnone => ?illegal⟩
  case fields => rw [decode_eq_ok_iff_fields, rsvField_eq_zero_iff, opcField_eq_setWidth]
  case illegal =>
    cases hd : decode w with
    | ok i => exact absurd ((decode_eq_ok_iff_encode w i).1 hd) (hnone i)
    | error e => exact ⟨e, rfl⟩

/-- Settles O1: the nine words are the encoder's; the two others are rejected by the decoder itself. -/
theorem tableWordsDecode : Obligations.TableWordsDecode :=
  ⟨decode_encode_eq .nop, decode_encode_eq .srst, decode_encode_eq .clrf, decode_encode_eq .count, decode_encode_eq .build,
    decode_encode_eq .derive, decode_encode_eq .pack, decode_encode_eq .unpack, decode_encode_eq .trie, rfl, rfl⟩

end Sys2Proof.Machine
end

section
/-! SUPPORT. The frame of every command, faults among its outcomes (R96 of 30_encoding.md; R218, R219 of 60_exceptions.md). -/

namespace Sys2Proof.Machine

section Frame

variable {i : Instr} {s t : State}

/-- No command takes an event off the schedule or answers the host (log entries 3 and 4). -/
theorem Completes.events (h : Completes s i t) : t.schedule = s.schedule ∧ t.response = s.response := by
  cases h <;> exact ⟨rfl, rfl⟩

theorem Completes.rlen (h : Completes s i t) (hs : i ≠ .srst) : t.rlen = s.rlen := by
  cases h with
  | srst => exact absurd rfl hs
  | nop | clrf | precheck | counted | built | derived | packFault | packed | unpackFault | unpacked | trieFault | trieBuilt => rfl

theorem Completes.freq (h : Completes s i t) (hs : i ≠ .srst) (hc : i ≠ .count) : t.freq = s.freq := by
  cases h with
  | srst => exact absurd rfl hs
  | counted => exact absurd rfl hc
  | nop | clrf | precheck | built | derived | packFault | packed | unpackFault | unpacked | trieFault | trieBuilt => rfl

theorem Completes.tree (h : Completes s i t) (hs : i ≠ .srst) (hb : i ≠ .build) (ht : i ≠ .trie) :
    t.tree = s.tree ∧ t.treeOk = s.treeOk := by
  cases h with
  | srst => exact absurd rfl hs
  | built => exact absurd rfl hb
  | trieFault | trieBuilt => exact absurd rfl ht
  | nop | clrf | precheck | counted | derived | packFault | packed | unpackFault | unpacked => exact ⟨rfl, rfl⟩

theorem Completes.code (h : Completes s i t) (hs : i ≠ .srst) (hd : i ≠ .derive) : t.code = s.code := by
  cases h with
  | srst => exact absurd rfl hs
  | derived => exact absurd rfl hd
  | nop | clrf | precheck | counted | built | packFault | packed | unpackFault | unpacked | trieFault | trieBuilt => rfl

theorem Completes.packedLengths (h : Completes s i t) (hs : i ≠ .srst) (hp : i ≠ .pack) :
    t.plen = s.plen ∧ t.pbits = s.pbits := by
  cases h with
  | srst => exact absurd rfl hs
  | packFault | packed => exact absurd rfl hp
  | nop | clrf | precheck | counted | built | derived | unpackFault | unpacked | trieFault | trieBuilt => exact ⟨rfl, rfl⟩

theorem Completes.ubits (h : Completes s i t) (hs : i ≠ .srst) (hu : i ≠ .unpack) : t.ubits = s.ubits := by
  cases h with
  | srst => exact absurd rfl hs
  | unpackFault | unpacked => exact absurd rfl hu
  | nop | clrf | precheck | counted | built | derived | packFault | packed | trieFault | trieBuilt => rfl

/-- SRST too leaves the buffers (R111 of 40_control.md). -/
theorem Completes.pkd (h : Completes s i t) (hp : i ≠ .pack) : t.pkd = s.pkd := by
  cases h with
  | packFault | packed => exact absurd rfl hp
  | nop | srst | clrf | precheck | counted | built | derived | unpackFault | unpacked | trieFault | trieBuilt => rfl

theorem Completes.raw (h : Completes s i t) (hu : i ≠ .unpack) : t.raw = s.raw := by
  cases h with
  | unpackFault | unpacked => exact absurd rfl hu
  | nop | srst | clrf | precheck | counted | built | derived | packFault | packed | trieFault | trieBuilt => rfl

/-- No command reaches RAW from RLEN on: UNPACK emits below RLEN, and a fault of its leaves unspecified the bytes below RLEN. -/
theorem Completes.raw_from_rlen (h : Completes s i t) {a : Nat} (ha : s.rlen.toNat ≤ a) : t.raw.read a = s.raw.read a := by
  cases h with
  | unpacked d _ hu => exact (unpackAll_raw hu).1 a ha
  | unpackFault => exact Memory.read_redrawBelow_ge s.raw _ ha
  | nop | srst | clrf | precheck | counted | built | derived | packFault | packed | trieFault | trieBuilt => rfl

theorem Completes.err_of_idle (h : Completes s i t) (hs : i ≠ .srst) (hc : i ≠ .clrf) (idle : t.engine = .idle) :
    t.err = s.err := by
  cases h with
  | srst => exact absurd rfl hs
  | clrf => exact absurd rfl hc
  | precheck | packFault | unpackFault | trieFault => exact absurd idle (by simp)
  | nop | counted | built | derived | packed | unpacked | trieBuilt => rfl

end Frame

/-- Settles O29: each piece of state by its own frame lemma, over all the states a command can leave. -/
theorem commandsWriteOnlyTheirResults : Obligations.CommandsWriteOnlyTheirResults := by
  intro i s t hexec
  have h : Completes s i t := exec_completes hexec
  obtain ⟨hschedule, hresponse⟩ := h.events
  exact ⟨h.flags.2, h.params, hschedule, hresponse, h.rlen, h.freq, h.tree, h.code, h.packedLengths, h.ubits,
    fun hp a => by rw [h.pkd hp], fun hu a => by rw [h.raw hu], fun _ a ha => h.raw_from_rlen ha, h.err_of_idle⟩

end Sys2Proof.Machine
end

section
/-! SUPPORT. The run of one command from IDLE: CMD, then WAIT (R100, R101 of 30_encoding.md). -/

namespace Sys2Proof.Machine

/-- The answer to a read of STATUS, admitted in every state (R69 of 20_memory.md). -/
def State.statusAnswer (s : State) : Response := .read s.statusWord false

theorem State.hostRead_status (s : State) : s.hostRead .reg statusIx = s.statusAnswer := by
  have hadmitted : s.readAdmitted .reg statusIx = true := (readAdmitted_iff s .reg statusIx).2 ⟨show 2 < 15 by decide, .inl rfl⟩
  rw [State.hostRead, if_pos hadmitted]
  rfl

/-! ### The three events of the run -/

/-- The host's write to CMD in IDLE is issue (R31 of 10_state.md). -/
theorem ScriptRun.perform_issue {r : ScriptRun} (idle : r.state.engine = .idle) (w : Word) :
    r.perform (.write .reg cmdIx w) = some (r.arrive ((r.state.hardware.issue w).answered (.write false))) := by
  have hstep : step { r.state with schedule := [.write .reg cmdIx w] } =
      .next ((r.state.hardware.issue w).answered (.write false)) :=
    (issueByWritingCmd { r.state with schedule := [.write .reg cmdIx w] } w [] rfl).1 (.inl idle)
  simp only [ScriptRun.perform, hstep]

/-- The engine's turn in BUSY completes the command in CMD (R32 of 10_state.md). -/
theorem ScriptRun.perform_completion {r : ScriptRun} {i : Instr} {t : State} (busy : r.state.engine = .busy)
    (hcmd : r.state.cmd = encode i) (hexec : exec i r.state.hardware = .next t) : r.perform .engine = some (r.arrive t) := by
  obtain ⟨hlegal, -⟩ := stepCompletesTheLatchedCommand { r.state with schedule := [.engine] } busy (.inr rfl)
  have hdecode : decode r.state.cmd = .ok i := by rw [hcmd, decode_encode_eq]
  have hstep : step { r.state with schedule := [.engine] } = .next t := (hlegal i hdecode).trans hexec
  simp only [ScriptRun.perform, hstep]

/-- The run after the host has read STATUS: nothing of the block changes. -/
def ScriptRun.readStatus (r : ScriptRun) : ScriptRun := r.arrive (r.state.hardware.answered r.state.statusAnswer)

theorem ScriptRun.perform_status (r : ScriptRun) : r.perform (.read .reg statusIx) = some r.readStatus := by
  have hstep : step { r.state with schedule := [.read .reg statusIx] } =
      .next (r.state.hardware.answered r.state.statusAnswer) := by
    rw [step_read rfl, ← State.hostRead_status]
    rfl
  simp only [ScriptRun.perform, hstep, ScriptRun.readStatus]

/-- The bit WAIT looks at after the read is BUSY (R24 of 10_state.md). -/
theorem ScriptRun.readStatus_busy (r : ScriptRun) : (r.readStatus.reads.headD 0#32).getLsbD 0 = r.state.busyFlag := by
  have hhead : r.readStatus.reads.headD 0#32 = r.state.statusWord := rfl
  rw [hhead, State.getLsbD_statusWord]
  simp

/-! ### WAIT -/

theorem ScriptRun.transact_status {r r1 : ScriptRun} (hmay : r.engineMay = some r1) :
    r.transact (.read .reg statusIx) = some r1.readStatus := by
  rw [ScriptRun.transact, hmay]
  exact r1.perform_status

/-- WAIT ends with the read of STATUS before which the engine came to rest. -/
theorem waitIdle_of_rest {r r1 : ScriptRun} (hmay : r.engineMay = some r1) (hrest : r1.state.engine ≠ .busy) (turns : List Bool) :
    waitIdle turns r = some r1.readStatus := by
  cases turns with
  | nil => exact ScriptRun.transact_status hmay
  | cons b rest =>
    have hflag : r1.state.busyFlag = false := by simp [State.busyFlag, hrest]
    simp only [waitIdle, ScriptRun.transact_status hmay, ScriptRun.readStatus_busy, hflag, Bool.false_eq_true, if_false]

/-- WAIT goes on when the engine has not taken its turn. -/
theorem waitIdle_of_busy {r r1 : ScriptRun} (hmay : r.engineMay = some r1) (busy : r1.state.engine = .busy) (b : Bool)
    (rest : List Bool) : waitIdle (b :: rest) r = waitIdle rest r1.readStatus := by
  have hflag : r1.state.busyFlag = true := by simp [State.busyFlag, busy]
  simp only [waitIdle, ScriptRun.transact_status hmay, ScriptRun.readStatus_busy, hflag, if_true]

/-- WAIT on a command in progress ends in the state of its completion, STATUS read from it, for every order of the turns: each turn
not taken leaves the block as it was, and with the turns used up the engine takes its own. -/
theorem waitIdle_completes {i : Instr} {u t : State} (busy : u.engine = .busy) (hcmd : u.cmd = encode i)
    (hexec : exec i u = .next t) {turns : List Bool} {r : ScriptRun} (hturns : r.turns = turns) (hu : r.state.hardware = u) :
    ∃ r', waitIdle turns r = some r' ∧ r'.state = t.hardware.answered t.statusAnswer := by
  have hrest : t.engine ≠ .busy := exec_not_busy hexec
  have hcompletes : ∀ q : ScriptRun, q.state.hardware = u → q.perform .engine = some (q.arrive t) := by
    rintro q rfl
    exact ScriptRun.perform_completion busy hcmd hexec
  induction turns generalizing r with
  | nil =>
    have hmay : r.engineMay = some (r.arrive t) := by simp only [ScriptRun.engineMay, hturns, hcompletes r hu]
    exact ⟨_, waitIdle_of_rest hmay hrest [], rfl⟩
  | cons b rest ih =>
    cases b with
    | true =>
      have hmay : r.engineMay = some (ScriptRun.arrive { r with turns := rest } t) := by
        simp only [ScriptRun.engineMay, hturns]
        exact hcompletes { r with turns := rest } hu
      exact ⟨_, waitIdle_of_rest hmay hrest _, rfl⟩
    | false =>
      have hmay : r.engineMay = some { r with turns := rest } := by simp only [ScriptRun.engineMay, hturns]
      have hbusy : r.state.engine = .busy := (congrArg State.engine hu :).trans busy
      obtain ⟨r', hwait, hstate⟩ := ih (r := ScriptRun.readStatus { r with turns := rest }) rfl hu
      exact ⟨r', (waitIdle_of_busy hmay hbusy false rest).trans hwait, hstate⟩

/-! ### RUN -/

/-- `CMD mnemonic` in IDLE issues the command, and the script goes on. -/
theorem runScript_cmd (i : Instr) {r : ScriptRun} (idle : r.state.engine = .idle) (ds : List Directive) :
    ∃ r', runScript (cmd i :: ds) r = runScript ds r' ∧ r'.state.hardware = r.state.hardware.issue (encode i) := by
  obtain ⟨r1, hmay, hkept⟩ := ScriptRun.engineMay_of_not_busy (r := r) (by simp [idle])
  have idle1 : r1.state.engine = .idle := (congrArg State.engine hkept :).trans idle
  have htransact : r.transact (.write .reg cmdIx (encode i)) =
      some (r1.arrive ((r1.state.hardware.issue (encode i)).answered (.write false))) := by
    rw [ScriptRun.transact, hmay]
    exact ScriptRun.perform_issue idle1 (encode i)
  refine ⟨r1.arrive ((r1.state.hardware.issue (encode i)).answered (.write false)), ?run, ?issued⟩
  case run => simp [cmd, cmdw, runScript, Directive.execute, htransact, State.answered]
  case issued =>
    calc (r1.state.hardware.issue (encode i)).hardware = r1.state.hardware.issue (encode i) := rfl
      _ = r.state.hardware.issue (encode i) := by rw [hkept]

/-- WAIT as the last directive: the run has ended when WAIT has. -/
theorem runScript_wait {r r' : ScriptRun} (hwait : waitIdle r.turns r = some r') (hrest : r'.state.engine ≠ .busy) :
    runScript [.wait] r = .ended r' := by
  have hflag : r'.state.busyFlag = false := by simp [State.busyFlag, hrest]
  simp [runScript, Directive.execute, hwait, finishRun, hflag]

/-- Settles O55: the state is that of the command's completion after issue, with STATUS read from it. -/
theorem runEndsWithTheEngineAtRest : Obligations.RunEndsWithTheEngineAtRest := by
  intro i s idle htree
  obtain ⟨t, hexec⟩ := exec_has_next i (s.hardware.issue (encode i)) fun _ => htree
  have hrest : t.engine ≠ .busy := exec_not_busy hexec
  obtain ⟨-, hcmd⟩ := (exec_completes hexec).flags
  refine ⟨t.hardware.answered t.statusAnswer, hrest, hcmd, fun turns => ?_⟩
  obtain ⟨r1, hrun, hissued⟩ := runScript_cmd i (r := ScriptRun.start s turns) idle [.wait]
  obtain ⟨r2, hwait, hstate⟩ := waitIdle_completes rfl rfl hexec rfl hissued
  exact ⟨r2, hrun.trans (runScript_wait hwait (by rw [hstate]; exact hrest)), hstate⟩

end Sys2Proof.Machine
end

section
/-! SUPPORT. The system commands NOP, SRST and CLRF: the shared operation each one is, and that operation's whole effect (R110 to R112 of
40_control.md). -/

namespace Sys2Proof.Machine

/-! ### The operation of each command -/

theorem exec_nop (s : State) : exec .nop s = .next s.finish := rfl

theorem exec_srst (s : State) : exec .srst s = .next s.softReset := rfl

theorem exec_clrf (s : State) : exec .clrf s = .next s.clearFault := rfl

/-! ### The whole effect of each operation -/

theorem State.finish_eq (s : State) : s.finish = { s with engine := .idle, done := true } := rfl

theorem State.clearFault_eq (s : State) :
    s.clearFault = { s with engine := .idle, done := true, err := FaultRecord.none } := rfl

/-- Soft reset as a change of the state it starts from: CMD, RAW, PKD and the model's own fields are those left out (R111). -/
theorem State.softReset_eq (s : State) :
    s.softReset =
      { s with engine := .idle, done := true, treeOk := false, err := FaultRecord.none, rlen := 0#32, plen := 0#32,
               pbits := 0#32, ubits := 0#32, freq := zeroFreq, tree := Tree.empty, code := CodeTable.empty } := rfl

/-! ### The obligations -/

/-- Settles O24: NOP is completion alone, whose whole effect is on STATE and DONE. -/
theorem nopOnlyCompletes : Obligations.NopOnlyCompletes := by
  intro s
  rw [exec_nop, State.finish_eq]

/-- Settles O25: SRST is soft reset; its empty tables and fault record, written out, are the reset values of R57. -/
theorem srstResetsAllButTheBuffers : Obligations.SrstResetsAllButTheBuffers := by
  intro s
  rw [exec_srst, State.softReset_eq, FaultRecord.none, zeroFreq, Tree.empty, CodeTable.empty, NodeRec.zero, LinkPair.none]

/-- Settles O26: CLRF is the return from a fault; the record it leaves, written out, is all zero. -/
theorem clrfClearsTheFault : Obligations.ClrfClearsTheFault := by
  intro s
  rw [exec_clrf, State.clearFault_eq, FaultRecord.none]

end Sys2Proof.Machine
end

section
/-! SUPPORT. COUNT: its next state, and its counts read off RAW (R120, R121 of 41_count.md). -/

namespace Sys2Proof.Machine

/-- The bytes of a memory's front that are `x` are the addresses that hold `x`. -/
theorem Memory.count_firstBytes (m : Memory) (n : Nat) (x : Byte) :
    (m.firstBytes n).count x = ((List.range n).filter fun i => m.read i == x).length := by
  calc ((List.range n).map m.read).count x
      = (List.range n).countP fun i => m.read i == x := List.countP_map
    _ = ((List.range n).filter fun i => m.read i == x).length := List.countP_eq_length_filter

@[simp] theorem State.length_rawInput (s : State) : s.rawInput.length = s.rlen.toNat :=
  Memory.length_firstBytes s.raw s.rlen.toNat

/-- RLEN is a 32-bit register, so no count of its input's bytes can wrap (R58 item a of 10_state.md). -/
theorem State.length_rawInput_lt (s : State) : s.rawInput.length < 2 ^ 32 :=
  s.length_rawInput ▸ s.rlen.isLt

/-- With RLEN in range COUNT completes, and FREQ alone takes a result. -/
theorem exec_count {s : State} (hr : s.rlen.toNat ≤ s.params.rawSize.toNat) :
    exec .count s = .next (s.withFreq (countBytes s.rawInput)).finish := by
  obtain ⟨hfault, -⟩ | ⟨-, hnext⟩ := execCount_cases s
  · exact absurd hr (Nat.not_le.2 hfault)
  · exact hnext

/-- Settles O30: the table is that of the input's bytes, each entry exact and their sum the input's length. -/
theorem countCountsTheBytes : Obligations.CountCountsTheBytes := by
  intro s hr
  refine ⟨countBytes s.rawInput, exec_count hr, fun x => ?entry, ?total⟩
  case entry =>
    calc (entryAt (countBytes s.rawInput) x).toNat
        = s.rawInput.count x := entryAt_countBytes s.length_rawInput_lt x
      _ = ((List.range s.rlen.toNat).filter fun i => s.raw.read i == x).length := s.raw.count_firstBytes s.rlen.toNat x
  case total =>
    calc freqSum (countBytes s.rawInput) = s.rawInput.length := freqSum_countBytes s.length_rawInput_lt
      _ = s.rlen.toNat := s.length_rawInput

end Sys2Proof.Machine
end

section
/-! SUPPORT. The tree BUILD leaves, read off its three cases (R137 to R139, R142, R144 of 42_build.md), and one round of the arbiter. -/

namespace Sys2Proof.Machine

/-- BUILD completes on every state, and the tree with TREE_OK alone takes a result (R130). -/
theorem exec_build (s : State) :
    exec .build s = .next { s with engine := .idle, done := true, treeOk := true, tree := buildTree s.freq } := rfl

/-! ### The three cases -/

/-- The trees BUILD leaves, by the number of symbols present. -/
inductive BuildsTo (f : Table Word) : Tree → Prop
  /-- No symbol (R138). -/
  | empty (hp : presentSymbols f = []) : BuildsTo f Tree.empty
  /-- One symbol, under the synthetic root (R139). -/
  | one (x : Sym) (hp : presentSymbols f = [x]) : BuildsTo f ((oneSymbol x (entryAt f x)).toTree 1)
  /-- Two symbols or more: the rounds' forest with one node left (R137). -/
  | merged (a : Arena) (root : NodeIdx) (hn : 2 ≤ (presentSymbols f).length)
      (hf : Forest (presentSymbols f).length (freqSum f) (addLeaves f) a [root]) : BuildsTo f (a.toTree root)

theorem buildsTo_buildTree (f : Table Word) : BuildsTo f (buildTree f) := by
  rcases Nat.lt_trichotomy (presentSymbols f).length 1 with hlt | heq | hgt
  · have hp : presentSymbols f = [] := List.length_eq_zero_iff.1 (by omega)
    exact buildTree_empty f hp ▸ .empty hp
  · obtain ⟨x, hp⟩ := List.length_eq_one_iff.1 heq
    exact buildTree_one f x hp ▸ .one x hp
  · obtain ⟨a, root, htree, hf⟩ := buildTree_forest f hgt
    exact htree ▸ .merged a root hgt hf

/-! ### The records and the root (R132, R133, R142) -/

section Records

variable {f : Table Word} {t : Tree}

theorem BuildsTo.nleaf (h : BuildsTo f t) : t.nleaf.toNat = (presentSymbols f).length := by
  have hle := length_presentSymbols f
  cases h with
  | empty hp => rw [hp]; rfl
  | one x hp => rw [hp]; rfl
  | merged a root hn hf =>
    rw [Arena.toTree_nleaf, hf.leaves, BitVec.toNat_ofNat, Nat.mod_eq_of_lt (by omega)]

theorem BuildsTo.nnodes (h : BuildsTo f t) :
    t.nnodes.toNat = if (presentSymbols f).length = 0 then 0 else if (presentSymbols f).length = 1 then 2
      else 2 * (presentSymbols f).length - 1 := by
  have hle := length_presentSymbols f
  cases h with
  | empty hp => rw [hp]; rfl
  | one x hp => rw [hp]; rfl
  | merged a root hn hf =>
    obtain ⟨hnext, -⟩ := hf.next_eq hn hle
    rw [if_neg (by omega), if_neg (by omega), Arena.toTree_nnodes, hnext, BitVec.toNat_ofNat, Nat.mod_eq_of_lt (by omega)]

theorem BuildsTo.root_last (h : BuildsTo f t) : t.root.val = t.nnodes.toNat - 1 := by
  have hnnodes := h.nnodes
  cases h with
  | empty hp => rfl
  | one x hp => rfl
  | merged a root hn hf =>
    obtain ⟨-, hroot⟩ := hf.next_eq hn (length_presentSymbols f)
    rw [if_neg (by omega), if_neg (by omega)] at hnnodes
    rw [Arena.toTree_root, hroot, hnnodes]
    omega

/-- Record k is the leaf of the k-th symbol present. -/
theorem BuildsTo.leaf_at (h : BuildsTo f t) (k : NodeIdx) (hk : k.val < (presentSymbols f).length) :
    t.nodeAt k = leafRec (presentSymbols f)[k.val] (entryAt f (presentSymbols f)[k.val]) := by
  cases h with
  | empty hp => exact absurd hk (by simp [hp])
  | one x hp =>
    have hzero : k = 0 := Fin.ext (by simpa [hp] using hk)
    subst hzero
    rw [Arena.toTree_nodeAt, oneSymbol_recAt]
    simp [hp]
  | merged a root hn hf => rw [Arena.toTree_nodeAt, (hf.kept k hk).1, addLeaves_recAt, dif_pos hk]

end Records

/-- Settles O31: each count, the root and the leaves by its own lemma over the three cases. -/
theorem buildAllocatesTheRecords : Obligations.BuildAllocatesTheRecords := by
  intro s
  have h := buildsTo_buildTree s.freq
  exact ⟨_, exec_build s, h.nleaf, h.nnodes, h.root_last, h.leaf_at⟩

/-! ### No symbol and one symbol (R138, R139) -/

theorem presentSymbols_eq_nil {f : Table Word} (h : ∀ x, entryAt f x = 0#32) : presentSymbols f = [] :=
  List.eq_nil_iff_forall_not_mem.2 fun x hx => (mem_presentSymbols f x).1 hx (h x)

theorem presentSymbols_eq_singleton {f : Table Word} {x : Sym} (h : ∀ y, entryAt f y ≠ 0#32 ↔ y = x) :
    presentSymbols f = [x] := by
  have hperm : (presentSymbols f).Perm [x] :=
    (List.perm_ext_iff_of_nodup (presentSymbols_nodup f) (List.nodup_singleton x)).2 fun y => by
      rw [mem_presentSymbols, h, List.mem_singleton]
  exact List.perm_singleton.1 hperm

/-- Settles O32: no entry is above zero, so no symbol is present. -/
theorem buildOfNothingIsTheEmptyTree : Obligations.BuildOfNothingIsTheEmptyTree := by
  intro s hzero
  rw [exec_build, buildTree_empty s.freq (presentSymbols_eq_nil hzero)]

/-- The one path from the synthetic root to the leaf is the bit 0. -/
theorem oneSymbol_follow_leaf_iff (x : Sym) (w : Word) (p : Bits) :
    ((oneSymbol x w).toTree 1).follow 1 p = some 0 ↔ p = [false] := by
  constructor
  · intro hp
    obtain ⟨-, hroot⟩ | ⟨hbit, -⟩ := oneSymbol_follow x w p 0 hp
    · exact absurd hroot (by decide)
    · exact hbit
  · rintro rfl
    rw [Tree.follow_cons, Arena.toTree_childAt, oneSymbol_childAt]
    rfl

/-- Settles O33: the records and links of the synthetic tree, read off its arena. -/
theorem buildOfOneSymbolAddsARoot : Obligations.BuildOfOneSymbolAddsARoot := by
  intro s x honly
  refine ⟨(oneSymbol x (entryAt s.freq x)).toTree 1, ?completes, rfl, rfl, rfl, ?leaf, ?root, ?left, ?right, ?leafLeft, ?leafRight,
    oneSymbol_follow_leaf_iff x _⟩
  case completes => rw [exec_build, buildTree_one s.freq x (presentSymbols_eq_singleton honly)]
  case leaf => simp [oneSymbol_recAt, leafRec]
  case root => simp [oneSymbol_recAt]
  case left | right | leafLeft | leafRight => simp [oneSymbol_childAt]

/-! ### One round (R134 to R136) -/

/-- What a merge writes: the record at the next index, its links, and nothing else. -/
theorem Arena.merge_spec {a : Arena} (hroom : a.next < 511) (i j : NodeIdx) :
    (a.merge i j).recAt a.nextIdx = a.mergeRec i j ∧
    (a.merge i j).childAt a.nextIdx false = some i ∧ (a.merge i j).childAt a.nextIdx true = some j ∧
    ∀ x, x ≠ a.nextIdx → (a.merge i j).recAt x = a.recAt x ∧ (a.merge i j).pairAt x = a.pairAt x := by
  refine ⟨?record, ?left, ?right, fun x hx => ⟨?otherRecord, ?otherLinks⟩⟩
  case record => rw [Arena.recAt_merge hroom, if_pos rfl]
  case left => rw [Arena.childAt_merge hroom, if_pos rfl]; rfl
  case right => rw [Arena.childAt_merge hroom, if_pos rfl]; rfl
  case otherRecord => rw [Arena.recAt_merge hroom, if_neg hx]
  case otherLinks => rw [Arena.merge, Arena.pairAt_push, if_neg fun e => hx ((Arena.eq_nextIdx hroom x).1 e)]

/-- Settles O34: the round is one merge of the two least keys, and the merge writes the next record alone. -/
theorem roundMergesTheTwoLeastKeys : Obligations.RoundMergesTheTwoLeastKeys := by
  intro k a pend hnodup hlen hroom
  obtain ⟨i, j, rest, hperm, hleast, hnext, hround⟩ := mergeRounds_succ k a hnodup hlen
  obtain ⟨hrecord, hleft, hright, hother⟩ := Arena.merge_spec hroom i j
  exact ⟨i, j, rest, hperm, fun x hx => (a.before_iff i x).1 (hleast x hx), fun x hx => (a.before_iff j x).1 (hnext x hx),
    a.merge i j, hround, rfl, Arena.nextIdx_val hroom, hrecord, hleft, hright, hother⟩

/-! ### The finished tree (R135 to R137, R144) -/

/-- Settles O35: the records in use and the merges, each of the two pending records of least key. -/
theorem buildMergesGreedily : Obligations.BuildMergesGreedily := by
  intro s hn
  obtain ⟨hnnodes, hmerges⟩ := buildTree_greedy s.freq hn
  exact ⟨buildTree s.freq, exec_build s, hnnodes, hmerges⟩

section Conservation

variable {f : Table Word} {t : Tree}

/-- An internal record of the finished forest has both children. -/
theorem Forest.children {a : Arena} {root i : NodeIdx}
    (h : Forest (presentSymbols f).length (freqSum f) (addLeaves f) a [root]) (hn : 2 ≤ (presentSymbols f).length)
    (hused : (a.toTree root).Used i) (hinner : (a.recAt i).leaf = false) (b : Bool) : ∃ c, a.childAt i b = some c := by
  obtain ⟨hnext, -⟩ := h.next_eq hn (length_presentSymbols f)
  have hle := length_presentSymbols f
  have hi : i.val < a.next := (Arena.used_iff (by omega) root i).1 hused
  have hlow : (presentSymbols f).length ≤ i.val := by
    by_contra hlt
    rw [(h.leaf_iff rfl i).2 (by omega)] at hinner
    exact absurd hinner (by simp)
  exact h.inner i hlow hi b

theorem Tree.empty_not_used (i : NodeIdx) : ¬ Tree.empty.Used i := Nat.not_lt_zero i.val

/-- The one internal record of the synthetic tree has the leaf's frequency. -/
theorem oneSymbol_freqSums (x : Sym) (w : Word) : ((oneSymbol x w).toTree 1).FreqSums := by
  intro i hused hinner
  have hroot : i = 1 := by
    have hlt : i.val < 2 := hused
    have hne : i ≠ 0 := by
      rintro rfl
      rw [Arena.toTree_nodeAt, oneSymbol_recAt] at hinner
      exact absurd hinner (by simp [leafRec])
    have hpos : i.val ≠ 0 := fun e => hne (Fin.ext e)
    exact Fin.ext (show i.val = 1 by omega)
  subst hroot
  simp [oneSymbol_childAt, oneSymbol_recAt, leafRec]

/-- With one symbol present its count is the sum of all. -/
theorem freqSum_of_singleton {x : Sym} (hp : presentSymbols f = [x]) : freqSum f = (entryAt f x).toNat := by
  have hlt := (entryAt f x).isLt
  have hsum : (entryAt f x).toNat % 2 ^ 40 = freqSum f := by
    simpa [hp, leafIndices, Arena.freqAt_eq, addLeaves_recAt, leafRec] using sum_leaves f
  omega

/-- An internal record's frequency is the sum of its children's (R45(g) of 10_state.md). -/
theorem BuildsTo.freqSums (h : BuildsTo f t) : t.FreqSums := by
  cases h with
  | empty hp => exact fun i hused => absurd hused (Tree.empty_not_used i)
  | one x hp => exact oneSymbol_freqSums x _
  | merged a root hn hf =>
    intro i hused hinner
    obtain ⟨l, hl⟩ := hf.children hn hused hinner false
    obtain ⟨r, hr⟩ := hf.children hn hused hinner true
    rw [Arena.toTree_childAt, Arena.toTree_childAt, hl, hr]
    exact hf.sums i l r hl hr

theorem BuildsTo.root_freq (h : BuildsTo f t) (hsome : t.nnodes ≠ 0#9) : (t.nodeAt t.root).freq.toNat = freqSum f := by
  cases h with
  | empty hp => exact absurd rfl hsome
  | one x hp =>
    have hlt := (entryAt f x).isLt
    rw [freqSum_of_singleton hp, Arena.toTree_root, Arena.toTree_nodeAt, oneSymbol_recAt, if_pos rfl, BitVec.toNat_setWidth,
      Nat.mod_eq_of_lt (by omega)]
  | merged a root hn hf => simpa [Arena.freqAt_eq] using hf.total

theorem BuildsTo.children (h : BuildsTo f t) (hn : 2 ≤ (presentSymbols f).length) (i : NodeIdx) (hused : t.Used i)
    (hinner : (t.nodeAt i).leaf = false) (b : Bool) : ∃ c, t.childAt i b = some c := by
  cases h with
  | empty hp => exact absurd hused (Tree.empty_not_used i)
  | one x hp => exact absurd hn (by simp [hp])
  | merged a root _ hf => exact hf.children hn hused hinner b

end Conservation

/-- Settles O36: each of the three facts by its own lemma over the three cases. -/
theorem buildConservesFrequency : Obligations.BuildConservesFrequency := by
  intro s
  have h := buildsTo_buildTree s.freq
  exact ⟨_, exec_build s, h.freqSums, h.root_freq, h.children⟩

end Sys2Proof.Machine
end

section
/-! SUPPORT. DERIVE and the code ROM writer: the entry a store leaves, and the table of a tree (R150 to R155 of 43_derive.md). -/

namespace Sys2Proof.Machine

/-- A code that fits CODELEN is stored with zeros beyond it (R99 of 30_encoding.md). -/
theorem CodeTable.canonical_store_same (t : CodeTable) (x : Sym) {c : Bits} (hc : c.length ≤ 255) : (t.store x c).Canonical x := by
  intro j hbeyond hj
  rw [CodeTable.lenOf_store_same, Nat.mod_eq_of_lt (by omega)] at hbeyond
  calc (t.store x c).codebit x j = c.getD j false := t.codebit_store_same x c j hj
    _ = false := List.getD_eq_default c false hbeyond

/-- Settles O40: the stored entry is read through `codebit`, and a store to `x` leaves the entry of every `y ≠ x`. -/
theorem storedCodeReadsBack : Obligations.StoredCodeReadsBack := by
  intro t x c hc
  exact ⟨codeOf_store_same t x c hc, t.canonical_store_same x hc,
    fun _ hy => ⟨t.lenOf_store_other c hy, fun w => t.wordOf_store_other c w hy⟩⟩

/-- With TREE_OK = 1, DERIVE completes with the table its walk writes, and the code table alone takes a result (R150). -/
theorem exec_derive {s : State} {c : CodeTable} (hok : s.treeOk = true) (hc : deriveTable s.tree = some c) :
    exec .derive s = .next { s with engine := .idle, done := true, code := c } := by
  obtain ⟨hz, -⟩ | ⟨-, c', hc', hnext⟩ | ⟨-, hstop, -⟩ := execDerive_cases s
  · exact absurd (hok.symm.trans hz) (by simp)
  · cases hc'.symm.trans hc
    exact hnext
  · exact absurd (hstop.symm.trans hc) (by simp)

/-- Settles O37: on a tree of R45 the walk ends, and its table holds the leaves' paths. -/
theorem deriveWritesThePaths : Obligations.DeriveWritesThePaths := by
  intro s hok htree
  obtain ⟨c, hc, hpaths, hother, hcanonical⟩ := deriveTable_spec htree
  exact ⟨c, exec_derive hok hc, hpaths, hother, hcanonical⟩

/-- Settles O38: the derived table agrees with its tree, so its codes are paths to leaves, and no path goes on past a leaf. -/
theorem derivedTableIsPrefixFree : Obligations.DerivedTableIsPrefixFree := by
  intro s t hok htree hexec
  obtain ⟨c, hc⟩ := deriveTable_some htree
  cases (exec_derive hok hc).symm.trans hexec
  have hagree : Agree s.tree c := deriveTable_agree htree hc
  exact ⟨hagree.prefixFree htree, hagree⟩

end Sys2Proof.Machine
end

section
/-! SUPPORT. PACK: its next state by the outcome of its data path, and the fault at the first byte without a code (R160 to R165 of
44_pack.md). -/

namespace Sys2Proof.Machine

theorem Params.pkdSize_lt {p : Params} (h : p.wellFormed = true) : p.pkdSize.toNat < 2 ^ 29 := by
  rw [Params.wellFormed, Bool.and_eq_true] at h
  exact of_decide_eq_true h.2

/-! ### The input bytes -/

theorem Memory.forall_mem_firstBytes {m : Memory} {n : Nat} {P : Byte → Prop} (h : ∀ k, k < n → P (m.read k)) :
    ∀ x ∈ m.firstBytes n, P x :=
  List.forall_mem_map.2 fun k hk => h k (List.mem_range.1 hk)

theorem Memory.take_firstBytes (m : Memory) {i n : Nat} (h : i ≤ n) : (m.firstBytes n).take i = m.firstBytes i := by
  rw [Memory.firstBytes, ← List.map_take, List.take_range, Nat.min_eq_left h, Memory.firstBytes]

/-- The first bytes, cut around the one at `i`. -/
theorem Memory.firstBytes_split (m : Memory) {i n : Nat} (h : i < n) :
    m.firstBytes n = m.firstBytes i ++ m.read i :: (m.firstBytes n).drop (i + 1) := by
  have hi : i < (m.firstBytes n).length := by rwa [m.length_firstBytes]
  calc m.firstBytes n
      = (m.firstBytes n).take i ++ (m.firstBytes n).drop i := (List.take_append_drop i _).symm
    _ = m.firstBytes i ++ m.read i :: (m.firstBytes n).drop (i + 1) := by
        rw [m.take_firstBytes h.le, List.drop_eq_getElem_cons hi, m.getElem_firstBytes]

/-! ### The next state -/

/-- With RLEN in range and a data path that ends, PACK completes, and PKD, PLEN and PBITS alone take results. -/
theorem exec_pack_of_ok {s : State} {h : Shifter} (hr : s.rlen.toNat ≤ s.params.rawSize.toNat)
    (hp : packAll s.code s.params.pkdSize.toNat s.rawInput s.pkd = .ok h) :
    exec .pack s = .next (s.withPacked h.pkd (word32 h.k) (word32 h.total)).finish := by
  obtain ⟨hfault, -⟩ | ⟨-, _, herror, -⟩ | ⟨-, _, hok, hnext⟩ := execPack_cases s
  · exact absurd hr (Nat.not_le.2 hfault)
  · cases herror.symm.trans hp
  · cases hok.symm.trans hp
    exact hnext

/-- With RLEN in range and a data path that faults, PACK drops PKD, PLEN and PBITS and takes the fault (R218 of 60_exceptions.md). -/
theorem exec_pack_of_error {s : State} {r : Raised} (hr : s.rlen.toNat ≤ s.params.rawSize.toNat)
    (hp : packAll s.code s.params.pkdSize.toNat s.rawInput s.pkd = .error r) :
    exec .pack s = .next (s.dropPacked.takeFault r) := by
  obtain ⟨hfault, -⟩ | ⟨-, _, herror, hnext⟩ | ⟨-, _, hok, -⟩ := execPack_cases s
  · exact absurd hr (Nat.not_le.2 hfault)
  · cases herror.symm.trans hp
    exact hnext
  · cases hok.symm.trans hp

/-- A fault of the multiplexer loop ends PACK's data path before the flush. -/
theorem packAll_of_packBytes_error {c : CodeTable} {size : Nat} {xs : List Byte} {m : Memory} {r : Raised}
    (h : packBytes c size 0 xs (Shifter.start m) = .error r) : packAll c size xs m = .error r := by
  rw [packAll, h]

/-! ### The obligations -/

/-- Settles O41: the data path ends with the padded stream in PKD, and PKD_SIZE keeps both its lengths within 32 bits. -/
theorem packWritesTheStream : Obligations.PackWritesTheStream := by
  intro s hwf hr hcodes hfit
  obtain ⟨h, hp, hk, htotal, hstream, hbeyond⟩ :=
    packAll_ok s.code s.params.pkdSize.toNat s.rawInput s.pkd (Memory.forall_mem_firstBytes hcodes) hfit
  have hsize := Params.pkdSize_lt hwf
  have hbits : (stream s.code s.rawInput).length ≤ 8 * ceil8 (stream s.code s.rawInput).length := by
    unfold ceil8
    omega
  refine ⟨h.pkd, ?_, hstream, hbeyond⟩
  rw [exec_pack_of_ok hr hp, hk, htotal, word32_eq (by omega), word32_eq (by omega)]
  rfl

/-- Settles O42: the bytes before `i` pass the loop, and the byte at `i` faults there. -/
theorem packFaultsOnAMissingCode : Obligations.PackFaultsOnAMissingCode := by
  intro s i hr hi hcodes hmissing hfit
  have hloop : packBytes s.code s.params.pkdSize.toNat 0 s.rawInput (Shifter.start s.pkd) = .error (noCodeAt (s.raw.read i) i) := by
    rw [State.rawInput, s.raw.firstBytes_split hi,
      packBytes_noCode s.code _ _ _ _ (Memory.forall_mem_firstBytes hcodes) hmissing hfit, Memory.length_firstBytes]
  refine ⟨s.dropPacked.pkd, s.dropPacked.draws, ?_⟩
  rw [exec_pack_of_error hr (packAll_of_packBytes_error hloop), noCodeAt, word32_eq (hi.trans s.rlen.isLt)]
  rfl

end Sys2Proof.Machine
end

section
/-! SUPPORT. UNPACK: its data path along the paths of leaves, its next state by the outcome of that data path, and the payload bits it
reads (R170 to R176 of 45_unpack.md). -/

namespace Sys2Proof.Machine

/-! ### Along the paths of leaves (R171, R174) -/

/-- The decoder at the root, the leaves of the paths `ws` emitted. -/
def Decoder.afterWords (t : Tree) (raw : Memory) (ws : List (Bits × NodeIdx)) : Decoder :=
  { bitpos := (ws.flatMap Prod.fst).length, n := ws.length, cur := t.root,
    raw := raw.writeList 0 (ws.map fun w => (t.nodeAt w.2).sym) }

theorem Decoder.read_afterWords (t : Tree) (raw : Memory) (ws : List (Bits × NodeIdx)) (k : Nat) (hk : k < ws.length) :
    (Decoder.afterWords t raw ws).raw.read k = (t.nodeAt ws[k].2).sym := by
  have hread := raw.read_writeList 0 k (ws.map fun w => (t.nodeAt w.2).sym) (by simpa using hk)
  simpa [Decoder.afterWords] using hread

/-- The cursor never starts on a leaf (R45(b) of 10_state.md; with no records NODE[0] is zero). -/
theorem TreeInv.root_not_leaf {t : Tree} (hi : TreeInv t) : (t.nodeAt t.root).leaf = false := by
  by_cases hn : t.nnodes = 0#9
  · rw [(hi.unused_zero t.root (Tree.not_used_of_zero hn t.root)).1]
    rfl
  · exact (hi.root_used hn).2.1

theorem unpackAll_of_empty {t : Tree} {m : Memory} {plen count : Nat} {raw : Memory} (hc : 0 < count) (hn : t.nnodes = 0#9) :
    unpackAll t m plen count raw = .error (corruptPathAt 0 0) := by
  rw [unpackAll, if_pos ⟨hc, hn⟩]

section Words

variable {t : Tree} {ws : List (Bits × NodeIdx)} {m : Memory} {plen count : Nat} {raw : Memory}

/-- UNPACK's data path past the paths of leaves. -/
theorem unpackAll_words (hi : TreeInv t) (hw : ∀ w ∈ ws, t.follow t.root w.1 = some w.2 ∧ t.IsLeaf w.2)
    (hroot : 0 < count → t.nnodes ≠ 0#9) (hn : ws.length ≤ count) (hl : (ws.flatMap Prod.fst).length ≤ 8 * plen)
    (hb : m.StartsWith (ws.flatMap Prod.fst)) :
    unpackAll t m plen count raw =
      decodeBits t m count (8 * plen - (ws.flatMap Prod.fst).length) (Decoder.afterWords t raw ws) := by
  have hleaf : ∀ w ∈ ws, t.follow t.root w.1 = some w.2 ∧ (t.nodeAt w.2).leaf = true := fun w hm =>
    (hw w hm).imp_right And.right
  rw [unpackAll, if_neg fun h => hroot h.1 h.2,
    decodeBits_words hi.noLeaf hi.root_not_leaf m count ws hleaf (8 * plen) _ rfl (by simpa using hn) hl
      fun p hp => by simpa using hb.payloadBit p hp]
  simp [Decoder.afterWords]

/-- UNPACK's data path past the paths of leaves and the path `q` to an internal record. -/
theorem unpackAll_words_inner (hi : TreeInv t) (hw : ∀ w ∈ ws, t.follow t.root w.1 = some w.2 ∧ t.IsLeaf w.2)
    (hroot : t.nnodes ≠ 0#9) (hn : ws.length < count) {q : Bits} {cur : NodeIdx} (hq : t.follow t.root q = some cur)
    (hcur : (t.nodeAt cur).leaf = false) (hl : (ws.flatMap Prod.fst ++ q).length ≤ 8 * plen)
    (hb : m.StartsWith (ws.flatMap Prod.fst ++ q)) :
    unpackAll t m plen count raw =
      decodeBits t m count (8 * plen - (ws.flatMap Prod.fst ++ q).length)
        { Decoder.afterWords t raw ws with bitpos := (ws.flatMap Prod.fst ++ q).length, cur := cur } := by
  rw [List.length_append] at hl
  have hbits : ∀ p (hp : p < q.length), m.payloadBit ((ws.flatMap Prod.fst).length + p) = q[p] := fun p hp => by
    rw [hb.payloadBit _ (by rw [List.length_append]; omega), List.getElem_append_right (by omega)]
    simp
  rw [unpackAll_words hi hw (fun _ => hroot) hn.le (by omega) hb.left,
    decodeBits_inner hi.noLeaf m count q _ (Decoder.afterWords t raw ws) cur hq hcur hn (by omega) hbits,
    List.length_append, Nat.sub_sub]
  rfl

end Words

/-! ### The next state (R170; R218 of 60_exceptions.md) -/

/-- The payload's bits are counted in 32 bits (R6 of 00_scope.md). -/
theorem payload_bits_lt {s : State} (hwf : s.params.wellFormed = true) (hp : s.plen.toNat ≤ s.params.pkdSize.toNat) :
    8 * s.plen.toNat < 2 ^ 32 := by
  have hsize := Params.pkdSize_lt hwf
  omega

/-- With the checks passed and a data path that ends, UNPACK completes, and RAW and UBITS alone take results. -/
theorem exec_unpack_of_ok {s : State} {d : Decoder} (hc : s.unpackPrecheck = none)
    (hu : unpackAll s.tree s.pkd s.plen.toNat s.rlen.toNat s.raw = .ok d) :
    exec .unpack s = .next (s.withUnpacked d.raw (word32 d.bitpos)).finish := by
  obtain ⟨_, hfault, -⟩ | ⟨-, _, herror, -⟩ | ⟨-, _, hok, hnext⟩ := execUnpack_cases s
  · cases hfault.symm.trans hc
  · cases herror.symm.trans hu
  · cases hok.symm.trans hu
    exact hnext

/-- With the checks passed and a data path that faults, UNPACK clears UBITS, leaves RAW below RLEN unspecified and takes the fault. -/
theorem exec_unpack_of_error {s : State} {r : Raised} (hc : s.unpackPrecheck = none)
    (hu : unpackAll s.tree s.pkd s.plen.toNat s.rlen.toNat s.raw = .error r) :
    ∃ m d, exec .unpack s = .next
        { s with engine := .fault, done := false, ubits := 0#32, raw := m, draws := d,
                 err := { code := r.code.number, info0 := r.info0, info1 := r.info1 } } ∧
      ∀ a, s.rlen.toNat ≤ a → m.read a = s.raw.read a := by
  refine ⟨s.dropUnpacked.raw, s.dropUnpacked.draws, ?_, fun a ha => s.raw.read_redrawBelow_ge s.draws ha⟩
  obtain ⟨_, hfault, -⟩ | ⟨-, _, herror, hnext⟩ | ⟨-, _, hok, -⟩ := execUnpack_cases s
  · cases hfault.symm.trans hc
  · cases herror.symm.trans hu
    exact hnext
  · cases hok.symm.trans hu

/-- Settles O45: past the paths RLEN symbols are out, so the data path ends there. -/
theorem unpackDecodesThePaths : Obligations.UnpackDecodesThePaths := by
  intro s ws hwf hr hp hok htree hlen hw hl hb
  have hroot : 0 < s.rlen.toNat → s.tree.nnodes ≠ 0#9 := fun hpos hzero => by
    obtain ⟨w, hmem⟩ := List.exists_mem_of_length_pos (hlen ▸ hpos)
    exact Tree.not_used_of_zero hzero w.2 (hw w hmem).2.1
  have hu : unpackAll s.tree s.pkd s.plen.toNat s.rlen.toNat s.raw = .ok (Decoder.afterWords s.tree s.raw ws) := by
    rw [unpackAll_words htree hw hroot hlen.le hl hb, decodeBits_done _ _ _ _ _ hlen.ge]
  refine ⟨_, ?_, Decoder.read_afterWords s.tree s.raw ws, (unpackAll_raw hu).1⟩
  rw [exec_unpack_of_ok ((unpackPrecheck_none_iff s).2 ⟨hr, hp, hok⟩) hu, Decoder.afterWords,
    word32_eq (hl.trans_lt (payload_bits_lt hwf hp))]
  rfl

/-- Settles O46: past the paths and `q` the next bit finds no link; the empty tree faults before any bit. -/
theorem unpackFaultsOnAMissingChild : Obligations.UnpackFaultsOnAMissingChild := by
  intro s hwf hr hp hok htree
  have hc := (unpackPrecheck_none_iff s).2 ⟨hr, hp, hok⟩
  refine ⟨fun ws q cur b hroot hn hw hq hcur hnone hl hb => ?absent, fun hzero hpos => ?empty⟩
  case absent =>
    rw [List.length_append, List.length_singleton] at hl
    have hbit : s.pkd.payloadBit (ws.flatMap Prod.fst ++ q).length = b := by
      rw [hb.payloadBit _ (by simp), List.getElem_concat_length rfl]
    obtain ⟨left, hleft⟩ := Nat.exists_eq_succ_of_ne_zero (show 8 * s.plen.toNat - (ws.flatMap Prod.fst ++ q).length ≠ 0 by omega)
    have hu := unpackAll_words_inner (raw := s.raw) htree hw hroot hn hq hcur (Nat.le_of_succ_le hl) hb.left
    rw [hleft, decodeBits_path _ _ _ _ _ hn (by rw [hbit]; exact hnone)] at hu
    have hpos : (ws.flatMap Prod.fst ++ q).length < 2 ^ 32 := (Nat.lt_of_succ_le hl).trans (payload_bits_lt hwf hp)
    rw [← word32_eq hpos, ← word32_eq (hn.trans s.rlen.isLt)]
    exact exec_unpack_of_error hc hu
  case empty =>
    have hu := unpackAll_of_empty (m := s.pkd) (plen := s.plen.toNat) (raw := s.raw) hpos hzero
    rw [corruptPathAt, word32_eq (by decide)] at hu
    exact exec_unpack_of_error hc hu

/-- Settles O47: past the paths and `q` a bit is demanded and none is left. -/
theorem unpackFaultsOnAShortPayload : Obligations.UnpackFaultsOnAShortPayload := by
  intro s ws q cur hwf hr hp hok htree hroot hn hw hq hcur hl hb
  have hu := unpackAll_words_inner (raw := s.raw) htree hw hroot hn hq hcur hl.le hb
  rw [hl, Nat.sub_self, decodeBits_short _ _ _ _ hn] at hu
  rw [← word32_eq (payload_bits_lt hwf hp), ← word32_eq (hn.trans s.rlen.isLt)]
  exact exec_unpack_of_error ((unpackPrecheck_none_iff s).2 ⟨hr, hp, hok⟩) hu

/-! ### After PACK (R174) -/

/-- A PACK that completed had RLEN in range, a code for every input byte, and room for the payload. -/
theorem exec_pack_idle {s t : State} (hexec : exec .pack s = .next t) (hidle : t.engine = .idle) :
    s.rlen.toNat ≤ s.params.rawSize.toNat ∧ (∀ x ∈ s.rawInput, s.code.lenOf x ≠ 0) ∧
      ceil8 (stream s.code s.rawInput).length ≤ s.params.pkdSize.toNat := by
  obtain ⟨-, e⟩ | ⟨-, _, -, e⟩ | ⟨hr, _, hp, -⟩ := execPack_cases s
  · cases e.symm.trans hexec
    cases hidle
  · cases e.symm.trans hexec
    cases hidle
  · exact ⟨hr, packAll_ok_inv _ _ _ _ hp⟩

/-- Settles O53: PACK's payload is the input's stream, which is the paths of the leaves of its bytes, and UNPACK decodes those. -/
theorem unpackInvertsPack : Obligations.UnpackInvertsPack := by
  intro s t m hwf hok htree hagree hexec hidle
  obtain ⟨hr, hcodes, hfit⟩ := exec_pack_idle hexec hidle
  obtain ⟨pkd, hnext, hpkd, -⟩ := packWritesTheStream s hwf hr
    (fun k hk => hcodes _ (List.mem_map_of_mem (List.mem_range.2 hk))) hfit
  cases hnext.symm.trans hexec
  obtain ⟨ws, hlen, hw, hstream, hsyms⟩ := hagree.stream_paths s.rawInput hcodes
  rw [s.length_rawInput] at hlen
  have hsize := Params.pkdSize_lt hwf
  have hplen : (BitVec.ofNat 32 (ceil8 (stream s.code s.rawInput).length)).toNat = ceil8 (stream s.code s.rawInput).length :=
    Nat.mod_eq_of_lt (by omega)
  have hpad : (stream s.code s.rawInput).length ≤ 8 * ceil8 (stream s.code s.rawInput).length := by
    unfold ceil8
    omega
  obtain ⟨raw, hunpack, hread, -⟩ := unpackDecodesThePaths
    { s with engine := .idle, done := true, pkd := pkd, raw := m,
             plen := BitVec.ofNat 32 (ceil8 (stream s.code s.rawInput).length),
             pbits := BitVec.ofNat 32 (stream s.code s.rawInput).length }
    ws hwf hr (hplen.trans_le hfit) hok htree hlen hw (by rw [hstream, hplen]; exact hpad) (by rw [hstream]; exact hpkd.left)
  refine ⟨_, hunpack, rfl, by rw [hstream], fun k hk => ?_⟩
  calc raw.read k
      = (s.tree.nodeAt (ws[k]'(hlen ▸ hk)).2).sym := hread k (hlen ▸ hk)
    _ = s.rawInput[k]'(s.length_rawInput.symm ▸ hk) := by simp [← hsyms]
    _ = s.raw.read k := s.raw.getElem_firstBytes _ k _

/-! ### The bits read (R172, R173) -/

theorem decodeBit_bitpos {t : Tree} {b : Bool} {d d' : Decoder} (h : decodeBit t b d = .ok d') : d'.bitpos = d.bitpos + 1 := by
  unfold decodeBit at h
  split at h
  · cases h
  · split at h <;> cases h <;> rfl

/-- The ways a decoding without fault goes: all symbols are out and it ends, or a bit is read and it goes on. -/
theorem decodeBits_ok_cases {t : Tree} {m : Memory} {count left : Nat} {d d' : Decoder}
    (h : decodeBits t m count left d = .ok d') :
    (count ≤ d.n ∧ d' = d) ∨
    (d.n < count ∧ ∃ l d1, left = l + 1 ∧ decodeBit t (m.payloadBit d.bitpos) d = .ok d1 ∧ decodeBits t m count l d1 = .ok d') := by
  rcases Nat.lt_or_ge d.n count with hn | hn
  · cases left with
    | zero => cases (decodeBits_short t m count d hn).symm.trans h
    | succ l =>
      rw [decodeBits, if_pos hn] at h
      split at h
      · cases h
      · next d1 h1 => exact .inr ⟨hn, l, d1, rfl, h1, h⟩
  · rw [decodeBits_done t m count left d hn] at h
    exact .inl ⟨hn, (Except.ok.inj h).symm⟩

/-- A decoding without fault moves the bit position on, never past the payload (R174). -/
theorem decodeBits_bitpos {t : Tree} {m : Memory} {count left : Nat} {d d' : Decoder}
    (h : decodeBits t m count left d = .ok d') : d.bitpos ≤ d'.bitpos ∧ d'.bitpos ≤ d.bitpos + left := by
  induction left generalizing d with
  | zero =>
    obtain ⟨-, rfl⟩ | ⟨-, l, _, hl, -⟩ := decodeBits_ok_cases h
    · exact ⟨le_rfl, le_rfl⟩
    · exact absurd hl (Nat.succ_ne_zero l).symm
  | succ left ih =>
    obtain ⟨-, rfl⟩ | ⟨-, l, d1, hl, h1, hrest⟩ := decodeBits_ok_cases h
    · exact ⟨le_rfl, Nat.le_add_right _ _⟩
    · cases hl
      have hpos := decodeBit_bitpos h1
      have hbounds := ih hrest
      omega

/-- A decoding without fault depends on no bit outside those it consumed. -/
theorem decodeBits_congr {t : Tree} {m m' : Memory} {count left : Nat} {d d' : Decoder}
    (h : decodeBits t m count left d = .ok d')
    (hm : ∀ p, d.bitpos ≤ p → p < d'.bitpos → m'.payloadBit p = m.payloadBit p) : decodeBits t m' count left d = .ok d' := by
  induction left generalizing d with
  | zero => exact h
  | succ left ih =>
    obtain ⟨hn, rfl⟩ | ⟨hn, l, d1, hl, h1, hrest⟩ := decodeBits_ok_cases h
    · exact decodeBits_done t m' count _ d' hn
    · cases hl
      have hpos := decodeBit_bitpos h1
      have hlater := (decodeBits_bitpos hrest).1
      rw [decodeBits, if_pos hn, hm d.bitpos le_rfl (by omega), h1]
      exact ih hrest fun p hp => hm p (by omega)

/-- UNPACK's data path without fault: it ends within the payload, and no bit from there on matters. -/
theorem unpackAll_congr {t : Tree} {m m' : Memory} {plen count : Nat} {raw : Memory} {d : Decoder}
    (h : unpackAll t m plen count raw = .ok d) :
    d.bitpos ≤ 8 * plen ∧
      ((∀ p, p < d.bitpos → m'.payloadBit p = m.payloadBit p) → unpackAll t m' plen count raw = .ok d) := by
  by_cases hempty : 0 < count ∧ t.nnodes = 0#9
  · cases (unpackAll_of_empty hempty.1 hempty.2).symm.trans h
  · rw [unpackAll, if_neg hempty] at h ⊢
    exact ⟨by simpa using (decodeBits_bitpos h).2, fun hm => decodeBits_congr h fun p _ => hm p⟩

/-- Settles O48: UBITS is the decoder's bit position, and the data path is the same on a payload that agrees below it. -/
theorem unpackReadsNoPadding : Obligations.UnpackReadsNoPadding := by
  intro s t m hwf hexec hidle hm
  obtain ⟨_, -, e⟩ | ⟨-, _, -, e⟩ | ⟨hc, d, hu, e⟩ := execUnpack_cases s
  · cases e.symm.trans hexec
    cases hidle
  · cases e.symm.trans hexec
    cases hidle
  · cases e.symm.trans hexec
    obtain ⟨hend, hsame⟩ := unpackAll_congr (m' := m) hu
    have hbits := payload_bits_lt hwf ((unpackPrecheck_none_iff s).1 hc).2.1
    have hubits : (word32 d.bitpos).toNat = d.bitpos := by
      rw [word32_eq (by omega), BitVec.toNat_ofNat, Nat.mod_eq_of_lt (by omega)]
    exact exec_unpack_of_ok (s := { s with pkd := m }) hc (hsame fun p hp => hm p (hubits.symm ▸ hp))

end Sys2Proof.Machine
end

section
/-! SUPPORT. TRIE: its next state by the outcome of the builder, what a finished trie gives, the tables it refuses and what it reports,
and DERIVE after it (R180 to R188 of 46_trie_codec.md). -/

namespace Sys2Proof.Machine

/-! ### The next state -/

section NextState

variable {s : State}

/-- A finished trie is TRIE's completion, and the tree with TREE_OK alone takes a result (R180). -/
theorem exec_trie_of_ok {t : Tree} (h : trieOf s.code = .ok t) :
    exec .trie s = .next { s with engine := .idle, done := true, treeOk := true, tree := t } := by
  obtain ⟨_, herror, -⟩ | ⟨_, hok, hnext⟩ := execTrie_cases s
  · cases herror.symm.trans h
  · cases hok.symm.trans h
    exact hnext

/-- A fault of the builder clears the tree and TREE_OK, and is taken (R218 of 60_exceptions.md). -/
theorem exec_trie_of_error {r : Raised} (h : trieOf s.code = .error r) :
    exec .trie s = .next
      { s with engine := .fault, done := false, treeOk := false, tree := Tree.empty,
               err := { code := r.code.number, info0 := r.info0, info1 := r.info1 } } := by
  obtain ⟨_, herror, hnext⟩ | ⟨_, hok, -⟩ := execTrie_cases s
  · cases herror.symm.trans h
    exact hnext
  · cases hok.symm.trans h

/-- The symbols below `y` in, the fault of inserting `y` is TRIE's fault. -/
theorem exec_trie_of_error_at {y : Sym} {r : Raised}
    (hfree : ∀ a b, a < y → b < y → a ≠ b → s.code.lenOf a ≠ 0 → s.code.lenOf b ≠ 0 →
      ¬ s.code.codeOf a <+: s.code.codeOf b)
    (hroom : s.code.trieSizeOf (symbols.filter fun z => decide (z < y)) ≤ 511)
    (hy : ∀ a, TrieOf s.code (symbols.filter fun z => decide (z < y)) a →
      insertSym s.code a (y, entryAt s.code.len y) = .error r) :
    exec .trie s = .next
      { s with engine := .fault, done := false, treeOk := false, tree := Tree.empty,
               err := { code := r.code.number, info0 := r.info0, info1 := r.info1 } } := by
  obtain ⟨a, hbelow, htrie⟩ := insertSyms_below s.code y hfree hroom
  exact exec_trie_of_error (trieOf_error_at s.code y a r hbelow (hy a htrie))

/-- TRIE ends in IDLE with a finished trie only. -/
theorem trieOf_ok_of_idle {t : State} (hexec : exec .trie s = .next t) (hidle : t.engine = .idle) :
    ∃ tree, trieOf s.code = .ok tree ∧ t = { s with engine := .idle, done := true, treeOk := true, tree := tree } := by
  cases h : trieOf s.code with
  | error r =>
    cases (exec_trie_of_error h).symm.trans hexec
    cases hidle
  | ok tree =>
    cases (exec_trie_of_ok h).symm.trans hexec
    exact ⟨tree, rfl, rfl⟩

end NextState

/-! ### What a finished trie gives (R181 to R183, R187) -/

section Finished

variable {c : CodeTable} {ss : List Sym} {a : Arena}

theorem TrieOf.child_lt (h : TrieOf c ss a) {i k : NodeIdx} {b : Bool} (hc : a.childAt i b = some k) : i < k := by
  obtain ⟨-, rfl⟩ | ⟨-, hshape, -⟩ := h
  · rw [Arena.childAt_clear] at hc
    cases hc
  · exact (hshape.child i b k hc).1

theorem TrieOf.freq_zero (h : TrieOf c ss a) (i : NodeIdx) : (a.recAt i).freq = 0#40 := by
  obtain ⟨-, rfl⟩ | ⟨-, hshape, -⟩ := h
  · rw [Arena.recAt_clear]
    rfl
  · exact hshape.freq_zero i

theorem TrieOf.leaves_eq (h : TrieOf c ss a) : a.leaves = (entriesBack c ss).length := by
  obtain ⟨hnil, rfl⟩ | ⟨-, -, -, hleaves⟩ := h
  · rw [hnil]
    rfl
  · exact hleaves

theorem TrieOf.next_le (h : TrieOf c ss a) : a.next ≤ 511 := by
  obtain ⟨-, rfl⟩ | ⟨-, hshape, -⟩ := h
  · exact Nat.zero_le 511
  · exact hshape.le

theorem length_entriesBack_symbols (c : CodeTable) : (entriesBack c symbols).length = c.entries.length :=
  length_entriesBack c symbols

theorem CodeTable.length_entries_le (c : CodeTable) : c.entries.length ≤ 256 :=
  (List.length_filter_le _ _).trans_eq length_symbols

/-- NLEAF is the number of entries (R182). -/
theorem TrieOf.nleaf_toNat (h : TrieOf c symbols a) : (a.toTree 0).nleaf.toNat = c.entries.length := by
  have hle := c.length_entries_le
  rw [Arena.toTree_nleaf, h.leaves_eq, length_entriesBack_symbols, BitVec.toNat_ofNat, Nat.mod_eq_of_lt (by omega)]

/-- NNODES is the trie's size, zero for the empty table (R182, R187). -/
theorem TrieOf.nnodes_toNat (h : TrieOf c symbols a) :
    (a.toTree 0).nnodes.toNat = if c.entries.length = 0 then 0 else c.trieSize := by
  have hle := h.next_le
  rw [Arena.toTree_nnodes, BitVec.toNat_ofNat, Nat.mod_eq_of_lt (by omega), ← length_entriesBack_symbols]
  split
  · next hzero =>
    obtain ⟨-, rfl⟩ | ⟨hsome, -⟩ := h
    · rfl
    · exact absurd (List.length_eq_zero_iff.1 hzero) hsome
  · next hpos => exact h.next_eq fun hnil => hpos (List.length_eq_zero_iff.2 hnil)

theorem CodeTable.MadeFor.madeIn {p : Bits} {x : Sym} (h : c.MadeFor p x) : MadeIn c symbols p x :=
  ⟨mem_symbols x, h.entry, h.starts, fun z _ => h.lowest z⟩

/-- The first bits of a code, however many, lead to a record of the tree (R182). -/
theorem TrieOf.prefix_used (h : TrieOf c symbols a) {p : Bits} {x : Sym} (hp : c.MadeFor p x) :
    ∃ i, (a.toTree 0).follow 0 p = some i ∧ (a.toTree 0).Used i := by
  have hmem : (x, c.codeOf x) ∈ entriesBack c symbols := (mem_entriesBack c symbols _).2 ⟨mem_symbols x, hp.entry, rfl⟩
  obtain ⟨hnil, -⟩ | ⟨-, hshape, hholds, -⟩ := h
  · exact absurd hmem (by simp [hnil])
  · obtain ⟨i, hi⟩ := (hholds.present p).2 (.inr ⟨_, hmem, hp.starts⟩)
    exact ⟨i, hi, (Arena.used_iff hshape.le 0 i).2 (hshape.path_lt hi)⟩

/-- The order of two records is that of their creation (R181). -/
theorem Numbered.lt_iff (h : Numbered c symbols a) {p q : Bits} {x y : Sym} {i j : NodeIdx} (hp : c.MadeFor p x)
    (hq : c.MadeFor q y) (hi : a.path p = some i) (hj : a.path q = some j) :
    i < j ↔ x < y ∨ (x = y ∧ p.length < q.length) := by
  refine ⟨fun hij => ?_, h p q x y i j hp.madeIn hq.madeIn hi hj⟩
  have hnot : ¬ (y < x ∨ (y = x ∧ q.length < p.length)) := fun hlater =>
    absurd (h q p y x j i hq.madeIn hp.madeIn hj hi hlater) (not_lt_of_gt hij)
  have hne : ¬ (x = y ∧ p.length = q.length) := by
    rintro ⟨rfl, hlen⟩
    have hpq : p = q := (List.prefix_of_prefix_length_le hp.starts hq.starts hlen.le).eq_of_length hlen
    subst hpq
    cases hi.symm.trans hj
    exact lt_irrefl i hij
  simp only [BitVec.lt_def, ← BitVec.toNat_inj] at hnot hne ⊢
  omega

end Finished

/-! ### The obligations -/

/-- Settles O49: the builder ends on such a table, and each fact is that of a finished trie. -/
theorem trieBuildsTheDecodeTrie : Obligations.TrieBuildsTheDecodeTrie := by
  intro s hfree hfits
  obtain ⟨t, ht⟩ := trieOf_ok hfree hfits
  obtain ⟨a, rfl, htrie, hnumbered⟩ := trieOf_numbered ht
  exact ⟨a.toTree 0, exec_trie_of_ok ht, htrie.agree, rfl, htrie.freq_zero, htrie.nleaf_toNat, htrie.nnodes_toNat,
    fun _ _ _ => htrie.child_lt, fun _ _ => htrie.prefix_used, fun _ _ _ _ _ _ => hnumbered.lt_iff⟩

/-- A finished trie's tree agrees with its table, so the codes are paths to leaves, and no more paths than records (R184, R185). -/
theorem prefixFree_of_trieOf_ok {c : CodeTable} {t : Tree} (h : trieOf c = .ok t) : c.PrefixFree ∧ c.trieSize ≤ 511 := by
  obtain ⟨htree, hagree⟩ := trieOf_ok_inv h
  exact ⟨hagree.prefixFree htree, hagree.trieSize_le htree⟩

/-- Neither code of two entries begins the other. -/
theorem CodeTable.PrefixFree.no_conflict {c : CodeTable} (h : c.PrefixFree) {x y : Sym} (hxy : x ≠ y) (hx : c.lenOf x ≠ 0)
    (hy : c.lenOf y ≠ 0) : ¬ Conflict (c.codeOf x) (c.codeOf y) :=
  not_or.2 ⟨h x y hxy hx hy, h y x hxy.symm hy hx⟩

/-- The builder's fault is E_CODEBOOK for two codes in conflict, or E_NODE_OVF for a trie that does not fit (R184, R185). -/
theorem trieOf_error_cause {c : CodeTable} {r : Raised} (h : trieOf c = .error r) :
    (r.code = .codebook ∧ ¬ c.PrefixFree) ∨ (r.code = .nodeOvf ∧ 511 < c.trieSize) := by
  have hspec := trieOf_spec c
  rw [h] at hspec
  obtain ⟨xs, y, zs, hsplit, hy, ⟨⟨j, rfl⟩, x, hx, hlen, hconflict⟩ | ⟨⟨j, rfl⟩, hbig⟩⟩ := hspec
  · have hxy : x ≠ y := (List.nodup_append.1 (hsplit ▸ symbols_nodup)).2.2 x hx y List.mem_cons_self
    exact .inl ⟨rfl, fun hfree => hfree.no_conflict hxy hlen hy hconflict⟩
  · exact .inr ⟨rfl, Nat.lt_of_succ_le (hbig.trans (trieSizeOf_mono c fun z _ => mem_symbols z))⟩

/-- Settles O50: the builder's fault by its cause; a finished trie's table has neither. -/
theorem trieRefusesABadTable : Obligations.TrieRefusesABadTable := by
  intro s
  cases h : trieOf s.code with
  | ok tree =>
    have hgood := prefixFree_of_trieOf_ok h
    refine ⟨fun hbad => absurd hgood hbad, fun t hexec hfault => ?_⟩
    cases (exec_trie_of_ok h).symm.trans hexec
    cases hfault
  | error r =>
    have hexec := exec_trie_of_error h
    obtain ⟨hcode, hconflict⟩ | ⟨hcode, hbig⟩ := trieOf_error_cause h
    · rw [hcode] at hexec
      exact ⟨fun _ => ⟨_, _, _, hexec, .inl rfl, fun hfree => absurd hfree hconflict, fun _ => rfl⟩,
        fun _ _ _ hgood => hconflict hgood.1⟩
    · rw [hcode] at hexec
      exact ⟨fun _ => ⟨_, _, _, hexec, .inr rfl, fun _ => rfl, fun hfits => absurd hfits (Nat.not_le.2 hbig)⟩,
        fun _ _ _ hgood => Nat.not_le.2 hbig hgood.2⟩

theorem mem_symbols_below {x y : Sym} : x ∈ (symbols.filter fun z => decide (z < y)) ↔ x < y := by
  simp

/-- Settles O51: each report is that of inserting `y` into the trie of the symbols below it. -/
theorem trieReportsTheConflict : Obligations.TrieReportsTheConflict := by
  intro s y hy hfree hroom
  have hlen : ∀ z, s.code.lenOf z < 256 := fun z => Nat.lt_succ_of_le (s.code.lenOf_le z)
  refine ⟨fun x hxy hx hprefix hne => ?throughLeaf, fun x hxy hx hprefix => ?atLink, fun j hj hleaf hnew hfull => ?overflow⟩
  case throughLeaf =>
    rw [← word32_eq ((hlen x).trans (by decide))]
    exact exec_trie_of_error_at hfree hroom fun a htrie =>
      insertSym_throughLeaf htrie (mem_symbols_below.2 hxy) hx hprefix hne
  case atLink =>
    rw [← word32_eq (((Nat.sub_le _ 1).trans_lt (hlen y)).trans (by decide))]
    exact exec_trie_of_error_at hfree hroom fun a htrie =>
      insertSym_atLink htrie (mem_symbols_below.2 hxy) hx hy hprefix
  case overflow =>
    rw [← word32_eq ((hj.trans (hlen y)).trans (by decide))]
    exact exec_trie_of_error_at hfree hroom fun a htrie =>
      insertSym_overflow htrie hj (fun x hx => hleaf x (mem_symbols_below.1 hx))
        (fun x hx => hnew x (mem_symbols_below.1 hx)) hfull

/-- Settles O52: the trie's tree agrees with the table and with the one DERIVE reads off it, so both hold the same codes. -/
theorem deriveInvertsTrie : Obligations.DeriveInvertsTrie := by
  intro s t hexec hidle
  obtain ⟨tree, htrie, rfl⟩ := trieOf_ok_of_idle hexec hidle
  obtain ⟨htree, hagree⟩ := trieOf_ok_inv htrie
  obtain ⟨c, hc, -, -, hcanonical⟩ := deriveTable_spec htree
  exact ⟨_, exec_derive rfl hc, rfl, fun x => ⟨(deriveTable_agree htree hc).codeOf_eq hagree x, hcanonical x⟩⟩

end Sys2Proof.Machine
end

section
/-! SUPPORT. DECOMPRESS after COMPRESS: the codes COMPRESS makes for its input, the trie another block makes of them, and the payload
decoded along it (R102, R103 of 30_encoding.md; R174 of 45_unpack.md; R189 of 46_trie_codec.md). -/

namespace Sys2Proof.Machine

/-! ### COMPRESS has a code for every byte of its input -/

/-- The symbol of a leaf has a code: its path is not empty, the root being no leaf (R45(b) of 10_state.md). -/
theorem Agree.lenOf_leaf_ne_zero {t : Tree} {c : CodeTable} (ha : Agree t c) (hi : TreeInv t) {i : NodeIdx} (hleaf : t.IsLeaf i) :
    c.lenOf (t.nodeAt i).sym ≠ 0 := by
  have hroot : t.nnodes ≠ 0#9 := fun hzero => Tree.not_used_of_zero hzero i hleaf.1
  obtain ⟨p, hp⟩ := hi.reached i hleaf.1
  intro hzero
  have hnil : p = [] := by
    rw [← ha.leaf_entry hroot p i hp hleaf, ← List.length_eq_zero_iff, CodeTable.length_codeOf, hzero]
  subst hnil
  cases hp
  exact absurd hleaf.2 (by simp [hi.root_not_leaf])

/-- Every symbol with a count is a leaf of BUILD's tree (R132, R133 of 42_build.md). -/
theorem BuildsTo.exists_leaf {f : Table Word} {t : Tree} (h : BuildsTo f t) {x : Sym} (hx : x ∈ presentSymbols f) :
    ∃ i, t.IsLeaf i ∧ (t.nodeAt i).sym = x := by
  obtain ⟨k, hk, rfl⟩ := List.getElem_of_mem hx
  have hle := length_presentSymbols f
  have hrec := h.leaf_at ⟨k, by omega⟩ hk
  refine ⟨⟨k, by omega⟩, ⟨?_, by rw [hrec]; rfl⟩, by rw [hrec]; rfl⟩
  rw [Tree.Used, h.nnodes]
  show k < _
  split_ifs <;> omega

theorem mem_presentSymbols_countBytes {bs : List Byte} (h : bs.length < 2 ^ 32) {x : Byte} (hx : x ∈ bs) :
    x ∈ presentSymbols (countBytes bs) := by
  rw [mem_presentSymbols, ne_eq, ← BitVec.toNat_inj, entryAt_countBytes h]
  exact (List.count_pos_iff.2 hx).ne'

/-- BUILD on the counts and DERIVE leave a code for every byte counted. -/
theorem Agree.lenOf_counted_ne_zero {bs : List Byte} (h : bs.length < 2 ^ 32) {c : CodeTable}
    (ha : Agree (buildTree (countBytes bs)) c) : ∀ x ∈ bs, c.lenOf x ≠ 0 := by
  intro x hx
  obtain ⟨i, hleaf, rfl⟩ := (buildsTo_buildTree (countBytes bs)).exists_leaf (mem_presentSymbols_countBytes h hx)
  exact ha.lenOf_leaf_ne_zero (buildTree_inv _) hleaf

/-- The state after COUNT, BUILD and DERIVE, the table derived being `c`. -/
def State.coded (s : State) (c : CodeTable) : State :=
  { s with engine := .idle, done := true, treeOk := true, freq := countBytes s.rawInput, tree := buildTree (countBytes s.rawInput),
           code := c }

/-- COUNT, BUILD and DERIVE complete with RLEN in range, and leave a table that agrees with BUILD's tree (R102 of 30_encoding.md). -/
theorem exec_count_build_derive {s : State} (hr : s.rlen.toNat ≤ s.params.rawSize.toNat) :
    ∃ s1 s2 c, exec .count s = .next s1 ∧ exec .build s1 = .next s2 ∧ exec .derive s2 = .next (s.coded c) ∧
      Agree (buildTree (countBytes s.rawInput)) c := by
  obtain ⟨c, hc⟩ := deriveTable_some (buildTree_inv (countBytes s.rawInput))
  exact ⟨_, _, c, exec_count hr, exec_build _, exec_derive rfl hc, deriveTable_agree (buildTree_inv _) hc⟩

/-! ### The payload on the other block -/

/-- Equal bytes under a sequence's length are equal bits. -/
theorem Memory.StartsWith.of_read_eq {m m' : Memory} {bs : Bits} (h : m.StartsWith bs) {n : Nat} (hn : bs.length ≤ 8 * n)
    (heq : ∀ k, k < n → m'.read k = m.read k) : m'.StartsWith bs := by
  intro p hp
  rw [heq (p / 8) (by omega)]
  exact h p hp

/-- A table with the codes of a table that agrees with a tree has a trie, which agrees with those codes (R188(b)). -/
theorem Agree.trieOf_same_codes {t : Tree} {c c' : CodeTable} (hi : TreeInv t) (ha : Agree t c) (h : ∀ x, c'.codeOf x = c.codeOf x) :
    ∃ t', trieOf c' = .ok t' ∧ TreeInv t' ∧ Agree t' c := by
  obtain ⟨t', ht'⟩ := trieOf_ok (ha.prefixFree hi) (ha.trieSize_le hi)
  exact ⟨t', (trieOf_congr h).trans ht', trieOf_ok_inv ht'⟩

section Decompress

variable {u : State} {c : CodeTable} {bs : List Byte}

/-- UNPACK of a stream of codes along a tree that agrees with them gives the bytes back (R174 of 45_unpack.md). -/
theorem exec_unpack_stream (hwf : u.params.wellFormed = true) (hr : u.rlen.toNat ≤ u.params.rawSize.toNat)
    (hp : u.plen.toNat ≤ u.params.pkdSize.toNat) (hok : u.treeOk = true) (htree : TreeInv u.tree) (hagree : Agree u.tree c)
    (hcodes : ∀ x ∈ bs, c.lenOf x ≠ 0) (hlen : bs.length = u.rlen.toNat) (hbits : (stream c bs).length ≤ 8 * u.plen.toNat)
    (hpayload : u.pkd.StartsWith (stream c bs)) :
    ∃ m, exec .unpack u = .next
        { u with engine := .idle, done := true, raw := m, ubits := BitVec.ofNat 32 (stream c bs).length } ∧
      ∀ k (hk : k < bs.length), m.read k = bs[k] := by
  obtain ⟨ws, hwords, hleaves, hstream, hsyms⟩ := hagree.stream_paths bs hcodes
  rw [← hstream] at hbits hpayload ⊢
  obtain ⟨m, hexec, hread, -⟩ := unpackDecodesThePaths u ws hwf hr hp hok htree (hwords.trans hlen) hleaves hbits hpayload
  refine ⟨m, hexec, fun k hk => ?_⟩
  calc m.read k
      = (u.tree.nodeAt (ws[k]'(hwords ▸ hk)).2).sym := hread k (hwords ▸ hk)
    _ = bs[k] := by simp [← hsyms]

/-- TRIE then UNPACK give the bytes back on a block that holds the codes of a tree and their stream (R103 of 30_encoding.md). -/
theorem exec_trie_unpack_stream {t : Tree} (htree : TreeInv t) (hagree : Agree t c) (hsame : ∀ x, u.code.codeOf x = c.codeOf x)
    (hwf : u.params.wellFormed = true) (hr : u.rlen.toNat ≤ u.params.rawSize.toNat) (hp : u.plen.toNat ≤ u.params.pkdSize.toNat)
    (hcodes : ∀ x ∈ bs, c.lenOf x ≠ 0) (hlen : bs.length = u.rlen.toNat) (hbits : (stream c bs).length ≤ 8 * u.plen.toNat)
    (hpayload : u.pkd.StartsWith (stream c bs)) :
    ∃ u1 u2, exec .trie u = .next u1 ∧ u1.engine = .idle ∧ exec .unpack u1 = .next u2 ∧ u2.engine = .idle ∧
      u2.ubits = BitVec.ofNat 32 (stream c bs).length ∧ ∀ k (hk : k < bs.length), u2.raw.read k = bs[k] := by
  obtain ⟨t', htrie, htree', hagree'⟩ := hagree.trieOf_same_codes htree hsame
  obtain ⟨m, hunpack, hread⟩ := exec_unpack_stream (u := { u with engine := .idle, done := true, treeOk := true, tree := t' })
    hwf hr hp rfl htree' hagree' hcodes hlen hbits hpayload
  exact ⟨_, _, exec_trie_of_ok htrie, rfl, hunpack, rfl, rfl, hread⟩

end Decompress

/-- Settles O54: DERIVE's codes agree with BUILD's tree, so PACK finds a code for every byte, and the trie of the same codes decodes the
stream. -/
theorem decompressInvertsCompress : Obligations.DecompressInvertsCompress := by
  intro s hwf hr
  obtain ⟨s1, s2, c, hcount, hbuild, hderive, hagree⟩ := exec_count_build_derive hr
  have hcodes : ∀ x ∈ s.rawInput, c.lenOf x ≠ 0 := hagree.lenOf_counted_ne_zero s.length_rawInput_lt
  refine ⟨s1, s2, s.coded c, hcount, hbuild, hderive, rfl, fun hfit => ?_⟩
  obtain ⟨pkd, hpack, hpkd, -⟩ := packWritesTheStream (s.coded c) hwf hr
    (fun k hk => hcodes _ (List.mem_map_of_mem (List.mem_range.2 hk))) hfit
  refine ⟨_, hpack, rfl, fun u hwfu hsame hbytes hplen hrlen hru hpu => ?_⟩
  have hsize := Params.pkdSize_lt hwf
  have hfits : ceil8 (stream c s.rawInput).length ≤ s.params.pkdSize.toNat := hfit
  have hbits : (stream c s.rawInput).length ≤ 8 * u.plen.toNat := by
    have hplenNat : u.plen.toNat = ceil8 (stream c s.rawInput).length := by
      rw [hplen]
      exact Nat.mod_eq_of_lt (by omega)
    rw [hplenNat, ceil8]
    omega
  have hpayload : u.pkd.StartsWith (stream c s.rawInput) := hpkd.left.of_read_eq hbits fun k hk => hbytes k (hplen ▸ hk)
  have hlen : s.rawInput.length = u.rlen.toNat := hrlen ▸ s.length_rawInput
  obtain ⟨u1, u2, htrie, hidle1, hunpack, hidle2, hubits, hread⟩ :=
    exec_trie_unpack_stream (buildTree_inv _) hagree hsame hwfu hru hpu hcodes hlen hbits hpayload
  exact ⟨u1, u2, htrie, hidle1, hunpack, hidle2, hubits, fun k hk =>
    (hread k (s.length_rawInput.symm ▸ hk)).trans (s.raw.getElem_firstBytes _ k _)⟩

end Sys2Proof.Machine
end

section
/-! SUPPORT. Pre-check faults: the lengths against the buffers and the missing tree, in UNPACK's order, with nothing but the flags and the
fault record changed (R203, R204, R212, R217 of 60_exceptions.md). -/

namespace Sys2Proof.Machine

theorem treeFault_some {s : State} (h : s.treeOk = false) (opc : Word) :
    s.treeFault opc = some { code := .state, info0 := opc, info1 := 0#32 } := by
  simp [State.treeFault, h]

/-! ### UNPACK's checks, each after those before it passed (R212) -/

theorem unpackPrecheck_of_rlenFault {s : State} {r : Raised} (h : s.rlenFault = some r) : s.unpackPrecheck = some r := by
  rw [State.unpackPrecheck, h]

theorem unpackPrecheck_of_plenFault {s : State} {r : Raised} (hr : s.rlen.toNat ≤ s.params.rawSize.toNat)
    (h : s.plenFault = some r) : s.unpackPrecheck = some r := by
  rw [State.unpackPrecheck, rlenFault_none hr, h]

theorem unpackPrecheck_of_treeFault {s : State} {r : Raised} (hr : s.rlen.toNat ≤ s.params.rawSize.toNat)
    (hp : s.plen.toNat ≤ s.params.pkdSize.toNat) (h : s.treeFault 0x14#32 = some r) : s.unpackPrecheck = some r := by
  rw [State.unpackPrecheck, rlenFault_none hr, plenFault_none hp, h]

/-! ### The next state after a failed check -/

/-- UNPACK takes the fault of a failed check as it stands. -/
theorem exec_unpack_of_precheck {s : State} {r : Raised} (h : s.unpackPrecheck = some r) :
    exec .unpack s = .next (s.takeFault r) := by
  obtain ⟨_, hfault, hnext⟩ | ⟨hpassed, -⟩ | ⟨hpassed, -⟩ := execUnpack_cases s
  · cases hfault.symm.trans h
    exact hnext
  · cases hpassed.symm.trans h
  · cases hpassed.symm.trans h

theorem exec_count_of_range {s : State} (h : s.params.rawSize.toNat < s.rlen.toNat) :
    exec .count s = .next (s.takeFault { code := .range, info0 := s.rlen, info1 := 0#32 }) := by
  obtain ⟨-, hnext⟩ | ⟨hin, -⟩ := execCount_cases s
  · exact hnext
  · exact absurd hin (Nat.not_le.2 h)

theorem exec_pack_of_range {s : State} (h : s.params.rawSize.toNat < s.rlen.toNat) :
    exec .pack s = .next (s.takeFault { code := .range, info0 := s.rlen, info1 := 0#32 }) := by
  obtain ⟨-, hnext⟩ | ⟨hin, -⟩ | ⟨hin, -⟩ := execPack_cases s
  · exact hnext
  · exact absurd hin (Nat.not_le.2 h)
  · exact absurd hin (Nat.not_le.2 h)

theorem exec_derive_of_no_tree {s : State} (h : s.treeOk = false) :
    exec .derive s = .next (s.takeFault { code := .state, info0 := 0x12#32, info1 := 0#32 }) := by
  obtain ⟨-, hnext⟩ | ⟨hok, -⟩ | ⟨hok, -⟩ := execDerive_cases s
  · exact hnext
  · cases hok.symm.trans h
  · cases hok.symm.trans h

/-! ### The obligations -/

/-- Settles O27: RLEN is the first check of all three commands, and PLEN the next one of UNPACK. -/
theorem lengthsOutOfRangeFault : Obligations.LengthsOutOfRangeFault := by
  intro s
  constructor
  · rintro hlong i (rfl | rfl | rfl)
    · exact exec_count_of_range hlong
    · exact exec_pack_of_range hlong
    · exact exec_unpack_of_precheck (unpackPrecheck_of_rlenFault (rlenFault_some hlong))
  · intro hr hlong
    exact exec_unpack_of_precheck (unpackPrecheck_of_plenFault hr (plenFault_some hlong))

/-- Settles O28: TREE_OK is DERIVE's one check, and UNPACK's last. -/
theorem missingTreeFaults : Obligations.MissingTreeFaults := by
  intro s hok
  exact ⟨exec_derive_of_no_tree hok, fun hr hp =>
    exec_unpack_of_precheck (unpackPrecheck_of_treeFault hr hp (treeFault_some hok _))⟩

end Sys2Proof.Machine
end

section
/-! SUPPORT. PACK on a payload that does not fit PKD: in the multiplexer loop, or in the flush (R166 of 44_pack.md, R206 of
60_exceptions.md). -/

namespace Sys2Proof.Machine

/-- With a code for every byte and whole bytes that fill the buffer, the leftover bits have no byte to go to. -/
theorem packAll_of_flush_full {c : CodeTable} {size : Nat} {xs : List Byte} {m : Memory} (hcodes : ∀ x ∈ xs, c.lenOf x ≠ 0)
    (hfull : (stream c xs).length / 8 = size) (hleft : (stream c xs).length % 8 ≠ 0) :
    packAll c size xs m = .error (overflowAt xs.length (stream c xs).length) := by
  obtain ⟨h, hloop, hinv⟩ := packBytes_ok (ShiftInv.start m) c size 0 xs hcodes hfull.le
  rw [packAll, hloop]
  exact flush_full hinv size xs.length hleft hfull.ge

/-- A data path that overflows ends PACK as R218 of 60_exceptions.md says, with the details R202 gives. -/
theorem exec_pack_of_overflow {s : State} {i total : Nat} (hr : s.rlen.toNat ≤ s.params.rawSize.toNat)
    (hp : packAll s.code s.params.pkdSize.toNat s.rawInput s.pkd = .error (overflowAt i total)) :
    ∃ m d, exec .pack s = .next
      { s with engine := .fault, done := false, err := { code := 0x11#8, info0 := word32 i, info1 := word32 total },
               plen := 0#32, pbits := 0#32, pkd := m, draws := d } :=
  ⟨_, _, exec_pack_of_error hr hp⟩

/-- Settles O43: the bytes before `i` pass the loop and the code of the byte at `i` runs past PKD_SIZE; or all bytes pass it and the flush
finds PKD full, its bits fewer than 2^32 by the bound on PKD_SIZE. -/
theorem packFaultsOnOverflow : Obligations.PackFaultsOnOverflow := by
  intro s hwf hr
  have hsize := Params.pkdSize_lt hwf
  refine ⟨fun i hi hcodes hfit hfull => ?byte, fun hcodes hfull hleft => ?flush⟩
  case byte =>
    rw [Memory.firstBytes_succ] at hfull
    have hloop : packBytes s.code s.params.pkdSize.toNat 0 s.rawInput (Shifter.start s.pkd) =
        .error (overflowAt i (8 * (s.params.pkdSize.toNat + 1))) := by
      rw [State.rawInput, s.raw.firstBytes_split hi,
        packBytes_full s.code _ _ _ _ (Memory.forall_mem_firstBytes fun k hk => hcodes k hk.le) (hcodes i le_rfl) hfit hfull,
        Memory.length_firstBytes]
    obtain ⟨m, d, hnext⟩ := exec_pack_of_overflow hr (packAll_of_packBytes_error hloop)
    rw [word32_eq (hi.trans s.rlen.isLt)] at hnext
    exact ⟨m, d, _, hnext, fun hsmall => word32_eq (by omega)⟩
  case flush =>
    have hall := packAll_of_flush_full (xs := s.rawInput) (m := s.pkd) (Memory.forall_mem_firstBytes hcodes) hfull hleft
    have hrlen : word32 s.rawInput.length = s.rlen := by
      rw [word32_eq s.length_rawInput_lt, s.length_rawInput, BitVec.ofNat_toNat, BitVec.setWidth_eq]
    obtain ⟨m, d, hnext⟩ := exec_pack_of_overflow hr hall
    rw [hrlen, word32_eq (by omega)] at hnext
    exact ⟨m, d, hnext⟩

end Sys2Proof.Machine
end

section
/-! SUPPORT. The outcome of every command, the fault record between a fault and its clearing, and hardware reset (R221, R227, R229 of
60_exceptions.md, R240 of 70_reset_and_hazards.md). -/

namespace Sys2Proof.Machine

/-- Settles O8: command by command; DERIVE's walk ends on every tree R45 allows. -/
theorem everyCommandHasANextState : Obligations.EveryCommandHasANextState :=
  exec_has_next

/-- Settles O23: in FAULT no command completes and no element is stored; what is left touches no fault record, and only the issue of SRST
or CLRF touches STATE. -/
theorem faultIsSticky : Obligations.FaultIsSticky := by
  intro s t fault hstep hreset
  cases step_stepsTo hstep with
  | rests | answers => exact ⟨rfl, .inl fault⟩
  | completes _ busy => cases busy.symm.trans fault
  | illegal _ busy => cases busy.symm.trans fault
  | stores _ _ _ _ idle => cases idle.symm.trans fault
  | issues r w head _ hf =>
    refine ⟨rfl, .inr ⟨rfl, ?_⟩⟩
    obtain rfl | rfl := hf fault
    · exact .inl head
    · exact .inr head
  | resets head => exact absurd head hreset

/-- Settles O18: the state after hardware reset, its reset values of R57 written out. -/
theorem hardwareResetEffect : Obligations.HardwareResetEffect := by
  intro s rest hs
  have hrest : s.popped.schedule = rest := by simp [State.popped, hs]
  refine ⟨Memory.ofDraw s.draws, Memory.ofDraw (s.draws + 1), s.draws + 2, ?_, rfl, rfl⟩
  rw [step_reset hs, State.hardReset, hrest, State.resetWith, FaultRecord.none, zeroFreq, Tree.empty, CodeTable.empty, NodeRec.zero,
    LinkPair.none]
  rfl

end Sys2Proof.Machine
end

section
/-! SUPPORT. The end of a script's run: the engine at rest, and the account of faults (R261 of 70_reset_and_hazards.md). -/

namespace Sys2Proof.Machine

theorem State.faultOnRecord_eq_false_iff (s : State) : s.faultOnRecord = false ↔ s.err.code = 0#8 := by
  simp [State.faultOnRecord]

/-- A run starts with no fault noted exactly when none is on record. -/
theorem ScriptRun.start_faults_eq_nil_iff (s : State) (turns : List Bool) :
    (ScriptRun.start s turns).faults = [] ↔ s.faultOnRecord = false := by
  simp [ScriptRun.start]

/-- A fault on record at the start is one no directive has expected. -/
theorem ScriptRun.start_faults_unexpected (s : State) (turns : List Bool) :
    ∀ b ∈ (ScriptRun.start s turns).faults, b = false := by
  cases h : s.faultOnRecord <;> simp [ScriptRun.start, h]

/-- Where no fault noted was expected, a run ended well exactly if none was noted. -/
theorem endedWell_iff_of_unexpected {r : ScriptRun} (h : ∀ b ∈ r.faults, b = false) :
    (ScriptEnd.ended r).endedWell = true ↔ r.faults = [] := by
  have hall : (ScriptEnd.ended r).endedWell = true ↔ ∀ b ∈ r.faults, b = true := List.all_eq_true
  rw [hall, List.eq_nil_iff_forall_not_mem]
  constructor
  · exact fun hexpected b hb => Bool.false_ne_true ((h b hb).symm.trans (hexpected b hb))
  · exact fun hnone b hb => absurd hb (hnone b)

/-- Settles O56: the run's last act is the completion still owed, if there is one. -/
theorem endedRunIsAtRest : Obligations.EndedRunIsAtRest :=
  fun _ _ _ _ hrun => runScript_rest hrun

/-- Settles O57: the account of faults, kept from start to end, has no expected fault in it, and is empty only with none on record. -/
theorem endedWellMeansNoFault : Obligations.EndedWellMeansNoFault := by
  intro ds s turns r hds hrun
  have hnoted : FaultsNoted (ScriptRun.start s turns) r := runScript_noted hds hrun
  have hstart := ScriptRun.start_faults_eq_nil_iff s turns
  refine ⟨endedWell_iff_of_unexpected (hnoted.unexpected (ScriptRun.start_faults_unexpected s turns)), fun hnone => ⟨?start, ?atEnd⟩⟩
  case start => exact s.faultOnRecord_eq_false_iff.1 (hstart.1 (hnoted.kept hnone))
  case atEnd => exact r.state.faultOnRecord_eq_false_iff.1 (hnoted.sound hstart.1 hnone)

end Sys2Proof.Machine
end
